-- ==== Sys2Proof/Word.lean ====
section
/-! DEFINITION. The one data type of the engine, the Word (00_scope.md R7). -/

namespace Sys2Proof

/-- "an unsigned 64-bit integer" (R7). Every datapath value of the engine is one. -/
abbrev Word := BitVec 64

end Sys2Proof
end

