-- ==== Sys2Proof/Machine/Bits.lean ====
section
/-! DEFINITION. Bit numbering, fields and left alignment (00_scope.md section 7, R7, R8, R16). -/

namespace Sys2Proof.Machine

/-- `w{i}`, `i` in `1..64`: bit `i` counted from the most significant, `w{i} = w[64-i]` (R8, R16). -/
def bit (w : Word) (i : Nat) : Bool := w.getLsbD (64 - i)

/-- `w{a..b}`: the bits `a` to `b`, `w{a}` most significant, that is `w[64-a : 64-b]` (section 7). -/
def field (w : Word) (a b : Nat) : BitVec (b - a + 1) := w.extractLsb' (64 - b) (b - a + 1)

/-- `top_N(w) = w{1..N}` (section 7). -/
def top (n : Nat) (w : Word) : BitVec n := w.extractLsb' (64 - n) n

/-- `la_N(x)`: the Word that holds the `N`-bit `x` left-aligned, `x * 2^(64-N)` (section 7). -/
def la {n : Nat} (x : BitVec n) : Word := x.setWidth 64 <<< (64 - n)

/-- `isLA_N(w)`: the bits `{N+1..64}` are zero, "that is `w mod 2^(64-N) = 0`" (section 7). -/
abbrev IsLA (n : Nat) (w : Word) : Prop := w.toNat % 2 ^ (64 - n) = 0

/-- The left-aligned Word whose bit `i` is entry `i` of the list, all bits past the list zero. -/
def ofBits (bs : List Bool) : Word := la (BitVec.ofBoolListBE bs)

end Sys2Proof.Machine
end

