-- ==== Sys2Proof/Machine/Operands.lean ====
section
/-! DEFINITION. Operand assembly: the fixed wiring that cuts Words into fields and joins them (30_encoding.md R107). There are no
other operand forms: "There are no immediates" (section 2 there). -/

namespace Sys2Proof.Machine

/-- `split56` (42_key_schedule.md R150). -/
def split56 (w : Word) : Word × Word :=
  (w &&& 0xFFFFFFF000000000#64, (w <<< 28) &&& 0xFFFFFFF000000000#64)

/-- `join56` (R151). -/
def join56 (c d : Word) : Word := c ||| (d >>> 28)

/-- `split64` (44_pipeline_and_host.md R190). -/
def split64 (w : Word) : Word × Word := (w &&& 0xFFFFFFFF00000000#64, w <<< 32)

/-- `join64` (R190). -/
def join64 (hi lo : Word) : Word := hi ||| (lo >>> 32)

/-- `KEYMIX` (43_round_function.md R172). -/
def keymix (e subkey : Word) : Word := e ^^^ subkey

/-- `GROUP(x, j) = x{6j+1 .. 6j+6}`, `j` in `0..7` (R173). -/
def group (x : Word) (j : Nat) : BitVec 6 := x.extractLsb' (64 - (6 * j + 6)) 6

/-- `row = b1 ‖ b6`, `b1` the first bit of the group (R174; the spec's G15, log 14). -/
def sboxRow (g : BitVec 6) : BitVec 2 := g.extractLsb' 5 1 ++ g.extractLsb' 0 1

/-- `column = b2 ‖ b3 ‖ b4 ‖ b5` (R174; the spec's G15, log 14). -/
def sboxColumn (g : BitVec 6) : BitVec 4 := g.extractLsb' 1 4

/-- `SBOXADDR`: `a = row*16 + column`, which is the concatenation `row ‖ column` (R174). -/
def sboxAddr (g : BitVec 6) : BitVec 6 := sboxRow g ++ sboxColumn g

/-- The reference program's slot for a group: "the byte `g_j * 4`", the group in the top six bits (R178). Nothing in the engine
uses it. -/
def groupSlot (g : BitVec 6) : BitVec 8 := g ++ 0#2

end Sys2Proof.Machine
end

