-- ==== Sys2Proof/Machine/Tables.lean ====
section
/-! DEFINITION. The read-only memories and their contents (20_memory.md sections 1 to 4). The spec marks the contents of the six
permutation tables and the eight S-boxes as general knowledge (93_implementation_defined.md G1 to G14; log 14). -/

namespace Sys2Proof.Machine

/-- "an ordered sequence of bit positions (1-based, values in 1..64)" (00_scope.md R10). -/
abbrev PermTable := List Nat

/-- Table `IP`, the initial permutation (R63), in reading order. -/
def tableIp : PermTable :=
  [58, 50, 42, 34, 26, 18, 10, 2] ++
  [60, 52, 44, 36, 28, 20, 12, 4] ++
  [62, 54, 46, 38, 30, 22, 14, 6] ++
  [64, 56, 48, 40, 32, 24, 16, 8] ++
  [57, 49, 41, 33, 25, 17, 9, 1] ++
  [59, 51, 43, 35, 27, 19, 11, 3] ++
  [61, 53, 45, 37, 29, 21, 13, 5] ++
  [63, 55, 47, 39, 31, 23, 15, 7]

/-- Table `FP`, the inverse initial permutation (R64), in reading order. -/
def tableFp : PermTable :=
  [40, 8, 48, 16, 56, 24, 64, 32] ++
  [39, 7, 47, 15, 55, 23, 63, 31] ++
  [38, 6, 46, 14, 54, 22, 62, 30] ++
  [37, 5, 45, 13, 53, 21, 61, 29] ++
  [36, 4, 44, 12, 52, 20, 60, 28] ++
  [35, 3, 43, 11, 51, 19, 59, 27] ++
  [34, 2, 42, 10, 50, 18, 58, 26] ++
  [33, 1, 41, 9, 49, 17, 57, 25]

/-- Table `PC1`, the 56-entry key permutation (R65), in reading order. -/
def tablePc1 : PermTable :=
  [57, 49, 41, 33, 25, 17, 9] ++
  [1, 58, 50, 42, 34, 26, 18] ++
  [10, 2, 59, 51, 43, 35, 27] ++
  [19, 11, 3, 60, 52, 44, 36] ++
  [63, 55, 47, 39, 31, 23, 15] ++
  [7, 62, 54, 46, 38, 30, 22] ++
  [14, 6, 61, 53, 45, 37, 29] ++
  [21, 13, 5, 28, 20, 12, 4]

/-- Table `PC2`, the 48-entry key permutation (R66), in reading order. -/
def tablePc2 : PermTable :=
  [14, 17, 11, 24, 1, 5] ++
  [3, 28, 15, 6, 21, 10] ++
  [23, 19, 12, 4, 26, 8] ++
  [16, 7, 27, 20, 13, 2] ++
  [41, 52, 31, 37, 47, 55] ++
  [30, 40, 51, 45, 33, 48] ++
  [44, 49, 39, 56, 34, 53] ++
  [46, 42, 50, 36, 29, 32]

/-- Table `E`, the expansion permutation (R67), in reading order. -/
def tableE : PermTable :=
  [32, 1, 2, 3, 4, 5] ++
  [4, 5, 6, 7, 8, 9] ++
  [8, 9, 10, 11, 12, 13] ++
  [12, 13, 14, 15, 16, 17] ++
  [16, 17, 18, 19, 20, 21] ++
  [20, 21, 22, 23, 24, 25] ++
  [24, 25, 26, 27, 28, 29] ++
  [28, 29, 30, 31, 32, 1]

/-- Table `P`, the round-output permutation (R68), in reading order. -/
def tableP : PermTable :=
  [16, 7, 20, 21] ++
  [29, 12, 28, 17] ++
  [1, 15, 23, 26] ++
  [5, 18, 31, 10] ++
  [2, 8, 24, 14] ++
  [32, 27, 3, 9] ++
  [19, 13, 30, 6] ++
  [22, 11, 4, 25]

/-- The shift schedule (R69). -/
def tableShift : List Nat :=
  [1, 1, 2, 2, 2, 2, 2, 2, 1, 2, 2, 2, 2, 2, 2, 1]

/-- S-box 0, line `row`, entry `column` (R70, R71). -/
def tableS0 : List Nat :=
  [14, 4, 13, 1, 2, 15, 11, 8, 3, 10, 6, 12, 5, 9, 0, 7] ++
  [0, 15, 7, 4, 14, 2, 13, 1, 10, 6, 12, 11, 9, 5, 3, 8] ++
  [4, 1, 14, 8, 13, 6, 2, 11, 15, 12, 9, 7, 3, 10, 5, 0] ++
  [15, 12, 8, 2, 4, 9, 1, 7, 5, 11, 3, 14, 10, 0, 6, 13]

/-- S-box 1, line `row`, entry `column` (R70, R72). -/
def tableS1 : List Nat :=
  [15, 1, 8, 14, 6, 11, 3, 4, 9, 7, 2, 13, 12, 0, 5, 10] ++
  [3, 13, 4, 7, 15, 2, 8, 14, 12, 0, 1, 10, 6, 9, 11, 5] ++
  [0, 14, 7, 11, 10, 4, 13, 1, 5, 8, 12, 6, 9, 3, 2, 15] ++
  [13, 8, 10, 1, 3, 15, 4, 2, 11, 6, 7, 12, 0, 5, 14, 9]

/-- S-box 2, line `row`, entry `column` (R70, R73). -/
def tableS2 : List Nat :=
  [10, 0, 9, 14, 6, 3, 15, 5, 1, 13, 12, 7, 11, 4, 2, 8] ++
  [13, 7, 0, 9, 3, 4, 6, 10, 2, 8, 5, 14, 12, 11, 15, 1] ++
  [13, 6, 4, 9, 8, 15, 3, 0, 11, 1, 2, 12, 5, 10, 14, 7] ++
  [1, 10, 13, 0, 6, 9, 8, 7, 4, 15, 14, 3, 11, 5, 2, 12]

/-- S-box 3, line `row`, entry `column` (R70, R74). -/
def tableS3 : List Nat :=
  [7, 13, 14, 3, 0, 6, 9, 10, 1, 2, 8, 5, 11, 12, 4, 15] ++
  [13, 8, 11, 5, 6, 15, 0, 3, 4, 7, 2, 12, 1, 10, 14, 9] ++
  [10, 6, 9, 0, 12, 11, 7, 13, 15, 1, 3, 14, 5, 2, 8, 4] ++
  [3, 15, 0, 6, 10, 1, 13, 8, 9, 4, 5, 11, 12, 7, 2, 14]

/-- S-box 4, line `row`, entry `column` (R70, R75). -/
def tableS4 : List Nat :=
  [2, 12, 4, 1, 7, 10, 11, 6, 8, 5, 3, 15, 13, 0, 14, 9] ++
  [14, 11, 2, 12, 4, 7, 13, 1, 5, 0, 15, 10, 3, 9, 8, 6] ++
  [4, 2, 1, 11, 10, 13, 7, 8, 15, 9, 12, 5, 6, 3, 0, 14] ++
  [11, 8, 12, 7, 1, 14, 2, 13, 6, 15, 0, 9, 10, 4, 5, 3]

/-- S-box 5, line `row`, entry `column` (R70, R76). -/
def tableS5 : List Nat :=
  [12, 1, 10, 15, 9, 2, 6, 8, 0, 13, 3, 4, 14, 7, 5, 11] ++
  [10, 15, 4, 2, 7, 12, 9, 5, 6, 1, 13, 14, 0, 11, 3, 8] ++
  [9, 14, 15, 5, 2, 8, 12, 3, 7, 0, 4, 10, 1, 13, 11, 6] ++
  [4, 3, 2, 12, 9, 5, 15, 10, 11, 14, 1, 7, 6, 0, 8, 13]

/-- S-box 6, line `row`, entry `column` (R70, R77). -/
def tableS6 : List Nat :=
  [4, 11, 2, 14, 15, 0, 8, 13, 3, 12, 9, 7, 5, 10, 6, 1] ++
  [13, 0, 11, 7, 4, 9, 1, 10, 14, 3, 5, 12, 2, 15, 8, 6] ++
  [1, 4, 11, 13, 12, 3, 7, 14, 10, 15, 6, 8, 0, 5, 9, 2] ++
  [6, 11, 13, 8, 1, 4, 10, 7, 9, 5, 0, 15, 14, 2, 3, 12]

/-- S-box 7, line `row`, entry `column` (R70, R78). -/
def tableS7 : List Nat :=
  [13, 2, 8, 4, 6, 15, 11, 1, 10, 9, 3, 14, 5, 0, 12, 7] ++
  [1, 15, 13, 8, 10, 3, 7, 4, 12, 5, 6, 11, 0, 14, 9, 2] ++
  [7, 11, 4, 1, 9, 12, 14, 2, 0, 6, 10, 13, 15, 3, 5, 8] ++
  [2, 1, 14, 7, 4, 10, 8, 13, 15, 12, 9, 0, 3, 5, 6, 11]

/-- The table argument of the permutation LUT ROM (R60, R62). -/
inductive TableName where
  | ip | fp | pc1 | pc2 | e | p
  deriving DecidableEq, Repr

/-- The contents of one table of `PLUT` (R63 to R68). -/
def TableName.table : TableName → PermTable
  | .ip => tableIp
  | .fp => tableFp
  | .pc1 => tablePc1
  | .pc2 => tablePc2
  | .e => tableE
  | .p => tableP

/-- `RomRead(PLUT, (t, i))`, `1 <= i <= len(t)`; "no other address exists" (R62). -/
def romReadPlut (t : TableName) (i : Nat) : Option Nat :=
  if i = 0 then none else t.table[i - 1]?

/-- `RomRead(SHROM, i)`, `i` in `1..16` (R69). -/
def romReadShrom (i : Nat) : Option Nat :=
  if i = 0 then none else tableShift[i - 1]?

/-- The eight boxes of `SROM`, box `j` (R70 to R78). -/
def sboxTable (j : BitVec 3) : List Nat :=
  if j = 0#3 then tableS0
  else if j = 1#3 then tableS1
  else if j = 2#3 then tableS2
  else if j = 3#3 then tableS3
  else if j = 4#3 then tableS4
  else if j = 5#3 then tableS5
  else if j = 6#3 then tableS6
  else tableS7

/-- `RomRead(SROM, (j, a)) = S[j][a]`: all 512 addresses exist (R70). -/
def romReadSrom (j : BitVec 3) (a : BitVec 6) : BitVec 4 :=
  BitVec.ofNat 4 ((sboxTable j).getD a.toNat 0)

/-- A permutation table of a stated length with every entry in `1..64` (R10, R212). -/
def permTableWf (len : Nat) (t : PermTable) : Bool :=
  t.length == len && t.all fun p => decide (1 ≤ p) && decide (p ≤ 64)

/-- 64 entries, each in `0..15` (R212, 92_eei_decisions.md D23). -/
def sboxWf (t : List Nat) : Bool := t.length == 64 && t.all fun v => decide (v ≤ 15)

/-- The static check of fault code 0: the table defect of R212, extended by D23 to the S-boxes and the shift schedule. -/
def tablesWf : Bool :=
  permTableWf 64 tableIp && permTableWf 64 tableFp && permTableWf 56 tablePc1 && permTableWf 48 tablePc2 &&
  permTableWf 48 tableE && permTableWf 32 tableP &&
  (tableShift.length == 16 && tableShift.all fun n => n == 1 || n == 2) &&
  (sboxWf tableS0 && sboxWf tableS1 && sboxWf tableS2 && sboxWf tableS3 &&
   sboxWf tableS4 && sboxWf tableS5 && sboxWf tableS6 && sboxWf tableS7)

end Sys2Proof.Machine
end

