-- ==== Sys2Proof/Machine/Datapath.lean ====
section
/-! DEFINITION. The combinational units and the functions computed: the permutation unit (41_permutation_unit.md), the rotator and
`generate_keys` (42_key_schedule.md), the round function (43_round_function.md), `encrypt` (44_pipeline_and_host.md) and `DES`
(00_scope.md R2). Everything here is total; what lies outside a rule's domain is never formed (log 16). -/

namespace Sys2Proof.Machine

/-- `permute(value, T)`: output bit `i` is input bit `T[i]`, left-aligned, zero past the table's length (R130). -/
def permute (value : Word) (t : PermTable) : Word := ofBits (t.map (bit value))

/-- `rotl28(x, n)`, `n` in {1, 2}: with `v = top_28(x)`, `la_28(((v * 2^n) mod 2^28) or floor(v / 2^(28-n)))` (R152). -/
def rotl28 (x : Word) (n : Nat) : Word :=
  la ((top 28 x <<< n) ||| (top 28 x >>> (28 - n)))

/-- `SHIFT[i]`, `i` in `1..16` (R69, R154). -/
def shiftAmount (i : Nat) : Nat := (romReadShrom i).getD 0

/-- `ROTSEL = SHIFT[i] - 1` (30_encoding.md R106). -/
def rotSelect (i : Nat) : BitVec 1 := BitVec.ofNat 1 (shiftAmount i - 1)

/-- Both halves rotated by one amount, "the same `n` for `C` and for `D`" (R154). -/
def rotateHalves (cd : Word × Word) (n : Nat) : Word × Word := (rotl28 cd.1 n, rotl28 cd.2 n)

/-- `(C0, D0)` of a key (R157). -/
def keyHalves (key : Word) : Word × Word := split56 (permute key tablePc1)

/-- `(Ci, Di)`: the halves after `i` rounds (R157). -/
def keyHalvesAfter (key : Word) (i : Nat) : Word × Word := (tableShift.take i).foldl rotateHalves (keyHalves key)

/-- `K_i = permute(join56(Ci, Di), PC2)`, `i` in `1..16` (R157). -/
def roundKey (key : Word) (i : Nat) : Word :=
  permute (join56 (keyHalvesAfter key i).1 (keyHalvesAfter key i).2) tablePc2

/-- `generate_keys(key) = [K1, ..., K16]`, round 1 first: entry `i` of the vector is `K_(i+1)` (R157). -/
def generateKeys (key : Word) : Vector Word 16 := Vector.ofFn fun i => roundKey key (i.val + 1)

/-- `SBOXj(g)`: lane `j` reads box `j` at `SBOXADDR(g)` (R175). -/
def sboxLane (j : BitVec 3) (g : BitVec 6) : BitVec 4 := romReadSrom j (sboxAddr g)

/-- `SBOXARRAY(x)`: eight independent lanes, `s_0` most significant, left-aligned (R176). -/
def sboxArray (x : Word) : Word :=
  la (sboxLane 0 (group x 0) ++ sboxLane 1 (group x 1) ++ sboxLane 2 (group x 2) ++ sboxLane 3 (group x 3) ++
    sboxLane 4 (group x 4) ++ sboxLane 5 (group x 5) ++ sboxLane 6 (group x 6) ++ sboxLane 7 (group x 7))

/-- `EXPAND(half)` (R171). -/
def expand (half : Word) : Word := permute half tableE

/-- `POUT(y)` (R177). -/
def pout (y : Word) : Word := permute y tableP

/-- `f(half, subkey)`: `EXPAND`, `KEYMIX`, `SBOXARRAY`, `POUT` (R170, R179). -/
def roundFunction (half subkey : Word) : Word := pout (sboxArray (keymix (expand half) subkey))

/-- One Feistel round: `L_i = R_(i-1)`, `R_i = L_(i-1) xor f(R_(i-1), K_i)` (R192, R194). -/
def feistel (lr : Word × Word) (k : Word) : Word × Word := (lr.2, lr.1 ^^^ roundFunction lr.2 k)

/-- `(L_0, R_0)` of a block (R194). -/
def blockHalves (block : Word) : Word × Word := split64 (permute block tableIp)

/-- `(L_i, R_i)`: the halves after `i` rounds (R194). -/
def blockHalvesAfter (block : Word) (keys : Vector Word 16) (i : Nat) : Word × Word :=
  (keys.toList.take i).foldl feistel (blockHalves block)

/-- `encrypt(block, round_keys)`: the pre-output word is `R_16` then `L_16` (R193, R194). -/
def encrypt (block : Word) (keys : Vector Word 16) : Word :=
  permute (join64 (blockHalvesAfter block keys 16).2 (blockHalvesAfter block keys 16).1) tableFp

/-- `DES(key, block) = encrypt(block, generate_keys(key))` (00_scope.md R2). -/
def des (key block : Word) : Word := encrypt block (generateKeys key)

end Sys2Proof.Machine
end

