-- ==== Sys2Proof/Config.lean ====
section
/-! DEFINITION. What is fixed for a machine, and the open parameter `RESET_DATA` (00_scope.md R13; 92_eei_decisions.md,
open parameters). `STEP_TIME` and `PIN_PROTOCOL` are below the model and not taken (log 20). -/

namespace Sys2Proof

/-- One draw of `RESET_DATA`: the storage bits of the data registers after a reset (10_state.md R37; 70_reset_and_hazards.md
R241). The widths are the registers' own, so the hardwired low bits are zero whatever the draw (R21). -/
structure ResetData where
  key  : Word
  din  : Word
  dout : Word
  l    : BitVec 32
  r    : BitVec 32
  c    : BitVec 28
  d    : BitVec 28
  rk   : Vector (BitVec 48) 16
  deriving DecidableEq, Repr

/-- The number of rounds, and of round keys (R13). -/
abbrev Config.rounds : Nat := 16

/-- DESIGN CHOICE (log 5, unsafe): the draw that `State.reset` uses. The spec leaves every one of these bits open; the reset
EVENT takes its draw as an argument. -/
def Config.resetData : ResetData :=
  { key := 0, din := 0, dout := 0, l := 0, r := 0, c := 0, d := 0, rk := Vector.replicate 16 0#48 }

end Sys2Proof
end

