-- ==== Sys2Proof/Machine/State.lean ====
section
/-! DEFINITION. The state of one engine instance (10_state.md R20), the actions to come, the reasons to stop, and reset. -/

namespace Sys2Proof.Machine

/-- One atomic action of an execution: "a host transaction, an engine step, or the reset event" (44_pipeline_and_host.md R198), and
the model's own bench actions, which use one combinational unit by itself and change no engine register (log 4). -/
inductive Action where
  /-- A host transaction: the 6-bit header `kind ‖ idx` and the write data (30_encoding.md R100). -/
  | host (header : BitVec 6) (data : Word)
  /-- The engine's turn: its one enabled step, or nothing while `PHASE = IDLE` (R198; log 2). -/
  | engine
  /-- The reset event, with its draw of `RESET_DATA` (70_reset_and_hazards.md R240, R241). -/
  | reset (data : ResetData)
  /-- MODEL's own: the permutation unit with a select and a Word on its input (41_permutation_unit.md R131; log 4). -/
  | usePermutationUnit (tsel : BitVec 3) (value : Word)
  /-- MODEL's own: the rotator with a select and a Word on its input (42_key_schedule.md R152; log 4). -/
  | useRotator (rotsel : BitVec 1) (x : Word)
  /-- MODEL's own: the S-box ROM array at an address (43_round_function.md R175; log 4). -/
  | useSboxRom (addr : BitVec 9)
  deriving DecidableEq, Repr

/-- "The complete state of one engine instance is the following, and nothing else" (R20), and two fields of the model's own.
A register narrower than 64 bits holds its storage bits only: "bits `{N+1..64}` are hardwired to zero", "Only bits `{1..N}` are
storage" (R21); `State.lWord` and its like read it as a Word. -/
structure State where
  /-- `KEY`, 64 bits (R23). -/
  key     : Word
  /-- `DIN`, 64 bits (R24). -/
  din     : Word
  /-- `DOUT`, 64 bits (R25). -/
  dout    : Word
  /-- `L`, bits `{1..32}` (R26). -/
  l       : BitVec 32
  /-- `R`, bits `{1..32}` (R26). -/
  r       : BitVec 32
  /-- `C`, bits `{1..28}` (R27). -/
  c       : BitVec 28
  /-- `D`, bits `{1..28}` (R27). -/
  d       : BitVec 28
  /-- `RK[1..16]`, bits `{1..48}` each; entry `i` of the vector is `RK[i+1]` (R27). -/
  rk      : Vector (BitVec 48) 16
  /-- `PHASE`: IDLE 0, KS 1, ENC 2 (R30). -/
  phase   : BitVec 2
  /-- `RND`, the rounds completed (R31). -/
  rnd     : BitVec 5
  /-- `KVALID` (R32). -/
  kvalid  : Bool
  /-- `DVALID` (R33). -/
  dvalid  : Bool
  /-- `E_NOKEY` (R34). -/
  eNokey  : Bool
  /-- `E_BUSY` (R34). -/
  eBusy   : Bool
  /-- `E_ILLCMD` (R34). -/
  eIllcmd : Bool
  /-- `E_ACC` (R34). -/
  eAcc    : Bool
  /-- MODEL's own: what the last action put out, the Word a `HostRead` returned or a unit's output (log 3). -/
  returned : Option Word
  /-- MODEL's own: the actions still to come, the next one first (log 1). -/
  pending : List Action
  deriving DecidableEq, Repr

/-- `PHASE = IDLE` (R30). -/
abbrev phaseIdle : BitVec 2 := 0#2
/-- `PHASE = KS` (R30). -/
abbrev phaseKs : BitVec 2 := 1#2
/-- `PHASE = ENC` (R30). -/
abbrev phaseEnc : BitVec 2 := 2#2

/-- Why the machine stops. Both are the model's names for "no step exists"; no claim can be proved of what follows. -/
inductive Fault where
  /-- The engine's turn comes in a `SEQ` code that no rule produces: "A model gives them no step (the engine is stuck there)" (R108).
  Raised by the step; safe: no run from reset reaches it (log 11). -/
  | sequencerStuck
  /-- A micro-operation is performed where `SEQ` does not select it, which no execution does (R36, R103, R198). Raised by the meanings
  of `KS_ROUND`, `ENC_ROUND` and `ENC_FINAL`; safe: the step never asks for it (log 10). -/
  | microOpNotSelected
  deriving DecidableEq, Repr

/-- What the model has no meaning for. -/
inductive Refusal where
  /-- An instruction without a meaning, by its mnemonic. No arm answers this. -/
  | notModelled (mnemonic : String)
  /-- `TSEL` `110` or `111`: "never issued and have no defined output" (R131). Raised by the step; safe (log 12). -/
  | undefinedTableSelect
  deriving DecidableEq, Repr

/-- The state after the reset event with the draw `d`: control state and flags as R37 and R241 say, the data registers drawn. -/
def State.resetWith (d : ResetData) : State :=
  { key := d.key, din := d.din, dout := d.dout, l := d.l, r := d.r, c := d.c, d := d.d, rk := d.rk,
    phase := phaseIdle, rnd := 0#5, kvalid := false, dvalid := false,
    eNokey := false, eBusy := false, eIllcmd := false, eAcc := false, returned := none, pending := [] }

/-- The machine right after reset; its data registers are the draw the model names (log 5). -/
def State.reset : State := State.resetWith Config.resetData

end Sys2Proof.Machine
end

