-- ==== Sys2Proof/Machine/Flags.lean ====
section
/-! DEFINITION. The status flags and the views made of them: the four sticky error flags, `STATUS` and `SEQ` (10_state.md R29 to R36).
"There are no other flags, condition codes or predicates: no carry, zero, sign or overflow flag exists" (R34). -/

namespace Sys2Proof.Machine

/-- The four error flags, fault codes 1 to 4 (60_exceptions.md R211). -/
inductive ErrorFlag where
  | nokey | busy | illcmd | acc
  deriving DecidableEq, Repr

/-- The fault's code (R211). -/
def ErrorFlag.code : ErrorFlag → Nat
  | .nokey => 1
  | .busy => 2
  | .illcmd => 3
  | .acc => 4

/-- The flag's bit in `STATUS` (R29). -/
def ErrorFlag.statusBit : ErrorFlag → Nat
  | .nokey => 9
  | .busy => 10
  | .illcmd => 11
  | .acc => 12

/-- The flag's value. -/
def State.errorFlag (s : State) : ErrorFlag → Bool
  | .nokey => s.eNokey
  | .busy => s.eBusy
  | .illcmd => s.eIllcmd
  | .acc => s.eAcc

/-- The sequencer word `SEQ = PHASE ‖ RND` (R36). -/
def State.seq (s : State) : BitVec 7 := s.phase ++ s.rnd

/-- The `STATUS` view: `RND` `[4:0]`, `PHASE` `[6:5]`, `KVALID` 7, `DVALID` 8, `E_NOKEY` 9, `E_BUSY` 10, `E_ILLCMD` 11, `E_ACC` 12, the
rest zero (R29). -/
def State.status (s : State) : Word :=
  0#51 ++ BitVec.ofBool s.eAcc ++ BitVec.ofBool s.eIllcmd ++ BitVec.ofBool s.eBusy ++ BitVec.ofBool s.eNokey ++
    BitVec.ofBool s.dvalid ++ BitVec.ofBool s.kvalid ++ s.phase ++ s.rnd

end Sys2Proof.Machine
end

