-- ==== Sys2Proof/Machine/Ops.lean ====
section
/-! DEFINITION. The named operations over the registers, the one operation that raises a fault, and the operations that more than one
instruction shares. -/

namespace Sys2Proof.Machine

/-! ### Register reads, as Words -/

/-- `L` as the host and the datapath read it, left-aligned (10_state.md R21, R26). -/
def State.lWord (s : State) : Word := la s.l
/-- `R`, left-aligned (R21, R26). -/
def State.rWord (s : State) : Word := la s.r
/-- `C`, left-aligned (R21, R27). -/
def State.cWord (s : State) : Word := la s.c
/-- `D`, left-aligned (R21, R27). -/
def State.dWord (s : State) : Word := la s.d
/-- `RK[r+1]`, left-aligned (R21, R27; 20_memory.md R80). -/
def State.rkWord (s : State) (r : BitVec 4) : Word := la (s.rk[r.toNat]'(r.isLt))

/-! ### Register writes. Of a Word written to a narrow register only the storage bits land (R21). -/

/-- `KEY <- v` (R23). -/
def State.writeKey (s : State) (v : Word) : State := { s with key := v }
/-- `DIN <- v` (R24). -/
def State.writeDin (s : State) (v : Word) : State := { s with din := v }
/-- `DOUT <- v` (R25). -/
def State.writeDout (s : State) (v : Word) : State := { s with dout := v }
/-- `L <- l ; R <- r`, together (R26). -/
def State.writeLR (s : State) (l r : Word) : State := { s with l := top 32 l, r := top 32 r }
/-- `C <- c ; D <- d`, together (R27). -/
def State.writeCD (s : State) (c d : Word) : State := { s with c := top 28 c, d := top 28 d }
/-- `RK[r+1] <- v` (R27; 20_memory.md R80). -/
def State.writeRk (s : State) (r : BitVec 4) (v : Word) : State :=
  { s with rk := s.rk.set r.toNat (top 48 v) (r.isLt) }
/-- `(PHASE, RND) <- (p, n)` (R30, R31). -/
def State.setSeq (s : State) (p : BitVec 2) (n : BitVec 5) : State := { s with phase := p, rnd := n }
/-- `KVALID <- b` (R32). -/
def State.setKvalid (s : State) (b : Bool) : State := { s with kvalid := b }
/-- `DVALID <- b` (R33). -/
def State.setDvalid (s : State) (b : Bool) : State := { s with dvalid := b }
/-- The action puts `v` out (log 3). -/
def State.answer (s : State) (v : Word) : State := { s with returned := some v }
/-- The action in front is taken: the rest is still to come, and nothing has been put out yet (log 1, log 3). -/
def State.advance (s : State) (rest : List Action) : State := { s with pending := rest, returned := none }

/-! ### Taking a fault -/

/-- `flag E_x`, the whole effect of a fault: "`E_x <- 1`, and no other state changes" (60_exceptions.md R214). There is no trap entry
and no return (R220, R221). -/
def State.raise (s : State) : ErrorFlag → State
  | .nokey => { s with eNokey := true }
  | .busy => { s with eBusy := true }
  | .illcmd => { s with eIllcmd := true }
  | .acc => { s with eAcc := true }

/-! ### Accepting a command -/

/-- `KS_INIT` (42_key_schedule.md R153). -/
def ksInit (s : State) : State :=
  ((s.writeCD (keyHalves s.key).1 (keyHalves s.key).2).setSeq phaseKs 0#5).setKvalid false

/-- `ENC_INIT` (44_pipeline_and_host.md R191). -/
def encInit (s : State) : State :=
  ((s.writeLR (blockHalves s.din).1 (blockHalves s.din).2).setSeq phaseEnc 0#5).setDvalid false

/-- The command decoder on the command word `v[7:0]`, in the order of 30_encoding.md R101 and 60_exceptions.md R218. -/
def commandDecoder (opc : BitVec 8) (s : State) : State :=
  if s.phase ≠ phaseIdle then s.raise .busy
  else if opc = 0x01#8 then ksInit s
  else if opc = 0x02#8 then
    if s.kvalid = true then encInit s else s.raise .nokey
  else s.raise .illcmd

/-! ### The host register map (10_state.md R35) -/

/-- The value of a readable register, `none` where the map allows no read (R35, R197). -/
def State.hostReadable (s : State) (idx : BitVec 5) : Option Word :=
  if idx = 0x00#5 then some s.key
  else if idx = 0x01#5 then some s.din
  else if idx = 0x02#5 then some s.dout
  else if idx = 0x04#5 then some s.status
  else if idx = 0x08#5 then some s.lWord
  else if idx = 0x09#5 then some s.rWord
  else if idx = 0x0A#5 then some s.cWord
  else if idx = 0x0B#5 then some s.dWord
  else if idx.getLsbD 4 then some (s.rkWord (idx.extractLsb' 0 4))
  else none

end Sys2Proof.Machine
end

