-- ==== Sys2Proof/Machine/HostPort.lean ====
section
/-! DEFINITION. The meanings of the two host transactions and the two commands (44_pipeline_and_host.md section 4, R195;
42_key_schedule.md R156). A refusal of the spec is a next state with one flag set (60_exceptions.md R211, R214). -/

namespace Sys2Proof.Machine

/-- `HostRead(idx)`: the register's value; where the map allows no read, `flag E_ACC ; return 0` (R197). -/
def execHostRead (idx : BitVec 5) (s : State) : Host.Outcome State Fault Refusal :=
  match s.hostReadable idx with
  | some v => .next (s.answer v)
  | none => .next ((s.raise .acc).answer 0#64)

/-- `HostWrite(idx, v)`: `KEY`, `DIN`, the command decoder on `v[7:0]`, or `flag E_ACC` (R196). -/
def execHostWrite (idx : BitVec 5) (v : Word) (s : State) : Host.Outcome State Fault Refusal :=
  .next
    (if idx = 0x00#5 then s.writeKey v
     else if idx = 0x01#5 then s.writeDin v
     else if idx = 0x03#5 then commandDecoder (v.extractLsb' 0 8) s
     else s.raise .acc)

/-- `KEYGEN`: `flag E_BUSY` while busy, else `KS_INIT` (R156). -/
def execKeygen (s : State) : Host.Outcome State Fault Refusal :=
  .next (if s.phase ≠ phaseIdle then s.raise .busy else ksInit s)

/-- `ENCRYPT`: `flag E_BUSY` while busy, `flag E_NOKEY` without a schedule, else `ENC_INIT` (R195). -/
def execEncrypt (s : State) : Host.Outcome State Fault Refusal :=
  .next
    (if s.phase ≠ phaseIdle then s.raise .busy
     else if s.kvalid = false then s.raise .nokey
     else encInit s)

end Sys2Proof.Machine
end

