-- ==== Sys2Proof/Machine/KeySchedule.lean ====
section
/-! DEFINITION. The key schedule generator's micro-operation and the rotator's two rows (42_key_schedule.md). -/

namespace Sys2Proof.Machine

/-- The effect of `KS_ROUND` for round `i = r + 1`: rotate, select the round key of the rotated halves, count, and finish in round 16
(R155). -/
def ksRoundEffect (r : BitVec 4) (s : State) : State :=
  let cd := rotateHalves (s.cWord, s.dWord) (shiftAmount (r.toNat + 1))
  let i : BitVec 5 := r.setWidth 5 + 1#5
  let t := ((s.writeCD cd.1 cd.2).writeRk r (permute (join56 cd.1 cd.2) tablePc2)).setSeq s.phase i
  if i = 16#5 then (t.setSeq phaseIdle i).setKvalid true else t

/-- `KS_ROUND`, selected by `SEQ = 01 0rrrr` (R155; 30_encoding.md R103; log 10). -/
def execKsRound (r : BitVec 4) (s : State) : Host.Outcome State Fault Refusal :=
  if s.seq = 0b010#3 ++ r then .next (ksRoundEffect r s) else .fault .microOpNotSelected

/-- `ROTL28.1` on the Word at the rotator's input (R152; log 4). -/
def execRotl28By1 (x : Word) (s : State) : Host.Outcome State Fault Refusal := .next (s.answer (rotl28 x 1))

/-- `ROTL28.2` on the Word at the rotator's input (R152; log 4). -/
def execRotl28By2 (x : Word) (s : State) : Host.Outcome State Fault Refusal := .next (s.answer (rotl28 x 2))

end Sys2Proof.Machine
end

