-- ==== Sys2Proof/Machine/PermutationUnit.lean ====
section
/-! DEFINITION. The permutation unit's six rows (41_permutation_unit.md R131 to R137): the unit's output for a Word on its input. The
unit "holds nothing between uses" (R131), so each changes no engine register (log 4). -/

namespace Sys2Proof.Machine

/-- `PERM.IP` (R132). -/
def execPermIp (v : Word) (s : State) : Host.Outcome State Fault Refusal := .next (s.answer (permute v tableIp))

/-- `PERM.FP` (R133). -/
def execPermFp (v : Word) (s : State) : Host.Outcome State Fault Refusal := .next (s.answer (permute v tableFp))

/-- `PERM.PC1` (R134). -/
def execPermPc1 (v : Word) (s : State) : Host.Outcome State Fault Refusal := .next (s.answer (permute v tablePc1))

/-- `PERM.PC2` (R135). -/
def execPermPc2 (v : Word) (s : State) : Host.Outcome State Fault Refusal := .next (s.answer (permute v tablePc2))

/-- `PERM.E` (R136). -/
def execPermE (v : Word) (s : State) : Host.Outcome State Fault Refusal := .next (s.answer (permute v tableE))

/-- `PERM.P` (R137). -/
def execPermP (v : Word) (s : State) : Host.Outcome State Fault Refusal := .next (s.answer (permute v tableP))

end Sys2Proof.Machine
end

