-- ==== Sys2Proof/Machine/Pipeline.lean ====
section
/-! DEFINITION. The encryption pipeline's two engine micro-operations (44_pipeline_and_host.md section 2). -/

namespace Sys2Proof.Machine

/-- The effect of `ENC_ROUND` for round `i = r + 1`, both right-hand sides from the old `L`, `R` (R192). -/
def encRoundEffect (r : BitVec 4) (s : State) : State :=
  let lr := feistel (s.lWord, s.rWord) (s.rkWord r)
  (s.writeLR lr.1 lr.2).setSeq s.phase (r.setWidth 5 + 1#5)

/-- `ENC_ROUND`, selected by `SEQ = 10 0rrrr` (R192; 30_encoding.md R103; log 10). -/
def execEncRound (r : BitVec 4) (s : State) : Host.Outcome State Fault Refusal :=
  if s.seq = 0b100#3 ++ r then .next (encRoundEffect r s) else .fault .microOpNotSelected

/-- The effect of `ENC_FINAL`: `pre = join64(R, L)`, "R_16 in the upper 32 bits, L_16 in the lower 32 bits" (R193). -/
def encFinalEffect (s : State) : State :=
  ((s.writeDout (permute (join64 s.rWord s.lWord) tableFp)).setDvalid true).setSeq phaseIdle s.rnd

/-- `ENC_FINAL`, selected by `SEQ = 10 10000` (R193; 30_encoding.md R103; log 10). -/
def execEncFinal (s : State) : Host.Outcome State Fault Refusal :=
  if s.seq = 0b1010000#7 then .next (encFinalEffect s) else .fault .microOpNotSelected

end Sys2Proof.Machine
end

