-- ==== Sys2Proof/Machine/RoundFunction.lean ====
section
/-! DEFINITION. The eight lanes of the S-box ROM array (43_round_function.md R175; 30_encoding.md R105): the 4-bit entry at
`BOX ‖ ROW ‖ COL`, put out with zeros above it (log 13). The array holds nothing, so each changes no engine register (log 4). -/

namespace Sys2Proof.Machine

/-- The ROM output for box `j` at `row*16 + col` (R105, R174, R175). -/
def sboxOutput (j : BitVec 3) (row : BitVec 2) (col : BitVec 4) : Word :=
  (romReadSrom j (row ++ col)).setWidth 64

/-- `SBOX0` (R175, R71). -/
def execSbox0 (row : BitVec 2) (col : BitVec 4) (s : State) : Host.Outcome State Fault Refusal :=
  .next (s.answer (sboxOutput 0 row col))

/-- `SBOX1` (R175, R72). -/
def execSbox1 (row : BitVec 2) (col : BitVec 4) (s : State) : Host.Outcome State Fault Refusal :=
  .next (s.answer (sboxOutput 1 row col))

/-- `SBOX2` (R175, R73). -/
def execSbox2 (row : BitVec 2) (col : BitVec 4) (s : State) : Host.Outcome State Fault Refusal :=
  .next (s.answer (sboxOutput 2 row col))

/-- `SBOX3` (R175, R74). -/
def execSbox3 (row : BitVec 2) (col : BitVec 4) (s : State) : Host.Outcome State Fault Refusal :=
  .next (s.answer (sboxOutput 3 row col))

/-- `SBOX4` (R175, R75). -/
def execSbox4 (row : BitVec 2) (col : BitVec 4) (s : State) : Host.Outcome State Fault Refusal :=
  .next (s.answer (sboxOutput 4 row col))

/-- `SBOX5` (R175, R76). -/
def execSbox5 (row : BitVec 2) (col : BitVec 4) (s : State) : Host.Outcome State Fault Refusal :=
  .next (s.answer (sboxOutput 5 row col))

/-- `SBOX6` (R175, R77). -/
def execSbox6 (row : BitVec 2) (col : BitVec 4) (s : State) : Host.Outcome State Fault Refusal :=
  .next (s.answer (sboxOutput 6 row col))

/-- `SBOX7` (R175, R78). -/
def execSbox7 (row : BitVec 2) (col : BitVec 4) (s : State) : Host.Outcome State Fault Refusal :=
  .next (s.answer (sboxOutput 7 row col))

end Sys2Proof.Machine
end

