-- ==== Sys2Proof/Syntax.lean ====
section
/-! DEFINITION. The instructions: one constructor per row of opcode_table.json (30_encoding.md R109). -/

namespace Sys2Proof

/-- One constructor per row of the opcode table. What a row's encoding names as a field is an argument, and so is the
Word that a row's operand line puts beside the code (the write data of a transaction, the Word on a unit's input). -/
inductive Instr where
  /-- `HostRead(idx)`, header `0 ‖ idx` (R100, R197). -/
  | hostRead (idx : BitVec 5)
  /-- `HostWrite(idx, data)`, header `1 ‖ idx` with 64 data bits (R100, R196). -/
  | hostWrite (idx : BitVec 5) (data : Word)
  /-- Command word `0x01` (R101, R156). -/
  | keygen
  /-- Command word `0x02` (R101, R195). -/
  | encrypt
  /-- `SEQ = 01 0rrrr`: the key-schedule round `r + 1` (R103, R155). -/
  | ksRound (r : BitVec 4)
  /-- `SEQ = 10 0rrrr`: the encryption round `r + 1` (R103, R192). -/
  | encRound (r : BitVec 4)
  /-- `SEQ = 10 10000` (R103, R193). -/
  | encFinal
  /-- `TSEL = 000` with `value` on the permutation unit's data input (R104, R132). -/
  | permIp (value : Word)
  /-- `TSEL = 001` (R104, R133). -/
  | permFp (value : Word)
  /-- `TSEL = 010` (R104, R134). -/
  | permPc1 (value : Word)
  /-- `TSEL = 011` (R104, R135). -/
  | permPc2 (value : Word)
  /-- `TSEL = 100` (R104, R136). -/
  | permE (value : Word)
  /-- `TSEL = 101` (R104, R137). -/
  | permP (value : Word)
  /-- `ROTSEL = 0` with `x` on the rotator's input: rotate left by 1 (R106, R152). -/
  | rotl28By1 (x : Word)
  /-- `ROTSEL = 1`: rotate left by 2 (R106, R152). -/
  | rotl28By2 (x : Word)
  /-- S-box ROM address `000 rr cccc` (R105, R175). -/
  | sbox0 (row : BitVec 2) (col : BitVec 4)
  /-- S-box ROM address `001 rr cccc` (R105, R175). -/
  | sbox1 (row : BitVec 2) (col : BitVec 4)
  /-- S-box ROM address `010 rr cccc` (R105, R175). -/
  | sbox2 (row : BitVec 2) (col : BitVec 4)
  /-- S-box ROM address `011 rr cccc` (R105, R175). -/
  | sbox3 (row : BitVec 2) (col : BitVec 4)
  /-- S-box ROM address `100 rr cccc` (R105, R175). -/
  | sbox4 (row : BitVec 2) (col : BitVec 4)
  /-- S-box ROM address `101 rr cccc` (R105, R175). -/
  | sbox5 (row : BitVec 2) (col : BitVec 4)
  /-- S-box ROM address `110 rr cccc` (R105, R175). -/
  | sbox6 (row : BitVec 2) (col : BitVec 4)
  /-- S-box ROM address `111 rr cccc` (R105, R175). -/
  | sbox7 (row : BitVec 2) (col : BitVec 4)
  deriving DecidableEq, Repr

end Sys2Proof
end

