-- ==== Sys2Proof/Machine/Dispatch.lean ====
section
/-! DEFINITION. One arm per constructor of Instr. -/

namespace Sys2Proof.Machine

def exec (i : Instr) (s : State) : Host.Outcome State Fault Refusal :=
  match i with
  | .hostRead idx => Sys2Proof.Machine.execHostRead idx s
  | .hostWrite idx data => Sys2Proof.Machine.execHostWrite idx data s
  | .keygen => Sys2Proof.Machine.execKeygen s
  | .encrypt => Sys2Proof.Machine.execEncrypt s
  | .ksRound r => Sys2Proof.Machine.execKsRound r s
  | .encRound r => Sys2Proof.Machine.execEncRound r s
  | .encFinal => Sys2Proof.Machine.execEncFinal s
  | .permIp value => Sys2Proof.Machine.execPermIp value s
  | .permFp value => Sys2Proof.Machine.execPermFp value s
  | .permPc1 value => Sys2Proof.Machine.execPermPc1 value s
  | .permPc2 value => Sys2Proof.Machine.execPermPc2 value s
  | .permE value => Sys2Proof.Machine.execPermE value s
  | .permP value => Sys2Proof.Machine.execPermP value s
  | .rotl28By1 x => Sys2Proof.Machine.execRotl28By1 x s
  | .rotl28By2 x => Sys2Proof.Machine.execRotl28By2 x s
  | .sbox0 row col => Sys2Proof.Machine.execSbox0 row col s
  | .sbox1 row col => Sys2Proof.Machine.execSbox1 row col s
  | .sbox2 row col => Sys2Proof.Machine.execSbox2 row col s
  | .sbox3 row col => Sys2Proof.Machine.execSbox3 row col s
  | .sbox4 row col => Sys2Proof.Machine.execSbox4 row col s
  | .sbox5 row col => Sys2Proof.Machine.execSbox5 row col s
  | .sbox6 row col => Sys2Proof.Machine.execSbox6 row col s
  | .sbox7 row col => Sys2Proof.Machine.execSbox7 row col s

end Sys2Proof.Machine
end

