-- ==== Sys2Proof/Decode.lean ====
section
/-! DEFINITION. The six formats of 30_encoding.md, the decoder, the encoder, and the reading of a bare number of
opcode_table.json. -/

namespace Sys2Proof

/-- The six formats (R100 to R106). -/
inductive Format where
  | ht | cw | sq | ts | rs | sa
  deriving DecidableEq, Repr

/-- What stands on the inputs of the place that reads a code: the code, in the width of its format, and the Word beside it
where the row's operand line names one. Each format is read at a place of its own, so codes of different formats never
compete (log 8). -/
inductive Code where
  /-- Format `HT`: the 6-bit header `kind ‖ idx`, and the 64 write-data bits, which a read does not use (R100; log 7). -/
  | ht (header : BitVec 6) (data : Word)
  /-- Format `CW`: the 8-bit command word `OPC` (R101). -/
  | cw (opc : BitVec 8)
  /-- Format `SQ`: the 7-bit sequencer word `PHASE ‖ RND` (R103). -/
  | sq (seq : BitVec 7)
  /-- Format `TS`: the 3-bit table select, and the Word on the unit's data input (R104, R131). -/
  | ts (tsel : BitVec 3) (value : Word)
  /-- Format `RS`: the 1-bit rotate select, and the Word on the rotator's input (R106). -/
  | rs (rotsel : BitVec 1) (x : Word)
  /-- Format `SA`: the 9-bit S-box ROM address `BOX ‖ ROW ‖ COL` (R105). -/
  | sa (addr : BitVec 9)
  deriving DecidableEq, Repr

/-- The codes that are no row of the table, by name. -/
inductive DecodeError where
  /-- A command value other than `0x01`, `0x02` (R102). -/
  | reservedCommand (opc : BitVec 8)
  /-- `SEQ = 00 xxxxx`: "none: the engine has no enabled step" (R103). -/
  | idleSequencer
  /-- A `SEQ` value that is "never reached from reset" (R103, R108). -/
  | reservedSequencer (seq : BitVec 7)
  /-- `TSEL` `110` or `111` (R104, R108). -/
  | reservedTableSelect (tsel : BitVec 3)
  deriving DecidableEq, Repr

/-- R100: `kind` is bit 5 of the header, `idx` its low five bits. -/
def decodeHt (header : BitVec 6) (data : Word) : Instr :=
  if header.getLsbD 5 then .hostWrite (header.extractLsb' 0 5) data else .hostRead (header.extractLsb' 0 5)

/-- R101, R102. -/
def decodeCw (opc : BitVec 8) : Except DecodeError Instr :=
  if opc = 0x01#8 then .ok .keygen
  else if opc = 0x02#8 then .ok .encrypt
  else .error (.reservedCommand opc)

/-- R103: the three selected patterns, no step in `IDLE`, and the codes that no rule produces. -/
def decodeSq (seq : BitVec 7) : Except DecodeError Instr :=
  if seq.extractLsb' 5 2 = 0b00#2 then .error .idleSequencer
  else if seq.extractLsb' 4 3 = 0b010#3 then .ok (.ksRound (seq.extractLsb' 0 4))
  else if seq.extractLsb' 4 3 = 0b100#3 then .ok (.encRound (seq.extractLsb' 0 4))
  else if seq = 0b1010000#7 then .ok .encFinal
  else .error (.reservedSequencer seq)

/-- R104. -/
def decodeTs (tsel : BitVec 3) (value : Word) : Except DecodeError Instr :=
  if tsel = 0b000#3 then .ok (.permIp value)
  else if tsel = 0b001#3 then .ok (.permFp value)
  else if tsel = 0b010#3 then .ok (.permPc1 value)
  else if tsel = 0b011#3 then .ok (.permPc2 value)
  else if tsel = 0b100#3 then .ok (.permE value)
  else if tsel = 0b101#3 then .ok (.permP value)
  else .error (.reservedTableSelect tsel)

/-- R106. -/
def decodeRs (rotsel : BitVec 1) (x : Word) : Instr :=
  if rotsel = 0#1 then .rotl28By1 x else .rotl28By2 x

/-- R105: `BOX` is `[8:6]`, `ROW` is `[5:4]`, `COL` is `[3:0]`; all 512 addresses are valid. -/
def decodeSa (addr : BitVec 9) : Instr :=
  let row := addr.extractLsb' 4 2
  let col := addr.extractLsb' 0 4
  let box := addr.extractLsb' 6 3
  if box = 0#3 then .sbox0 row col
  else if box = 1#3 then .sbox1 row col
  else if box = 2#3 then .sbox2 row col
  else if box = 3#3 then .sbox3 row col
  else if box = 4#3 then .sbox4 row col
  else if box = 5#3 then .sbox5 row col
  else if box = 6#3 then .sbox6 row col
  else .sbox7 row col

/-- The decoder: total, every code either a row of the table or rejected by name. -/
def decode : Code → Except DecodeError Instr
  | .ht header data => .ok (decodeHt header data)
  | .cw opc => decodeCw opc
  | .sq seq => decodeSq seq
  | .ts tsel value => decodeTs tsel value
  | .rs rotsel x => .ok (decodeRs rotsel x)
  | .sa addr => .ok (decodeSa addr)

/-- The encoder, from the same tables (R100 to R106). A read presents zero data. -/
def encode : Instr → Code
  | .hostRead idx => .ht (0#1 ++ idx) 0
  | .hostWrite idx data => .ht (1#1 ++ idx) data
  | .keygen => .cw 0x01
  | .encrypt => .cw 0x02
  | .ksRound r => .sq (0b010#3 ++ r)
  | .encRound r => .sq (0b100#3 ++ r)
  | .encFinal => .sq 0b1010000
  | .permIp v => .ts 0b000 v
  | .permFp v => .ts 0b001 v
  | .permPc1 v => .ts 0b010 v
  | .permPc2 v => .ts 0b011 v
  | .permE v => .ts 0b100 v
  | .permP v => .ts 0b101 v
  | .rotl28By1 x => .rs 0 x
  | .rotl28By2 x => .rs 1 x
  | .sbox0 row col => .sa (0#3 ++ row ++ col)
  | .sbox1 row col => .sa (1#3 ++ row ++ col)
  | .sbox2 row col => .sa (2#3 ++ row ++ col)
  | .sbox3 row col => .sa (3#3 ++ row ++ col)
  | .sbox4 row col => .sa (4#3 ++ row ++ col)
  | .sbox5 row col => .sa (5#3 ++ row ++ col)
  | .sbox6 row col => .sa (6#3 ++ row ++ col)
  | .sbox7 row col => .sa (7#3 ++ row ++ col)

/-- The format a code is in. -/
def Code.format : Code → Format
  | .ht _ _ => .ht
  | .cw _ => .cw
  | .sq _ => .sq
  | .ts _ _ => .ts
  | .rs _ _ => .rs
  | .sa _ => .sa

/-- The bits of a code that opcode_table.json states `match` and `mask` on, as one number with bit 0 the least significant; of a
transaction, the header ("match and mask are stated on the 6-bit header kind‖idx only"). -/
def Code.number : Code → Nat
  | .ht header _ => header.toNat
  | .cw opc => opc.toNat
  | .sq seq => seq.toNat
  | .ts tsel _ => tsel.toNat
  | .rs rotsel _ => rotsel.toNat
  | .sa addr => addr.toNat

/-- One row of opcode_table.json: its format, its `mask` and its `match`. -/
structure TableRow where
  format  : Format
  mask    : Nat
  pattern : Nat
  deriving DecidableEq, Repr

/-- The row of opcode_table.json that an instruction stands for, its numbers as the table prints them. -/
def Instr.row : Instr → TableRow
  | .hostRead _ => ⟨.ht, 0x20, 0x00⟩
  | .hostWrite _ _ => ⟨.ht, 0x20, 0x20⟩
  | .keygen => ⟨.cw, 0xFF, 0x01⟩
  | .encrypt => ⟨.cw, 0xFF, 0x02⟩
  | .ksRound _ => ⟨.sq, 0x70, 0x20⟩
  | .encRound _ => ⟨.sq, 0x70, 0x40⟩
  | .encFinal => ⟨.sq, 0x7F, 0x50⟩
  | .permIp _ => ⟨.ts, 0x7, 0x0⟩
  | .permFp _ => ⟨.ts, 0x7, 0x1⟩
  | .permPc1 _ => ⟨.ts, 0x7, 0x2⟩
  | .permPc2 _ => ⟨.ts, 0x7, 0x3⟩
  | .permE _ => ⟨.ts, 0x7, 0x4⟩
  | .permP _ => ⟨.ts, 0x7, 0x5⟩
  | .rotl28By1 _ => ⟨.rs, 0x1, 0x0⟩
  | .rotl28By2 _ => ⟨.rs, 0x1, 0x1⟩
  | .sbox0 _ _ => ⟨.sa, 0x1C0, 0x000⟩
  | .sbox1 _ _ => ⟨.sa, 0x1C0, 0x040⟩
  | .sbox2 _ _ => ⟨.sa, 0x1C0, 0x080⟩
  | .sbox3 _ _ => ⟨.sa, 0x1C0, 0x0C0⟩
  | .sbox4 _ _ => ⟨.sa, 0x1C0, 0x100⟩
  | .sbox5 _ _ => ⟨.sa, 0x1C0, 0x140⟩
  | .sbox6 _ _ => ⟨.sa, 0x1C0, 0x180⟩
  | .sbox7 _ _ => ⟨.sa, 0x1C0, 0x1C0⟩

/-- A code matches a row: it is in the row's format and its masked bits are the row's pattern. -/
def TableRow.matches (t : TableRow) (c : Code) : Bool :=
  t.format == c.format && c.number &&& t.mask == t.pattern

/-- The code that a bare number of the opcode table stands for; bits above the row's are zero, and so is the operand Word.
DESIGN CHOICE (log 8): a number does not say its format. Widths that only one format has decide it: 1 `RS`, 3 `TS`, 6 and 70
or 72 `HT` (data bits from bit 6 up), 7 `SQ`, 9 and 16 `SA`. In one byte the formats meet, and this order decides: the commands `0x01`,
`0x02`; the table selects 3, 4, 5; the sequencer words of the three micro-operations; then host headers. -/
def codeOfTableNumber (nbits w : Nat) : Option Code :=
  if 2 ^ nbits ≤ w then none
  else match nbits with
  | 1 => some (.rs (BitVec.ofNat 1 w) 0)
  | 3 => some (.ts (BitVec.ofNat 3 w) 0)
  | 6 => some (.ht (BitVec.ofNat 6 w) 0)
  | 7 => some (.sq (BitVec.ofNat 7 w))
  | 8 =>
    if w = 0x01 ∨ w = 0x02 then some (.cw (BitVec.ofNat 8 w))
    else if w = 3 ∨ w = 4 ∨ w = 5 then some (.ts (BitVec.ofNat 3 w) 0)
    else if (0x20 ≤ w ∧ w ≤ 0x2F) ∨ (0x40 ≤ w ∧ w ≤ 0x50) then some (.sq (BitVec.ofNat 7 w))
    else if w < 0x40 then some (.ht (BitVec.ofNat 6 w) 0)
    else none
  | 9 => some (.sa (BitVec.ofNat 9 w))
  | 16 => if w < 512 then some (.sa (BitVec.ofNat 9 w)) else none
  | 70 => some (.ht (BitVec.ofNat 6 w) (BitVec.ofNat 64 (w / 64)))
  | 72 => if w < 2 ^ 70 then some (.ht (BitVec.ofNat 6 w) (BitVec.ofNat 64 (w / 64))) else none
  | _ => none

/-- The instruction the decoder reads from a bare number of the opcode table. -/
def decodeTableWord (nbits w : Nat) : Option Instr :=
  match codeOfTableNumber nbits w with
  | none => none
  | some code =>
    match decode code with
    | .ok i => some i
    | .error _ => none

end Sys2Proof
end

