-- ==== Sys2Proof/Machine/Fetch.lean ====
section
/-! DEFINITION. What the next step is about: the action in front of `pending` gives a code at its place, or is the reset event
(44_pipeline_and_host.md R198; log 1, log 2); and what a rejected code does. -/

namespace Sys2Proof.Machine

/-- What one step takes up. -/
inductive Turn where
  /-- A code stands at its place; the state is the one it runs in, the action taken off. -/
  | code (c : Code) (s : State)
  /-- The reset event: the state it leaves (70_reset_and_hazards.md R240). -/
  | event (s : State)
  deriving DecidableEq, Repr

/-- The engine's turn reads the sequencer word: "the micro-operation the step performs is a function of `SEQ` alone" (10_state.md R36). -/
def engineTurn (s : State) : Turn := .code (.sq s.seq) s

/-- The action in front; with none to come, the engine alone moves (log 2). -/
def nextTurn (s : State) : Turn :=
  match s.pending with
  | [] => engineTurn (s.advance [])
  | .host header data :: rest => .code (.ht header data) (s.advance rest)
  | .engine :: rest => engineTurn (s.advance rest)
  | .reset d :: rest => .event ((State.resetWith d).advance rest)
  | .usePermutationUnit tsel value :: rest => .code (.ts tsel value) (s.advance rest)
  | .useRotator rotsel x :: rest => .code (.rs rotsel x) (s.advance rest)
  | .useSboxRom addr :: rest => .code (.sa addr) (s.advance rest)

/-- A code that is no row of the table. `IDLE` selects no step (30_encoding.md R103); a code that no rule produces has no step
(R108, log 11); a reserved table select has no output (R108, log 12); a reserved command is the command decoder's to refuse (R102). -/
def rejected (e : DecodeError) (s : State) : Host.Outcome State Fault Refusal :=
  match e with
  | .idleSequencer => .next s
  | .reservedSequencer _ => .fault .sequencerStuck
  | .reservedTableSelect _ => .refused .undefinedTableSelect
  | .reservedCommand opc => .next (commandDecoder opc s)

/-- The header of `HostWrite(CMD, ·)`: `kind = 1`, `idx = 0x03` (R28, R100). -/
def commandHeader : BitVec 6 := 0b100011#6

/-- A code put where the next step reads it (log 9): a transaction or a use of a unit in front of `pending`, a command word in a write of
`CMD` there, a sequencer word in `(PHASE, RND)` with the engine's turn in front. -/
def State.place (s : State) : Code → State
  | .ht header data => { s with pending := .host header data :: s.pending }
  | .cw opc => { s with pending := .host commandHeader (opc.setWidth 64) :: s.pending }
  | .sq seq => { s with phase := seq.extractLsb' 5 2, rnd := seq.extractLsb' 0 5, pending := .engine :: s.pending }
  | .ts tsel value => { s with pending := .usePermutationUnit tsel value :: s.pending }
  | .rs rotsel x => { s with pending := .useRotator rotsel x :: s.pending }
  | .sa addr => { s with pending := .useSboxRom addr :: s.pending }

end Sys2Proof.Machine
end

