-- ==== Sys2Proof/Machine/Step.lean ====
section
/-! DEFINITION. One step: one atomic action of the one total order (20_memory.md R86; 44_pipeline_and_host.md R198). -/

namespace Sys2Proof.Machine

/-- The instruction a code decodes to, or what its rejection does. -/
def runCode (c : Code) (s : State) : Host.Outcome State Fault Refusal :=
  match decode c with
  | .ok i => exec i s
  | .error e => rejected e s

/-- One action: the reset event, or the code at its place. -/
def step (s : State) : Host.Outcome State Fault Refusal :=
  match nextTurn s with
  | .event t => .next t
  | .code c t => runCode c t

/-- The state in which the very next step runs the code that a bare number of the opcode table stands for (log 8, log 9). -/
def State.withFetchWord (s : State) (nbits w : Nat) : State :=
  match codeOfTableNumber nbits w with
  | some c => s.place c
  | none => s

end Sys2Proof.Machine
end

