-- ==== Sys2Proof/Machine/Script.lean ====
section
/-! DEFINITION. Runs: one action by itself, lists of actions, and the host scripts of 30_encoding.md section 5 with every interleaving of
engine steps (R110, R111; log 18). -/

namespace Sys2Proof.Machine

/-- One action by itself: the step of the state in which it is the only one to come. -/
def perform (a : Action) (s : State) : Host.Outcome State Fault Refusal := step { s with pending := [a] }

/-- Actions one after another, stopping at a fault or a refusal. -/
def runActions : List Action → State → Host.Outcome State Fault Refusal
  | [], s => .next s
  | a :: rest, s =>
    match perform a s with
    | .next t => runActions rest t
    | .fault f => .fault f
    | .refused e => .refused e

/-- A host transaction. -/
def Action.isHost : Action → Bool
  | .host _ _ => true
  | _ => false

/-- The engine's turn. -/
def Action.isEngine : Action → Bool
  | .engine => true
  | _ => false

/-- A reset event. -/
def Action.isReset : Action → Bool
  | .reset _ => true
  | _ => false

/-- How many of the actions are the engine's turns. -/
def engineTurns (acts : List Action) : Nat := acts.countP Action.isEngine

/-! ### Register indices (10_state.md R35) -/

abbrev idxKey : BitVec 5 := 0x00#5
abbrev idxDin : BitVec 5 := 0x01#5
abbrev idxDout : BitVec 5 := 0x02#5
abbrev idxCmd : BitVec 5 := 0x03#5
abbrev idxStatus : BitVec 5 := 0x04#5

/-- `HostRead(idx)` as an action (R100). -/
def hostReadAction (idx : BitVec 5) : Action := .host (0#1 ++ idx) 0#64

/-- `HostWrite(idx, v)` as an action (R100). -/
def hostWriteAction (idx : BitVec 5) (v : Word) : Action := .host (1#1 ++ idx) v

/-- The fields of `STATUS` (10_state.md R29). -/
inductive StatusField where
  | rnd | phase | kvalid | dvalid | eNokey | eBusy | eIllcmd | eAcc
  deriving DecidableEq, Repr

/-- One field of a `STATUS` value (R29). -/
def StatusField.read (w : Word) : StatusField → Nat
  | .rnd => (w.extractLsb' 0 5).toNat
  | .phase => (w.extractLsb' 5 2).toNat
  | .kvalid => (w.extractLsb' 7 1).toNat
  | .dvalid => (w.extractLsb' 8 1).toNat
  | .eNokey => (w.extractLsb' 9 1).toNat
  | .eBusy => (w.extractLsb' 10 1).toNat
  | .eIllcmd => (w.extractLsb' 11 1).toNat
  | .eAcc => (w.extractLsb' 12 1).toNat

/-- Host-script statements, and the pseudo-operations that are not lists of others (R110, R111). -/
inductive Statement where
  /-- `WR reg, value`. -/
  | wr (idx : BitVec 5) (v : Word)
  /-- `RD reg`. -/
  | rd (idx : BitVec 5)
  /-- `CMD KEYGEN`. -/
  | cmdKeygen
  /-- `CMD ENCRYPT`. -/
  | cmdEncrypt
  /-- `EXPECT reg = value`. -/
  | expect (idx : BitVec 5) (v : Word)
  /-- `EXPECT STATUS.FIELD = value`. -/
  | expectField (f : StatusField) (n : Nat)
  /-- `WAIT`: "repeat `RD STATUS` until the value read has `[6:5] = 00`". -/
  | wait
  /-- `RESET`: the reset event, with its draw. -/
  | reset (d : ResetData)
  deriving DecidableEq, Repr

/-- The transaction a statement stands for, by the encoding column of R110; of `WAIT`, the one it repeats. -/
def Statement.action : Statement → Action
  | .wr idx v => hostWriteAction idx v
  | .rd idx => hostReadAction idx
  | .cmdKeygen => hostWriteAction idxCmd 0x0000000000000001#64
  | .cmdEncrypt => hostWriteAction idxCmd 0x0000000000000002#64
  | .expect idx _ => hostReadAction idx
  | .expectField _ _ => hostReadAction idxStatus
  | .wait => hostReadAction idxStatus
  | .reset d => .reset d

/-- The claim a statement makes of the Word it returned: only `EXPECT` makes one (R110). -/
def Statement.claim : Statement → Option Word → Prop
  | .expect _ v, some w => w = v
  | .expectField f n, some w => f.read w = n
  | .expect _ _, none => False
  | .expectField _ _, none => False
  | _, _ => True

/-- The `STATUS` value read has `[6:5] = 00` (R111). -/
def showsIdle : Option Word → Bool
  | some w => w.extractLsb' 5 2 == 0b00#2
  | none => false

/-- `DES k, b` (R111). -/
def desScript (k b : Word) : List Statement :=
  [.wr idxKey k, .cmdKeygen, .wait, .wr idxDin b, .cmdEncrypt, .wait, .rd idxDout]

/-- `ENC b` (R111). -/
def encScript (b : Word) : List Statement := [.wr idxDin b, .cmdEncrypt, .wait, .rd idxDout]

/-- `Runs p s t out`: the script `p` can take `s` to `t`, its statements returning what `out` lists. DESIGN CHOICE (log 18): R110 says
that the engine's steps come "between any two statements, and only there", R198 that they come in any order in which they are
enabled. The model takes R198's wider reading: an enabled engine step may also come before the first statement, after the last one
(`p = []`) and between the reads of one `WAIT`. -/
inductive Runs : List Statement → State → State → List (Option Word) → Prop
  /-- The script is at its end. -/
  | done (s : State) : Runs [] s s []
  /-- An enabled engine step comes in between. -/
  | engine {p : List Statement} {s s1 t : State} {out : List (Option Word)} (enabled : s.phase ≠ phaseIdle)
      (took : perform .engine s = .next s1) (rest : Runs p s1 t out) : Runs p s t out
  /-- A statement other than `WAIT`: its one action. -/
  | statement {st : Statement} {p : List Statement} {s s1 t : State} {out : List (Option Word)} (notWait : st ≠ .wait)
      (took : perform st.action s = .next s1) (rest : Runs p s1 t out) : Runs (st :: p) s t (s1.returned :: out)
  /-- `WAIT` reads `STATUS`, sees the engine busy, and waits on. -/
  | waitAgain {p : List Statement} {s s1 t : State} {out : List (Option Word)}
      (took : perform Statement.wait.action s = .next s1) (busy : showsIdle s1.returned = false)
      (rest : Runs (.wait :: p) s1 t out) : Runs (.wait :: p) s t out
  /-- `WAIT` reads `STATUS`, sees the engine idle, and ends. -/
  | waitDone {p : List Statement} {s s1 t : State} {out : List (Option Word)}
      (took : perform Statement.wait.action s = .next s1) (idle : showsIdle s1.returned = true)
      (rest : Runs p s1 t out) : Runs (.wait :: p) s t (s1.returned :: out)

/-- Every claim of a finished script holds of what its statements returned. -/
def claimsHold (p : List Statement) (out : List (Option Word)) : Prop :=
  p.length = out.length ∧ ∀ e ∈ p.zip out, e.1.claim e.2

end Sys2Proof.Machine
end

