-- ==== Sys2Proof/Machine/Execution.lean ====
section
/-! DEFINITION. Executions without end, and the one liveness assumption: weak fairness of the engine step (44_pipeline_and_host.md R198,
70_reset_and_hazards.md R252; log 15). -/

namespace Sys2Proof.Machine

/-- The actions an execution of the hardware is made of: "a host transaction, an engine step, or the reset event" (R198). A use of a unit
on the bench (log 4) is none. -/
def Action.isHardware (a : Action) : Bool := a.isHost || a.isEngine || a.isReset

/-- `acts n` is what happens at moment `n`, and takes `states n` to `states (n + 1)`. At a moment nothing may happen (`none`): "nothing
obliges any to come". "Every engine step is enabled when taken" (R198). -/
def IsExecution (states : Nat → State) (acts : Nat → Option Action) : Prop :=
  ∀ n, match acts n with
    | none => states (n + 1) = states n
    | some a => a.isHardware = true ∧ (a = .engine → (states n).phase ≠ phaseIdle) ∧
        perform a (states n) = .next (states (n + 1))

/-- Weak fairness: "in every execution, if `PHASE != IDLE` then an engine step is eventually taken" (R252). An engine that is busy from
some moment on takes a step at that moment or later; a reset event, which ends the operation, frees it of that. -/
def WeaklyFair (states : Nat → State) (acts : Nat → Option Action) : Prop :=
  ∀ n, (∀ m, n ≤ m → (states m).phase ≠ phaseIdle) → ∃ m, n ≤ m ∧ acts m = some .engine

/-- What happens at the `len` moments from `n` on. -/
def actionsFrom (acts : Nat → Option Action) (n : Nat) : Nat → List Action
  | 0 => []
  | len + 1 => actionsFrom acts n len ++ (acts (n + len)).toList

/-- The host is in a `WAIT` from moment `n` on: it does nothing but read `STATUS`, and at every moment a read is still to come
(30_encoding.md R111). The engine moves in between. -/
def Waiting (acts : Nat → Option Action) (n : Nat) : Prop :=
  (∀ m, n ≤ m → acts m = none ∨ acts m = some .engine ∨ acts m = some Statement.wait.action) ∧
    ∀ m, n ≤ m → ∃ j, m ≤ j ∧ acts j = some Statement.wait.action

end Sys2Proof.Machine
end

