-- ==== Sys2Proof/Safety.lean ====
section
/-! DEFINITION. What a good state is: the invariants that claims about every step are stated in. -/

namespace Sys2Proof.Machine

/-- The round keys in the store as Words, round 1 first (10_state.md R27). -/
def State.rkWords (s : State) : Vector Word 16 := s.rk.map fun x => la x

/-- "`PHASE` in {0,1,2}; `RND <= 16`; `PHASE = KS` implies `RND <= 15`" (30_encoding.md R108), with no valid schedule while one is
being made (10_state.md R32) and always one while encrypting (R32, 44_pipeline_and_host.md R195). -/
structure SequencerInv (s : State) : Prop where
  phase_legal : s.phase ≠ 3#2
  rnd_le : s.rnd.toNat ≤ 16
  ks_rnd_le : s.phase = phaseKs → s.rnd.toNat ≤ 15
  ks_not_kvalid : s.phase = phaseKs → s.kvalid = false
  enc_kvalid : s.phase = phaseEnc → s.kvalid = true
  enc_not_dvalid : s.phase = phaseEnc → s.dvalid = false

/-- The engine's turn is the next step: it is in front, or nothing is to come (log 1, log 2). -/
def EngineMoves (s : State) : Prop := s.pending = [] ∨ ∃ rest, s.pending = .engine :: rest

/-- A schedule of `k` is being made: the halves and the keys made so far are those of `k` (42_key_schedule.md R155, R157). -/
structure MakingSchedule (k : Word) (s : State) : Prop where
  phase : s.phase = phaseKs
  halves : (s.cWord, s.dWord) = keyHalvesAfter k s.rnd.toNat
  keys : ∀ r : BitVec 4, r.toNat < s.rnd.toNat → s.rkWord r = roundKey k (r.toNat + 1)

/-- The block `b` is being encrypted: `(L, R)` are its halves after `RND` rounds under the store's keys (44_pipeline_and_host.md R192,
R194). -/
structure Encrypting (b : Word) (s : State) : Prop where
  phase : s.phase = phaseEnc
  halves : (s.lWord, s.rWord) = blockHalvesAfter b s.rkWords s.rnd.toNat

/-- A good state, for the key `k` of the last accepted `KEYGEN`, the block `b` of the last accepted `ENCRYPT` and the ciphertext `x` that
`DOUT` is to hold: the sequencer is in a legal code, and what the phase and the validity flags promise of the data holds of these
(00_scope.md R12, 10_state.md R30, R32, R33). -/
structure GoodState (k b x : Word) (s : State) : Prop where
  sequencer : SequencerInv s
  making_schedule : s.phase = phaseKs → MakingSchedule k s
  schedule_complete : s.kvalid = true → s.rkWords = generateKeys k
  encrypting : s.phase = phaseEnc → Encrypting b s
  result_valid : s.dvalid = true → s.dout = x

/-- The key of the last accepted `KEYGEN` after a step from `s` to `t`, `k` before it: the acceptance reads `KEY` (42_key_schedule.md
R153). -/
def keyAfter (k : Word) (s t : State) : Word := if s.phase = phaseIdle ∧ t.phase = phaseKs then s.key else k

/-- The block of the last accepted `ENCRYPT` after a step from `s` to `t`, `b` before it: the acceptance reads `DIN`
(44_pipeline_and_host.md R191). -/
def blockAfter (b : Word) (s t : State) : Word := if s.phase = phaseIdle ∧ t.phase = phaseEnc then s.din else b

/-- The ciphertext `DOUT` is to hold after a step from `s` to `t`, `x` before it: `ENC_FINAL` delivers that of the block `b` under the key
`k` (44_pipeline_and_host.md R193). -/
def resultAfter (k b x : Word) (s t : State) : Word := if s.phase = phaseEnc ∧ t.phase = phaseIdle then des k b else x

end Sys2Proof.Machine
end

