-- ==== Sys2Proof/Certificates/Slice0/Obligations.lean ====
section
/-! DEFINITION. The statements for the provers. Rules are those of spec/; where a clause is the model's own choice its docstring names
the log entry. -/

open Sys2Proof Sys2Proof.Machine

/-! ### Encoding -/

/-- 30_encoding.md R100 to R106: encoding an instruction and decoding the code gives it back, every operand at every value. -/
def Obligations.DecodeOfEncodeIsTheInstruction : Prop :=
  ∀ i : Instr, decode (encode i) = .ok i

/-- 30_encoding.md R100 to R106: a decoded code is the code of its instruction; only a read's unused data bits (log 7) are not kept. -/
def Obligations.EncodeOfDecodeIsTheCode : Prop :=
  ∀ (c : Code) (i : Instr), decode c = .ok i →
    (encode i).format = c.format ∧ (encode i).number = c.number ∧
    ((∀ header data, c = .ht header data → header.getLsbD 5 = true) → encode i = c)

/-- 30_encoding.md R109 and opcode_table.json: a code decodes exactly where it matches a row, to that row's instruction. -/
def Obligations.DecoderAgreesWithTheOpcodeTable : Prop :=
  (∀ (c : Code) (i : Instr), decode c = .ok i → i.row.matches c = true) ∧
  (∀ (c : Code) (j : Instr), j.row.matches c = true → ∃ i, decode c = .ok i ∧ i.row = j.row)

/-- 30_encoding.md R103: what every value of the sequencer word selects. -/
def Obligations.SequencerWordSelects : Prop :=
  (∀ n : BitVec 5, decode (.sq (0b00#2 ++ n)) = .error .idleSequencer) ∧
  (∀ r : BitVec 4, decode (.sq (0b010#3 ++ r)) = .ok (.ksRound r)) ∧
  (∀ r : BitVec 4, decode (.sq (0b100#3 ++ r)) = .ok (.encRound r)) ∧
  decode (.sq 0b1010000#7) = .ok .encFinal ∧
  (∀ n : BitVec 5, 16 ≤ n.toNat → decode (.sq (0b01#2 ++ n)) = .error (.reservedSequencer (0b01#2 ++ n))) ∧
  (∀ n : BitVec 5, 17 ≤ n.toNat → decode (.sq (0b10#2 ++ n)) = .error (.reservedSequencer (0b10#2 ++ n))) ∧
  (∀ n : BitVec 5, decode (.sq (0b11#2 ++ n)) = .error (.reservedSequencer (0b11#2 ++ n)))

/-- Words written out from the encodings of 30_encoding.md R100 to R106. -/
def Obligations.WordsWrittenOutDecode : Prop :=
  decode (.ht 0b010000#6 0) = .ok (.hostRead 0x10) ∧
  decode (.ht 0b100011#6 0x0000000000000101#64) = .ok (.hostWrite 0x03 0x101) ∧
  decode (.cw 0b00000001#8) = .ok .keygen ∧
  decode (.cw 0b00000010#8) = .ok .encrypt ∧
  decode (.sq 0b0101111#7) = .ok (.ksRound 15) ∧
  decode (.sq 0b1000001#7) = .ok (.encRound 1) ∧
  decode (.ts 0b011#3 0xE19955FAACCF1E00#64) = .ok (.permPc2 0xE19955FAACCF1E00#64) ∧
  decode (.rs 0b1#1 0x8000000000000000#64) = .ok (.rotl28By2 0x8000000000000000#64) ∧
  decode (.sa 0b101011101#9) = .ok (.sbox5 1 13)

/-! ### Reset and the step -/

/-- 70_reset_and_hazards.md R240, R241 and 10_state.md R37: the reset event in any state, for every draw of `RESET_DATA`. -/
def Obligations.ResetEventLeaves : Prop :=
  ∀ (s : State) (x : ResetData) (rest : List Action),
    ∃ t, step { s with pending := .reset x :: rest } = .next t ∧
      t.phase = 0#2 ∧ t.rnd = 0#5 ∧ t.kvalid = false ∧ t.dvalid = false ∧
      t.eNokey = false ∧ t.eBusy = false ∧ t.eIllcmd = false ∧ t.eAcc = false ∧
      t.key = x.key ∧ t.din = x.din ∧ t.dout = x.dout ∧ t.l = x.l ∧ t.r = x.r ∧ t.c = x.c ∧ t.d = x.d ∧ t.rk = x.rk ∧
      IsLA 32 t.lWord ∧ IsLA 32 t.rWord ∧ IsLA 28 t.cWord ∧ IsLA 28 t.dWord ∧ (∀ m, IsLA 48 (t.rkWord m)) ∧
      exec (.hostRead 0x04#5) t = .next { t with returned := some 0x0000000000000000#64 }

/-- `State.reset` is the state of 10_state.md R37 for one draw (the draw is the model's choice, log 5). -/
def Obligations.ResetStateIsAResetEvent : Prop :=
  ∃ x : ResetData, ∀ s : State, step { s with pending := [.reset x] } = .next State.reset

/-- 44_pipeline_and_host.md R198, 10_state.md R36: a step runs the instruction that the code at its place decodes to, in the state with
its action taken off. The clauses on `pending` and `returned` are the model's form (log 1, log 3); that with nothing to come the engine moves is
its choice (log 2), and so are the three clauses on `usePermutationUnit`, `useRotator` and `useSboxRom`: uses of a unit by itself, which the
spec's host does not have (log 4). -/
def Obligations.StepRunsTheDecodedInstruction : Prop :=
  ∀ (s : State) (rest : List Action) (i : Instr),
    (∀ header data, s.pending = .host header data :: rest → decode (.ht header data) = .ok i →
      step s = exec i { s with pending := rest, returned := none }) ∧
    ((s.pending = .engine :: rest ∨ (s.pending = [] ∧ rest = [])) → decode (.sq (s.phase ++ s.rnd)) = .ok i →
      step s = exec i { s with pending := rest, returned := none }) ∧
    (∀ tsel value, s.pending = .usePermutationUnit tsel value :: rest → decode (.ts tsel value) = .ok i →
      step s = exec i { s with pending := rest, returned := none }) ∧
    (∀ rotsel x, s.pending = .useRotator rotsel x :: rest → decode (.rs rotsel x) = .ok i →
      step s = exec i { s with pending := rest, returned := none }) ∧
    (∀ addr, s.pending = .useSboxRom addr :: rest → decode (.sa addr) = .ok i →
      step s = exec i { s with pending := rest, returned := none })

/-- 44_pipeline_and_host.md R198, 60_exceptions.md R226: "The engine takes no step on its own account while idle". That the turn is
then passed over is the model's choice (log 2). -/
def Obligations.IdleEngineTakesNoStep : Prop :=
  ∀ (s : State) (rest : List Action), s.phase = 0#2 →
    (s.pending = .engine :: rest ∨ (s.pending = [] ∧ rest = [])) →
    step s = .next { s with pending := rest, returned := none }

/-- 30_encoding.md R108: codes that no rule produces have no step and no value; that the model stops by these names is its choice
(log 11, log 12). -/
def Obligations.ReservedCodesHaveNoStep : Prop :=
  (∀ (s : State) (rest : List Action), s.pending = .engine :: rest →
    (s.phase = 3#2 ∨ (s.phase = 1#2 ∧ 16 ≤ s.rnd.toNat) ∨ (s.phase = 2#2 ∧ 17 ≤ s.rnd.toNat)) →
    step s = .fault .sequencerStuck) ∧
  (∀ (s : State) (rest : List Action) (tsel : BitVec 3) (value : Word),
    s.pending = .usePermutationUnit tsel value :: rest → 6 ≤ tsel.toNat →
    step s = .refused .undefinedTableSelect)

/-- 10_state.md R36, 30_encoding.md R103: `SEQ` alone selects a micro-operation. That one performed anywhere else stops the model is its
choice (log 10). -/
def Obligations.UnselectedMicroOpsStop : Prop :=
  ∀ s : State,
    (∀ r : BitVec 4, ¬ (s.phase = 1#2 ∧ s.rnd.toNat = r.toNat) → exec (.ksRound r) s = .fault .microOpNotSelected) ∧
    (∀ r : BitVec 4, ¬ (s.phase = 2#2 ∧ s.rnd.toNat = r.toNat) → exec (.encRound r) s = .fault .microOpNotSelected) ∧
    (¬ (s.phase = 2#2 ∧ s.rnd = 16#5) → exec .encFinal s = .fault .microOpNotSelected)

/-- 20_memory.md R86: a run takes the actions one after another, each in the state that the one before left; that `pending` holds them is
the model's form (log 1). -/
def Obligations.PendingActionsAreTakenInOrder : Prop :=
  ∀ (acts : List Action) (s : State),
    Host.Core.run core acts.length { s with pending := acts } = runActions acts { s with pending := [] }

/-! ### Host transactions -/

/-- 44_pipeline_and_host.md R197, 10_state.md R35: every index of `HostRead`, and what it leaves unchanged. -/
def Obligations.HostReadReturnsTheRegister : Prop :=
  ∀ s : State,
    exec (.hostRead 0x00#5) s = .next { s with returned := some s.key } ∧
    exec (.hostRead 0x01#5) s = .next { s with returned := some s.din } ∧
    exec (.hostRead 0x02#5) s = .next { s with returned := some s.dout } ∧
    exec (.hostRead 0x04#5) s = .next { s with returned := some s.status } ∧
    exec (.hostRead 0x08#5) s = .next { s with returned := some (la s.l) } ∧
    exec (.hostRead 0x09#5) s = .next { s with returned := some (la s.r) } ∧
    exec (.hostRead 0x0A#5) s = .next { s with returned := some (la s.c) } ∧
    exec (.hostRead 0x0B#5) s = .next { s with returned := some (la s.d) } ∧
    (∀ n : Fin 16, exec (.hostRead (BitVec.ofNat 5 (0x10 + n.val))) s = .next { s with returned := some (la s.rk[n]) }) ∧
    (∀ idx ∈ [0x03#5, 0x05#5, 0x06#5, 0x07#5, 0x0C#5, 0x0D#5, 0x0E#5, 0x0F#5],
      exec (.hostRead idx) s = .next { s with eAcc := true, returned := some 0#64 })

/-- 10_state.md R29: the fields of the Word that `HostRead(STATUS)` returns, and a write of `STATUS`. -/
def Obligations.StatusShowsTheFields : Prop :=
  ∀ s : State,
    (∃ w : Word, exec (.hostRead 0x04#5) s = .next { s with returned := some w } ∧
      w.extractLsb' 0 5 = s.rnd ∧ w.extractLsb' 5 2 = s.phase ∧
      w.getLsbD 7 = s.kvalid ∧ w.getLsbD 8 = s.dvalid ∧
      w.getLsbD 9 = s.eNokey ∧ w.getLsbD 10 = s.eBusy ∧ w.getLsbD 11 = s.eIllcmd ∧ w.getLsbD 12 = s.eAcc ∧
      (∀ k, 13 ≤ k → w.getLsbD k = false)) ∧
    (∀ v : Word, exec (.hostWrite 0x04#5 v) s = .next { s with eAcc := true })

/-- 20_memory.md R84: "two reads with no engine step and no write between them return the same value", and the second read changes
nothing that the first left. -/
def Obligations.HostReadIsIdempotent : Prop :=
  ∀ (idx : BitVec 5) (s : State), ∃ t, exec (.hostRead idx) s = .next t ∧ exec (.hostRead idx) t = .next t

/-- 44_pipeline_and_host.md R196, 10_state.md R23, R24: a write of `KEY` or `DIN`, in any `PHASE`, stores the Word and changes nothing
else. -/
def Obligations.HostWriteStoresKeyAndDin : Prop :=
  ∀ (s : State) (v : Word),
    exec (.hostWrite 0x00#5 v) s = .next { s with key := v } ∧
    exec (.hostWrite 0x01#5 v) s = .next { s with din := v }

/-- 60_exceptions.md R217: an access the map does not allow sets `E_ACC` and nothing else, in any `PHASE`; the read returns 0, the write is
dropped. -/
def Obligations.AccessFaultSetsEAccOnly : Prop :=
  ∀ s : State,
    (∀ idx ∈ [0x03#5, 0x05#5, 0x06#5, 0x07#5, 0x0C#5, 0x0D#5, 0x0E#5, 0x0F#5],
      exec (.hostRead idx) s = .next { s with eAcc := true, returned := some 0#64 }) ∧
    (∀ (idx : BitVec 5) (v : Word), idx = 0x02#5 ∨ idx = 0x04#5 ∨ 0x05 ≤ idx.toNat →
      exec (.hostWrite idx v) s = .next { s with eAcc := true })

/-- 30_encoding.md R101, 10_state.md R28: a write of `CMD` does what its command word `v[7:0]` does; `v[63:8]` are ignored. -/
def Obligations.CommandWriteRunsTheCommand : Prop :=
  ∀ (s : State) (v : Word) (i : Instr), decode (.cw (v.extractLsb' 0 8)) = .ok i →
    exec (.hostWrite 0x03#5 v) s = exec i s

/-- 60_exceptions.md R215: a command written while `PHASE != IDLE` sets `E_BUSY` and changes nothing else, whatever it is. -/
def Obligations.BusyCommandSetsEBusyOnly : Prop :=
  ∀ s : State, s.phase ≠ 0#2 →
    (∀ v : Word, exec (.hostWrite 0x03#5 v) s = .next { s with eBusy := true }) ∧
    exec .keygen s = .next { s with eBusy := true } ∧
    exec .encrypt s = .next { s with eBusy := true }

/-- 60_exceptions.md R216, 30_encoding.md R102: a reserved command written while idle sets `E_ILLCMD` and changes nothing else. -/
def Obligations.ReservedCommandSetsEIllcmdOnly : Prop :=
  ∀ (s : State) (v : Word), s.phase = 0#2 → v.extractLsb' 0 8 ≠ 0x01#8 → v.extractLsb' 0 8 ≠ 0x02#8 →
    exec (.hostWrite 0x03#5 v) s = .next { s with eIllcmd := true }

/-- 60_exceptions.md R213: `ENCRYPT` while idle with `KVALID = 0` sets `E_NOKEY` and changes nothing else. -/
def Obligations.EncryptWithoutScheduleSetsENokeyOnly : Prop :=
  ∀ s : State, s.phase = 0#2 → s.kvalid = false →
    (∀ v : Word, v.extractLsb' 0 8 = 0x02#8 → exec (.hostWrite 0x03#5 v) s = .next { s with eNokey := true }) ∧
    exec .encrypt s = .next { s with eNokey := true }

/-! ### Commands accepted and micro-operations -/

/-- 42_key_schedule.md R153, R156: an accepted `KEYGEN` performs `KS_INIT`, whatever `KVALID` and `DVALID` are. -/
def Obligations.KeygenAcceptedPerformsKsInit : Prop :=
  ∀ s : State, s.phase = 0#2 →
    ∃ t, exec .keygen s = .next t ∧
      t = { s with c := t.c, d := t.d, rnd := 0#5, phase := 1#2, kvalid := false } ∧
      t.cWord = (split56 (permute s.key tablePc1)).1 ∧ t.dWord = (split56 (permute s.key tablePc1)).2 ∧
      (∀ v : Word, v.extractLsb' 0 8 = 0x01#8 → exec (.hostWrite 0x03#5 v) s = .next t)

/-- 44_pipeline_and_host.md R191, R195: an accepted `ENCRYPT` performs `ENC_INIT`. -/
def Obligations.EncryptAcceptedPerformsEncInit : Prop :=
  ∀ s : State, s.phase = 0#2 → s.kvalid = true →
    ∃ t, exec .encrypt s = .next t ∧
      t = { s with l := t.l, r := t.r, rnd := 0#5, phase := 2#2, dvalid := false } ∧
      t.lWord = (split64 (permute s.din tableIp)).1 ∧ t.rWord = (split64 (permute s.din tableIp)).2 ∧
      (∀ v : Word, v.extractLsb' 0 8 = 0x02#8 → exec (.hostWrite 0x03#5 v) s = .next t)

/-- 42_key_schedule.md R154, R155: `KS_ROUND` for round `i = r + 1`, its completion in round 16, and what it leaves unchanged. -/
def Obligations.KsRoundMakesOneRoundKey : Prop :=
  ∀ (s : State) (r : BitVec 4), s.phase = 1#2 → s.rnd.toNat = r.toNat →
    ∃ t, exec (.ksRound r) s = .next t ∧
      t = { s with
            c := t.c, d := t.d, rk := t.rk, rnd := BitVec.ofNat 5 (r.toNat + 1),
            phase := if r.toNat + 1 = 16 then 0#2 else 1#2,
            kvalid := if r.toNat + 1 = 16 then true else s.kvalid } ∧
      t.cWord = rotl28 s.cWord (tableShift.getD r.toNat 0) ∧
      t.dWord = rotl28 s.dWord (tableShift.getD r.toNat 0) ∧
      t.rkWord r = permute (join56 t.cWord t.dWord) tablePc2 ∧
      (∀ m, m ≠ r → t.rkWord m = s.rkWord m)

/-- 44_pipeline_and_host.md R192: `ENC_ROUND` for round `i = r + 1`, both new halves from the old ones. -/
def Obligations.EncRoundIsAFeistelRound : Prop :=
  ∀ (s : State) (r : BitVec 4), s.phase = 2#2 → s.rnd.toNat = r.toNat →
    ∃ t, exec (.encRound r) s = .next t ∧
      t = { s with l := t.l, r := t.r, rnd := BitVec.ofNat 5 (r.toNat + 1) } ∧
      t.lWord = s.rWord ∧ t.rWord = s.lWord ^^^ roundFunction s.rWord (s.rkWord r)

/-- 44_pipeline_and_host.md R193: `ENC_FINAL`. -/
def Obligations.EncFinalDeliversTheCiphertext : Prop :=
  ∀ s : State, s.phase = 2#2 → s.rnd = 16#5 →
    exec .encFinal s =
      .next { s with dout := permute (join64 s.rWord s.lWord) tableFp, dvalid := true, phase := 0#2 }

/-! ### The units by themselves -/

/-- 41_permutation_unit.md R131 to R137: each table select puts out the selected bits, left-aligned, and changes no register. That a use
of the unit by itself is an action is the model's choice (log 4). -/
def Obligations.PermutationUnitSelectsBits : Prop :=
  ∀ (v : Word) (s : State),
    (∃ w, exec (.permIp v) s = .next { s with returned := some w } ∧
      ∀ k, 1 ≤ k → k ≤ 64 → bit w k = bit v (tableIp.getD (k - 1) 0)) ∧
    (∃ w, exec (.permFp v) s = .next { s with returned := some w } ∧
      ∀ k, 1 ≤ k → k ≤ 64 → bit w k = bit v (tableFp.getD (k - 1) 0)) ∧
    (∃ w, exec (.permPc1 v) s = .next { s with returned := some w } ∧
      ∀ k, 1 ≤ k → k ≤ 64 → bit w k = if k ≤ 56 then bit v (tablePc1.getD (k - 1) 0) else false) ∧
    (∃ w, exec (.permPc2 v) s = .next { s with returned := some w } ∧
      ∀ k, 1 ≤ k → k ≤ 64 → bit w k = if k ≤ 48 then bit v (tablePc2.getD (k - 1) 0) else false) ∧
    (∃ w, exec (.permE v) s = .next { s with returned := some w } ∧
      ∀ k, 1 ≤ k → k ≤ 64 → bit w k = if k ≤ 48 then bit v (tableE.getD (k - 1) 0) else false) ∧
    (∃ w, exec (.permP v) s = .next { s with returned := some w } ∧
      ∀ k, 1 ≤ k → k ≤ 64 → bit w k = if k ≤ 32 then bit v (tableP.getD (k - 1) 0) else false)

/-- 42_key_schedule.md R152: the two rotate selects, bit by bit; no register changes (log 4). -/
def Obligations.RotatorRotatesTheField : Prop :=
  ∀ (x : Word) (s : State),
    (∃ w, exec (.rotl28By1 x) s = .next { s with returned := some w } ∧
      ∀ k, 1 ≤ k → k ≤ 64 → bit w k = if k ≤ 28 then bit x ((k - 1 + 1) % 28 + 1) else false) ∧
    (∃ w, exec (.rotl28By2 x) s = .next { s with returned := some w } ∧
      ∀ k, 1 ≤ k → k ≤ 64 → bit w k = if k ≤ 28 then bit x ((k - 1 + 2) % 28 + 1) else false)

/-- 43_round_function.md R175, 20_memory.md R70 to R78: lane `j` puts out `S[j][row*16 + column]`; no register changes (log 4, log 13). -/
def Obligations.SboxLanesReadTheirBox : Prop :=
  ∀ (row : BitVec 2) (col : BitVec 4) (s : State),
    let out (table : List Nat) : Word := BitVec.ofNat 64 (table.getD (row.toNat * 16 + col.toNat) 0)
    exec (.sbox0 row col) s = .next { s with returned := some (out tableS0) } ∧
    exec (.sbox1 row col) s = .next { s with returned := some (out tableS1) } ∧
    exec (.sbox2 row col) s = .next { s with returned := some (out tableS2) } ∧
    exec (.sbox3 row col) s = .next { s with returned := some (out tableS3) } ∧
    exec (.sbox4 row col) s = .next { s with returned := some (out tableS4) } ∧
    exec (.sbox5 row col) s = .next { s with returned := some (out tableS5) } ∧
    exec (.sbox6 row col) s = .next { s with returned := some (out tableS6) } ∧
    exec (.sbox7 row col) s = .next { s with returned := some (out tableS7) }

/-! ### The datapath -/

/-- 60_exceptions.md R212, 92_eei_decisions.md D23: the static check of the constants. -/
def Obligations.TablesAreWellFormed : Prop :=
  (tableIp.length = 64 ∧ tableFp.length = 64 ∧ tablePc1.length = 56 ∧ tablePc2.length = 48 ∧ tableE.length = 48 ∧
    tableP.length = 32 ∧ tableShift.length = 16) ∧
  (∀ t ∈ [tableIp, tableFp, tablePc1, tablePc2, tableE, tableP], ∀ p ∈ t, 1 ≤ p ∧ p ≤ 64) ∧
  (∀ t ∈ [tableS0, tableS1, tableS2, tableS3, tableS4, tableS5, tableS6, tableS7], t.length = 64 ∧ ∀ v ∈ t, v ≤ 15) ∧
  (∀ n ∈ tableShift, n = 1 ∨ n = 2) ∧ tableShift.sum = 28

/-- 41_permutation_unit.md R130: `permute` for every permutation table, with its corner cases (a), (b), (e) and (f). The clause that
`permute` distributes over xor is (f), which the spec marks as its own inference: "derived: each output bit is one input bit". -/
def Obligations.PermuteIsBitSelection : Prop :=
  ∀ t : PermTable, t.length ≤ 64 → (∀ p ∈ t, 1 ≤ p ∧ p ≤ 64) →
    (∀ (v : Word) (k : Nat), 1 ≤ k → k ≤ 64 → bit (permute v t) k = if k ≤ t.length then bit v (t.getD (k - 1) 0) else false) ∧
    (∀ v : Word, IsLA t.length (permute v t)) ∧
    (∀ v w : Word, (∀ p ∈ t, bit v p = bit w p) → permute v t = permute w t) ∧
    permute 0#64 t = 0#64 ∧ permute (BitVec.allOnes 64) t = la (BitVec.allOnes t.length) ∧
    (∀ v w : Word, permute (v ^^^ w) t = permute v t ^^^ permute w t)

/-- 41_permutation_unit.md R138: FP undoes IP. The second equation, IP undoes FP, the spec marks as its own inference: "derived: FP is the
two-sided inverse of IP". -/
def Obligations.InitialPermutationRoundTrip : Prop :=
  ∀ w : Word, permute (permute w tableIp) tableFp = w ∧ permute (permute w tableFp) tableIp = w

/-- 42_key_schedule.md R150, R151 and 44_pipeline_and_host.md R190: the wiring selects the stated fields, and joining undoes splitting. The
laws that relate `split56` and `join56` the spec marks as its own inference: "derived: from rule R150". -/
def Obligations.SplitAndJoinAreInverse : Prop :=
  (∀ w : Word, split56 w = (la (field w 1 28), la (field w 29 56)) ∧ split64 w = (la (field w 1 32), la (field w 33 64))) ∧
  (∀ w : Word, IsLA 56 w → join56 (split56 w).1 (split56 w).2 = w) ∧
  (∀ c d : Word, IsLA 28 c → IsLA 28 d → split56 (join56 c d) = (c, d) ∧ IsLA 56 (join56 c d)) ∧
  (∀ w : Word, join64 (split64 w).1 (split64 w).2 = w) ∧
  (∀ hi lo : Word, IsLA 32 hi → IsLA 32 lo → split64 (join64 hi lo) = (hi, lo)) ∧
  (∀ c d : Word, IsLA 28 c → IsLA 28 d → join56 c d = la (top 28 c ++ top 28 d)) ∧
  (∀ hi lo : Word, IsLA 32 hi → IsLA 32 lo → join64 hi lo = la (top 32 hi ++ top 32 lo))

/-- 42_key_schedule.md R152: the rotator bit by bit for its two amounts, and its corner cases. -/
def Obligations.RotatorCornerCases : Prop :=
  (∀ x : Word, ∀ n ∈ [1, 2], ∀ k, 1 ≤ k → k ≤ 64 →
    bit (rotl28 x n) k = if k ≤ 28 then bit x ((k - 1 + n) % 28 + 1) else false) ∧
  rotl28 0x8000000000000000#64 1 = 0x0000001000000000#64 ∧ rotl28 0xC000000000000000#64 2 = 0x0000003000000000#64 ∧
  (∀ n ∈ [1, 2], rotl28 0#64 n = 0#64 ∧ rotl28 0xFFFFFFF000000000#64 n = 0xFFFFFFF000000000#64) ∧
  (∀ x : Word, rotl28 (rotl28 x 1) 1 = rotl28 x 2) ∧
  (∀ x : Word, ∀ n ∈ [1, 2], IsLA 28 (rotl28 x n) ∧
    (List.range 28).countP (fun k => bit (rotl28 x n) (k + 1)) = (List.range 28).countP (fun k => bit x (k + 1)))

/-- 43_round_function.md R174: the S-box address, and that it is a bijection on `0..63`. Which outer bit is the high one in `row`, and the
order of the inner bits in `column`, the spec marks as general knowledge of the DES standard (G15): PRESUMED, log 14. -/
def Obligations.SboxAddressIsABijection : Prop :=
  (∀ g : BitVec 6,
    (sboxRow g).toNat = 2 * (g.getLsbD 5).toNat + (g.getLsbD 0).toNat ∧
    (sboxColumn g).toNat = 8 * (g.getLsbD 4).toNat + 4 * (g.getLsbD 3).toNat + 2 * (g.getLsbD 2).toNat + (g.getLsbD 1).toNat ∧
    (sboxAddr g).toNat = (sboxRow g).toNat * 16 + (sboxColumn g).toNat) ∧
  (∀ g h : BitVec 6, sboxAddr g = sboxAddr h → g = h) ∧ (∀ a : BitVec 6, ∃ g, sboxAddr g = a)

/-- 43_round_function.md R176, R173, R175: lane by lane, output bits `{4j+1..4j+4}` are S-box `j` at group `j`; the rest is zero. -/
def Obligations.SboxArrayLaneByLane : Prop :=
  ∀ x : Word, IsLA 32 (sboxArray x) ∧
    ∀ j : Fin 8, (sboxArray x).extractLsb' (64 - (4 * j.val + 4)) 4 =
      romReadSrom (BitVec.ofNat 3 j.val) (sboxAddr (x.extractLsb' (64 - (6 * j.val + 6)) 6))

/-- 43_round_function.md R179: `f` is its four stages, depends on its operands only through `EXPAND(half) xor subkey`, is left-aligned,
and has the stated values. -/
def Obligations.RoundFunctionCornerCases : Prop :=
  (∀ h k : Word, roundFunction h k = pout (sboxArray (keymix (expand h) k))) ∧
  (∀ h h' k k' : Word, expand h ^^^ k = expand h' ^^^ k' → roundFunction h k = roundFunction h' k') ∧
  (∀ h k : Word, IsLA 32 (roundFunction h k)) ∧
  roundFunction 0#64 0#64 = 0xD8D8DBBC00000000#64 ∧
  roundFunction 0xFFFFFFFF00000000#64 0#64 = 0x38DBF9CB00000000#64 ∧
  roundFunction 0#64 0xFFFFFFFFFFFF0000#64 = 0x38DBF9CB00000000#64

/-- 41_permutation_unit.md R134, 42_key_schedule.md R156: keys that differ only in bits 8, 16, ..., 64 give the same round keys and the
same ciphertexts. -/
def Obligations.ParityBitsAreIgnored : Prop :=
  ∀ k k' : Word, (∀ n, 1 ≤ n → n ≤ 64 → n % 8 ≠ 0 → bit k n = bit k' n) →
    generateKeys k = generateKeys k' ∧ ∀ b, des k b = des k' b

/-- 42_key_schedule.md R157, 20_memory.md R69: every round key is left-aligned, the halves are the first ones rotated by the cumulative
amount, and after round 16 they are back. -/
def Obligations.KeyHalvesRotateFullCircle : Prop :=
  (∀ k : Word, ∀ n : Fin 16, IsLA 48 (generateKeys k)[n]) ∧
  (∀ (k : Word) (n : Nat), n ≤ 16 →
    keyHalvesAfter k n =
      (Nat.repeat (fun x => rotl28 x 1) (tableShift.take n).sum (keyHalves k).1,
       Nat.repeat (fun x => rotl28 x 1) (tableShift.take n).sum (keyHalves k).2)) ∧
  (∀ k : Word, keyHalvesAfter k 16 = keyHalves k)

/-- 44_pipeline_and_host.md R194: "For fixed `round_keys` it is a bijection on Words". -/
def Obligations.EncryptIsABijection : Prop :=
  ∀ keys : Vector Word 16, Function.Bijective fun block => encrypt block keys

/-- 95_test_vectors.md section 2.2: "complementing every bit of both key and block complements the ciphertext". -/
def Obligations.ComplementationProperty : Prop :=
  ∀ k b : Word, des (~~~k) (~~~b) = ~~~(des k b)

/-! ### Invariants and whole-machine rules -/

/-- 30_encoding.md R108, 10_state.md R30, R31: every step keeps the sequencer in a legal code. -/
def Obligations.StepKeepsSequencerInv : Prop :=
  ∀ s t : State, SequencerInv s → step s = .next t → SequencerInv t

/-- 60_exceptions.md R210: in a legal code no step faults; the one refusal left is a reserved table select on the bench (log 12). -/
def Obligations.LegalSequencerNeverStops : Prop :=
  ∀ s : State, SequencerInv s →
    (∃ t, step s = .next t) ∨
    (∃ tsel value rest, s.pending = .usePermutationUnit tsel value :: rest ∧ 6 ≤ tsel.toNat)

/-- 00_scope.md R12, 10_state.md R32, R33, 42_key_schedule.md R155, R157, 44_pipeline_and_host.md R192 to R194: every step keeps the good
states, for one key `k`, block `b` and result `x` fixed outside the step. They change only where the machine takes a new one up: `k` at an
accepted `KEYGEN`, `b` at an accepted `ENCRYPT`, `x` in `ENC_FINAL`. And, from any state at all, a step that is no reset event goes on with the
same key's schedule, the same block's encryption, or ends it with that key's round keys, that block's ciphertext. -/
def Obligations.StepKeepsGoodState : Prop :=
  (∀ (k b x : Word) (s t : State), GoodState k b x s → step s = .next t →
    GoodState (keyAfter k s t) (blockAfter b s t) (resultAfter k b x s t) t) ∧
  (∀ (k : Word) (s t : State), MakingSchedule k s → step s = .next t → (∀ d rest, s.pending ≠ .reset d :: rest) →
    MakingSchedule k t ∨ (t.phase = 0#2 ∧ t.kvalid = true ∧ t.rkWords = generateKeys k)) ∧
  (∀ (b : Word) (s t : State), Encrypting b s → step s = .next t → (∀ d rest, s.pending ≠ .reset d :: rest) →
    (Encrypting b t ∨ (t.phase = 0#2 ∧ t.dvalid = true ∧ t.dout = encrypt b s.rkWords)) ∧ t.rkWords = s.rkWords)

/-- 10_state.md R37: every reset state is a good state, whatever the draw, for whatever key, block and result: nothing is promised yet. -/
def Obligations.ResetStatesAreGood : Prop :=
  ∀ k b x : Word, (∀ d : ResetData, GoodState k b x (State.resetWith d)) ∧ GoodState k b x State.reset

/-- 60_exceptions.md R214, 10_state.md R34: no step but the reset event clears an error flag, and only host transactions set one. -/
def Obligations.ErrorFlagsAreSticky : Prop :=
  ∀ (s t : State) (e : ErrorFlag), step s = .next t → (∀ x rest, s.pending ≠ .reset x :: rest) →
    (s.errorFlag e = true → t.errorFlag e = true) ∧
    ((∀ header data rest, s.pending ≠ .host header data :: rest) → t.errorFlag e = s.errorFlag e)

/-- 10_state.md R34, 60_exceptions.md R211, R218: an error flag changes only by the refusal it names. -/
def Obligations.ErrorFlagsAreSetByTheirRefusal : Prop :=
  ∀ s t : State, step s = .next t → (∀ x rest, s.pending ≠ .reset x :: rest) →
    (t.eNokey ≠ s.eNokey → s.phase = 0#2 ∧ s.kvalid = false ∧
      ∃ v rest, s.pending = .host 0b100011#6 v :: rest ∧ v.extractLsb' 0 8 = 0x02#8) ∧
    (t.eBusy ≠ s.eBusy → s.phase ≠ 0#2 ∧ ∃ v rest, s.pending = .host 0b100011#6 v :: rest) ∧
    (t.eIllcmd ≠ s.eIllcmd → s.phase = 0#2 ∧
      ∃ v rest, s.pending = .host 0b100011#6 v :: rest ∧ v.extractLsb' 0 8 ≠ 0x01#8 ∧ v.extractLsb' 0 8 ≠ 0x02#8) ∧
    (t.eAcc ≠ s.eAcc → ∃ header v rest, s.pending = .host header v :: rest ∧
      (header ∈ [0b000011#6, 0b000101#6, 0b000110#6, 0b000111#6, 0b001100#6, 0b001101#6, 0b001110#6, 0b001111#6] ∨
        header = 0b100010#6 ∨ 0b100100 ≤ header.toNat))

/-- 10_state.md R30: the only changes of `PHASE`, and what each comes from: two from an accepted command, two from the engine's own step
(`EngineMoves`; log 1, log 2). -/
def Obligations.PhaseTransitions : Prop :=
  ∀ s t : State, step s = .next t → (∀ x rest, s.pending ≠ .reset x :: rest) → t.phase ≠ s.phase →
    (s.phase = 0#2 ∧ t.phase = 1#2 ∧ ∃ v rest, s.pending = .host 0b100011#6 v :: rest ∧ v.extractLsb' 0 8 = 0x01#8) ∨
    (EngineMoves s ∧ s.phase = 1#2 ∧ t.phase = 0#2 ∧ s.rnd = 15#5) ∨
    (s.phase = 0#2 ∧ t.phase = 2#2 ∧ s.kvalid = true ∧
      ∃ v rest, s.pending = .host 0b100011#6 v :: rest ∧ v.extractLsb' 0 8 = 0x02#8) ∨
    (EngineMoves s ∧ s.phase = 2#2 ∧ t.phase = 0#2 ∧ s.rnd = 16#5)

/-- 10_state.md R31: an acceptance sets `RND` to 0, a round counts it up by exactly 1, everything else leaves it, and it never exceeds
16. (`EngineMoves`: log 1, log 2.) -/
def Obligations.RndCountsRounds : Prop :=
  ∀ s t : State, step s = .next t → (∀ x rest, s.pending ≠ .reset x :: rest) →
    (s.phase = 0#2 ∧ t.phase ≠ 0#2 → t.rnd = 0#5) ∧
    (EngineMoves s ∧ s.phase ≠ 0#2 ∧ s.rnd.toNat ≤ 15 → t.rnd.toNat = s.rnd.toNat + 1) ∧
    (¬ (s.phase = 0#2 ∧ t.phase ≠ 0#2) → ¬ (EngineMoves s ∧ s.phase ≠ 0#2 ∧ s.rnd.toNat ≤ 15) → t.rnd = s.rnd) ∧
    (s.rnd.toNat ≤ 16 → t.rnd.toNat ≤ 16)

/-- 10_state.md R32, R33: what changes `KVALID` and `DVALID`. -/
def Obligations.ValidFlagsFollowTheOperations : Prop :=
  ∀ s t : State, step s = .next t → (∀ x rest, s.pending ≠ .reset x :: rest) →
    t.kvalid = (if s.phase = 0#2 ∧ t.phase = 1#2 then false else if s.phase = 1#2 ∧ t.phase = 0#2 then true else s.kvalid) ∧
    t.dvalid = (if s.phase = 0#2 ∧ t.phase = 2#2 then false else if s.phase = 2#2 ∧ t.phase = 0#2 then true else s.dvalid)

/-- 42_key_schedule.md R159, 20_memory.md R80, 10_state.md R27: a round key changes only by the engine's own step, in the `KS_ROUND` of its
round, so never while `PHASE = ENC` and never by the host. (`EngineMoves`: log 1, log 2.) -/
def Obligations.RoundKeysChangeOnlyInTheirRound : Prop :=
  ∀ (s t : State) (m : BitVec 4), step s = .next t → (∀ x rest, s.pending ≠ .reset x :: rest) →
    t.rkWord m ≠ s.rkWord m → EngineMoves s ∧ s.phase = 1#2 ∧ s.rnd.toNat = m.toNat

/-- 10_state.md R20, the column "written by": who writes each data register. What the engine alone writes changes at an accepted command
(`KS_INIT`, `ENC_INIT`) or by the engine's own step (`EngineMoves`; log 1, log 2). -/
def Obligations.DataRegistersHaveTheirWriters : Prop :=
  ∀ s t : State, step s = .next t → (∀ x rest, s.pending ≠ .reset x :: rest) →
    (t.key ≠ s.key → ∃ rest, s.pending = .host 0b100000#6 t.key :: rest) ∧
    (t.din ≠ s.din → ∃ rest, s.pending = .host 0b100001#6 t.din :: rest) ∧
    (t.dout ≠ s.dout → EngineMoves s ∧ s.phase = 2#2 ∧ s.rnd = 16#5) ∧
    (t.l ≠ s.l ∨ t.r ≠ s.r →
      (s.phase = 0#2 ∧ t.phase = 2#2) ∨ (EngineMoves s ∧ s.phase = 2#2 ∧ s.rnd.toNat ≤ 15)) ∧
    (t.c ≠ s.c ∨ t.d ≠ s.d →
      (s.phase = 0#2 ∧ t.phase = 1#2) ∨ (EngineMoves s ∧ s.phase = 1#2 ∧ s.rnd.toNat ≤ 15))

/-- 70_reset_and_hazards.md R250, 10_state.md R34: an engine step reads neither `KEY` nor `DIN` nor an error flag: with others in their
place it does the same, and leaves them in place. -/
def Obligations.EngineIgnoresKeyDinAndErrorFlags : Prop :=
  ∀ (s : State) (k b : Word) (e1 e2 e3 e4 : Bool),
    perform .engine { s with key := k, din := b, eNokey := e1, eBusy := e2, eIllcmd := e3, eAcc := e4 } =
      (match perform .engine s with
       | .next t => .next { t with key := k, din := b, eNokey := e1, eBusy := e2, eIllcmd := e3, eAcc := e4 }
       | .fault f => .fault f
       | .refused e => .refused e)

/-! ### Whole operations -/

/-- 42_key_schedule.md R156, 44_pipeline_and_host.md R200, 70_reset_and_hazards.md R252: an accepted `KEYGEN` finishes after exactly 16 engine
steps, whatever host transactions come in between, with the round keys of the key at acceptance. -/
def Obligations.KeygenFinishesInSixteenSteps : Prop :=
  ∀ (s : State) (v : Word) (acts : List Action),
    s.phase = 0#2 → v.extractLsb' 0 8 = 0x01#8 → (∀ a ∈ acts, a.isHost = true ∨ a.isEngine = true) →
    (engineTurns acts ≤ 15 →
      ∃ t, runActions (hostWriteAction idxCmd v :: acts) s = .next t ∧
        t.phase = 1#2 ∧ t.rnd.toNat = engineTurns acts ∧ t.kvalid = false) ∧
    (engineTurns acts = 15 →
      ∃ t, runActions (hostWriteAction idxCmd v :: (acts ++ [.engine])) s = .next t ∧
        t.phase = 0#2 ∧ t.rnd = 16#5 ∧ t.kvalid = true ∧ t.rkWords = generateKeys s.key ∧
        t.dout = s.dout ∧ t.dvalid = s.dvalid)

/-- 44_pipeline_and_host.md R195, R200, 70_reset_and_hazards.md R252: an accepted `ENCRYPT` finishes after exactly 17 engine steps, whatever
host transactions come in between, with the ciphertext of the block at acceptance; until then `DOUT` keeps the previous one. -/
def Obligations.EncryptFinishesInSeventeenSteps : Prop :=
  ∀ (s : State) (v : Word) (acts : List Action),
    s.phase = 0#2 → s.kvalid = true → v.extractLsb' 0 8 = 0x02#8 →
    (∀ a ∈ acts, a.isHost = true ∨ a.isEngine = true) →
    (engineTurns acts ≤ 16 →
      ∃ t, runActions (hostWriteAction idxCmd v :: acts) s = .next t ∧
        t.phase = 2#2 ∧ t.rnd.toNat = engineTurns acts ∧ t.dvalid = false ∧ t.dout = s.dout) ∧
    (engineTurns acts = 16 →
      ∃ t, runActions (hostWriteAction idxCmd v :: (acts ++ [.engine])) s = .next t ∧
        t.phase = 0#2 ∧ t.rnd = 16#5 ∧ t.dvalid = true ∧ t.dout = encrypt s.din s.rkWords ∧
        t.rk = s.rk ∧ t.kvalid = true)

/-- 44_pipeline_and_host.md R199, 30_encoding.md R112, 00_scope.md R15: from any idle state every execution of the script `DES k, b` returns
`DES(k, b)` from its last read and ends as stated, in every interleaving. The spec marks this as its own inference ("derived: from rule R101;
..."); which interleavings `Runs` admits is the model's choice (log 18). -/
def Obligations.DesScriptReturnsDes : Prop :=
  ∀ (k b : Word) (s t : State) (out : List (Option Word)), s.phase = 0#2 → Runs (desScript k b) s t out →
    out.getLast? = some (some (des k b)) ∧
    t.kvalid = true ∧ t.dvalid = true ∧ t.phase = 0#2 ∧ t.rnd = 16#5 ∧
    t.eNokey = s.eNokey ∧ t.eBusy = s.eBusy ∧ t.eIllcmd = s.eIllcmd ∧ t.eAcc = s.eAcc

/-- 30_encoding.md R111, 42_key_schedule.md R159: with a complete schedule every execution of `ENC b` returns the block's ciphertext under
it, and the schedule is still there. Which interleavings `Runs` admits is the model's choice (log 18). -/
def Obligations.EncScriptReturnsTheCiphertext : Prop :=
  ∀ (b : Word) (s t : State) (out : List (Option Word)), s.phase = 0#2 → s.kvalid = true → Runs (encScript b) s t out →
    out.getLast? = some (some (encrypt b s.rkWords)) ∧
    t.rk = s.rk ∧ t.kvalid = true ∧ t.dvalid = true ∧ t.phase = 0#2 ∧ t.rnd = 16#5

/-- 00_scope.md R15, 70_reset_and_hazards.md R252: the script `DES k, b` can run to its end from every idle state. -/
def Obligations.DesScriptCanFinish : Prop :=
  ∀ (k b : Word) (s : State), s.phase = 0#2 → ∃ t out, Runs (desScript k b) s t out

/-! ### Progress under weak fairness -/

/-- 70_reset_and_hazards.md R252, 44_pipeline_and_host.md R198, R200: in every weakly fair execution an accepted `KEYGEN` is finished after
exactly 16 engine steps and an accepted `ENCRYPT` after exactly 17, whatever the host does meanwhile, if no reset event comes: the engine is
busy until then and the result is there. The form of an execution and of fairness is the model's (log 15). -/
def Obligations.AcceptedCommandsFinishUnderFairness : Prop :=
  ∀ (states : Nat → State) (acts : Nat → Option Action) (n : Nat) (v : Word),
    IsExecution states acts → WeaklyFair states acts → (∀ m d, n < m → acts m ≠ some (.reset d)) →
    (states n).phase = 0#2 → acts n = some (hostWriteAction idxCmd v) →
    (v.extractLsb' 0 8 = 0x01#8 →
      ∃ len, engineTurns (actionsFrom acts (n + 1) len) = 16 ∧ (∀ i < len, (states (n + 1 + i)).phase = 1#2) ∧
        (states (n + 1 + len)).phase = 0#2 ∧ (states (n + 1 + len)).kvalid = true ∧
        (states (n + 1 + len)).rkWords = generateKeys (states n).key) ∧
    (v.extractLsb' 0 8 = 0x02#8 → (states n).kvalid = true →
      ∃ len, engineTurns (actionsFrom acts (n + 1) len) = 17 ∧ (∀ i < len, (states (n + 1 + i)).phase = 2#2) ∧
        (states (n + 1 + len)).phase = 0#2 ∧ (states (n + 1 + len)).dvalid = true ∧
        (states (n + 1 + len)).dout = encrypt (states n).din (states n).rkWords)

/-- 70_reset_and_hazards.md R252 ("and that `WAIT` ends"), 30_encoding.md R111: in every weakly fair execution in which the host waits, a
read of `STATUS` shows `PHASE = IDLE`, after at most 16 engine steps of a `KEYGEN` or 17 of an `ENCRYPT`, and none if the engine was idle.
The form of an execution, of fairness and of waiting is the model's (log 15). -/
def Obligations.WaitEndsUnderFairness : Prop :=
  ∀ (states : Nat → State) (acts : Nat → Option Action) (n : Nat),
    IsExecution states acts → WeaklyFair states acts → Waiting acts n →
    ∃ len, acts (n + len) = some Statement.wait.action ∧ showsIdle (states (n + len + 1)).returned = true ∧
      engineTurns (actionsFrom acts n len) ≤
        (if (states n).phase = 1#2 then 16 else if (states n).phase = 2#2 then 17 else 0)
end

