-- ==== Sys2Proof/Laws/Bits.lean ====
section
/-! SUPPORT. Bits of Words in the DES numbering, left alignment, and the list that makes a Word. -/

namespace Sys2Proof.Machine

theorem bit_eq_getLsbD (w : Word) (i : Nat) : bit w i = w.getLsbD (64 - i) := rfl

/-- Words with the same bits `1..64` are the same Word. -/
theorem word_ext {a b : Word} (h : ∀ i, 1 ≤ i → i ≤ 64 → bit a i = bit b i) : a = b := by
  apply BitVec.eq_of_getLsbD_eq
  intro k hk
  have := h (64 - k) (by omega) (by omega)
  rwa [bit, bit, show 64 - (64 - k) = k by omega] at this

@[simp] theorem bit_zero (i : Nat) : bit 0#64 i = false := by simp [bit]

@[simp] theorem bit_xor (a b : Word) (i : Nat) : bit (a ^^^ b) i = (bit a i ^^ bit b i) := by simp [bit]

@[simp] theorem bit_or (a b : Word) (i : Nat) : bit (a ||| b) i = (bit a i || bit b i) := by simp [bit]

@[simp] theorem bit_and (a b : Word) (i : Nat) : bit (a &&& b) i = (bit a i && bit b i) := by simp [bit]

theorem bit_not (a : Word) {i : Nat} (h1 : 1 ≤ i) : bit (~~~a) i = !bit a i := by
  simp [bit, show 64 - i < 64 by omega]

/-- `shl(w,n){i} = w{i+n}` for `i+n <= 64`, else 0. -/
theorem bit_shl (w : Word) (n : Nat) {i : Nat} (h1 : 1 ≤ i) (h2 : i ≤ 64) :
    bit (w <<< n) i = (decide (i + n ≤ 64) && bit w (i + n)) := by
  simp only [bit, BitVec.getLsbD_shiftLeft, show 64 - i < 64 by omega, decide_true, Bool.true_and]
  rw [show 64 - i - n = 64 - (i + n) by omega]
  congr 1
  by_cases h : i + n ≤ 64 <;> simp [h] <;> omega

/-- `shr(w,n){i} = w{i-n}` for `i-n >= 1`, else 0. -/
theorem bit_shr (w : Word) (n : Nat) {i : Nat} (h2 : i ≤ 64) :
    bit (w >>> n) i = (decide (n < i) && bit w (i - n)) := by
  simp only [bit, BitVec.getLsbD_ushiftRight]
  by_cases h : n < i
  · simp only [h, decide_true, Bool.true_and]
    congr 1
    omega
  · simp only [h, decide_false, Bool.false_and]
    exact BitVec.getLsbD_of_ge _ _ (by omega)

/-- Bit `i` of a left-aligned value is its bit `i`, counted from the most significant, and 0 past its width. -/
theorem bit_la {n : Nat} (hn : n ≤ 64) (x : BitVec n) {i : Nat} (h1 : 1 ≤ i) (h2 : i ≤ 64) :
    bit (la x) i = (decide (i ≤ n) && x.getLsbD (n - i)) := by
  simp only [bit, la, BitVec.getLsbD_shiftLeft, BitVec.getLsbD_setWidth]
  by_cases h : i ≤ n
  · simp [h, show 64 - i < 64 by omega, show ¬ 64 - i < 64 - n by omega, show 64 - i - (64 - n) = n - i by omega,
      show n - i < 64 by omega]
  · simp [h, show 64 - i < 64 - n by omega]

theorem bit_ofBits {bs : List Bool} (hn : bs.length ≤ 64) {i : Nat} (h1 : 1 ≤ i) (h2 : i ≤ 64) :
    bit (ofBits bs) i = bs.getD (i - 1) false := by
  rw [ofBits, bit_la hn _ h1 h2]
  by_cases h : i ≤ bs.length
  · have := @BitVec.getMsbD_ofBoolListBE bs (i - 1)
    rw [BitVec.getMsbD] at this
    rw [← this, show bs.length - 1 - (i - 1) = bs.length - i by omega]
    simp [h, show i - 1 < bs.length by omega]
  · rw [List.getD_eq_default _ _ (show bs.length ≤ i - 1 by omega)]
    simp [h]

theorem bit_top {n : Nat} (w : Word) {i : Nat} (hi : 1 ≤ i) (hin : i ≤ n) (hn : n ≤ 64) :
    (top n w).getLsbD (n - i) = bit w i := by
  simp only [top, bit, BitVec.getLsbD_extractLsb']
  rw [show 64 - n + (n - i) = 64 - i by omega]
  simp [show n - i < n by omega]

@[simp] theorem top_la {n : Nat} (hn : n ≤ 64) (x : BitVec n) : top n (la x) = x := by
  apply BitVec.eq_of_getLsbD_eq
  intro k hk
  have := bit_top (la x) (i := n - k) (by omega) (by omega) hn
  rw [show n - (n - k) = k by omega] at this
  rw [this, bit_la hn x (by omega) (by omega)]
  simp [show n - (n - k) = k by omega]

/-- Left alignment, bit by bit. -/
theorem isLA_iff_bit {n : Nat} (hn : n ≤ 64) (w : Word) :
    IsLA n w ↔ ∀ i, n < i → i ≤ 64 → bit w i = false := by
  constructor
  · intro h i h1 h2
    have hd : w.toNat.testBit (64 - i) = (w.toNat % 2 ^ (64 - n)).testBit (64 - i) := by
      rw [Nat.testBit_mod_two_pow]; simp [show 64 - i < 64 - n by omega]
    rw [bit, BitVec.getLsbD, hd, show w.toNat % 2 ^ (64 - n) = 0 from h, Nat.zero_testBit]
  · intro h
    apply Nat.eq_of_testBit_eq
    intro k
    rw [Nat.testBit_mod_two_pow, Nat.zero_testBit]
    by_cases hk : k < 64 - n
    · have := h (64 - k) (by omega) (by omega)
      rw [bit, show 64 - (64 - k) = k by omega] at this
      simp [BitVec.getLsbD] at this
      simp [this]
    · simp [hk]

theorem isLA_la {n : Nat} (hn : n ≤ 64) (x : BitVec n) : IsLA n (la x) := by
  rw [isLA_iff_bit hn]
  intro i h1 h2
  rw [bit_la hn x (by omega) h2]
  simp [show ¬ i ≤ n by omega]

/-- A left-aligned Word is what its storage bits hold. -/
theorem la_top {n : Nat} (hn : n ≤ 64) {w : Word} (h : IsLA n w) : la (top n w) = w := by
  apply word_ext
  intro i h1 h2
  rw [bit_la hn _ h1 h2]
  by_cases hi : i ≤ n
  · simp [hi, bit_top w h1 hi hn]
  · simp [hi, (isLA_iff_bit hn w).1 h i (by omega) h2]

theorem isLA_xor {n : Nat} (hn : n ≤ 64) {a b : Word} (ha : IsLA n a) (hb : IsLA n b) : IsLA n (a ^^^ b) := by
  rw [isLA_iff_bit hn] at *
  intro i h1 h2
  simp [ha i h1 h2, hb i h1 h2]

end Sys2Proof.Machine
end

