-- ==== Sys2Proof/Laws/Tables.lean ====
section
/-! SUPPORT. The static check of the constants (60_exceptions.md R212): a mistyped table stops the build here. -/

namespace Sys2Proof.Machine

theorem tablesWf_holds : tablesWf = true := by decide +kernel

@[simp] theorem tableIp_length : tableIp.length = 64 := rfl
@[simp] theorem tableFp_length : tableFp.length = 64 := rfl
@[simp] theorem tablePc1_length : tablePc1.length = 56 := rfl
@[simp] theorem tablePc2_length : tablePc2.length = 48 := rfl
@[simp] theorem tableE_length : tableE.length = 48 := rfl
@[simp] theorem tableP_length : tableP.length = 32 := rfl
@[simp] theorem tableShift_length : tableShift.length = 16 := rfl

/-- Every shift amount is 1 or 2 (R69). -/
theorem tableShift_mem {n : Nat} (h : n ∈ tableShift) : n = 1 ∨ n = 2 := by
  simp [tableShift] at h
  omega

end Sys2Proof.Machine
end

