-- ==== Sys2Proof/Laws/Datapath.lean ====
section
/-! SUPPORT. One lemma per datapath function: its output bits, its width, and how the pure functions unroll round by round. -/

namespace Sys2Proof.Machine

/-! ### The permutation unit -/

/-- `out{i} = value{T[i]}` for `i` up to the table's length, 0 past it (41_permutation_unit.md R130). -/
theorem bit_permute (v : Word) {t : PermTable} (ht : t.length ≤ 64) {i : Nat} (h1 : 1 ≤ i) (h2 : i ≤ 64) :
    bit (permute v t) i = if h : i ≤ t.length then bit v (t[i - 1]'(by omega)) else false := by
  rw [permute, bit_ofBits (by simpa using ht) h1 h2, List.getD_eq_getElem?_getD, List.getElem?_map]
  by_cases h : i ≤ t.length
  · simp [h, List.getElem?_eq_getElem (show i - 1 < t.length by omega)]
  · simp [h, List.getElem?_eq_none (show t.length ≤ i - 1 by omega)]

theorem isLA_permute (v : Word) {t : PermTable} {n : Nat} (hl : t.length ≤ n) (hn : n ≤ 64) : IsLA n (permute v t) := by
  rw [isLA_iff_bit hn]
  intro i h1 h2
  rw [bit_permute v (by omega) (by omega) h2, dif_neg (by omega)]

theorem permute_xor (a b : Word) {t : PermTable} (ht : t.length ≤ 64) :
    permute (a ^^^ b) t = permute a t ^^^ permute b t := by
  apply word_ext
  intro i h1 h2
  rw [bit_xor, bit_permute _ ht h1 h2, bit_permute _ ht h1 h2, bit_permute _ ht h1 h2]
  split <;> simp

/-! ### Wiring -/

@[simp] theorem bit_mask28 {i : Nat} (h1 : 1 ≤ i) (h2 : i ≤ 64) : bit 0xFFFFFFF000000000#64 i = decide (i ≤ 28) := by
  have : ∀ k : Fin 65, 1 ≤ k.val → bit 0xFFFFFFF000000000#64 k.val = decide (k.val ≤ 28) := by decide +kernel
  exact this ⟨i, by omega⟩ h1

@[simp] theorem bit_mask32 {i : Nat} (h1 : 1 ≤ i) (h2 : i ≤ 64) : bit 0xFFFFFFFF00000000#64 i = decide (i ≤ 32) := by
  have : ∀ k : Fin 65, 1 ≤ k.val → bit 0xFFFFFFFF00000000#64 k.val = decide (k.val ≤ 32) := by decide +kernel
  exact this ⟨i, by omega⟩ h1

theorem bit_split56_fst (w : Word) {i : Nat} (h1 : 1 ≤ i) (h2 : i ≤ 64) :
    bit (split56 w).1 i = (bit w i && decide (i ≤ 28)) := by simp [split56, h1, h2]

theorem bit_split56_snd (w : Word) {i : Nat} (h1 : 1 ≤ i) (h2 : i ≤ 64) :
    bit (split56 w).2 i = (bit w (i + 28) && decide (i ≤ 28)) := by
  simp only [split56, bit_and, bit_shl _ _ h1 h2, bit_mask28 h1 h2]
  by_cases h : i ≤ 28 <;> simp [h]
  intro; omega

theorem bit_split64_fst (w : Word) {i : Nat} (h1 : 1 ≤ i) (h2 : i ≤ 64) :
    bit (split64 w).1 i = (bit w i && decide (i ≤ 32)) := by simp [split64, h1, h2]

theorem bit_split64_snd (w : Word) {i : Nat} (h1 : 1 ≤ i) (h2 : i ≤ 64) :
    bit (split64 w).2 i = (bit w (i + 32) && decide (i ≤ 32)) := by
  simp only [split64, bit_shl _ _ h1 h2]
  by_cases h : i ≤ 32 <;> simp [h]

theorem isLA_split56 (w : Word) : IsLA 28 (split56 w).1 ∧ IsLA 28 (split56 w).2 := by
  constructor <;> rw [isLA_iff_bit (by omega)] <;> intro i h1 h2
  · rw [bit_split56_fst w (by omega) h2]; simp [show ¬ i ≤ 28 by omega]
  · rw [bit_split56_snd w (by omega) h2]; simp [show ¬ i ≤ 28 by omega]

theorem isLA_split64 (w : Word) : IsLA 32 (split64 w).1 ∧ IsLA 32 (split64 w).2 := by
  constructor <;> rw [isLA_iff_bit (by omega)] <;> intro i h1 h2
  · rw [bit_split64_fst w (by omega) h2]; simp [show ¬ i ≤ 32 by omega]
  · rw [bit_split64_snd w (by omega) h2]; simp [show ¬ i ≤ 32 by omega]

/-! ### The rotator -/

/-- `out{i} = x{((i - 1 + n) mod 28) + 1}` in the field, 0 past it (42_key_schedule.md R152). -/
theorem bit_rotl28 (x : Word) {n : Nat} (hn : n = 1 ∨ n = 2) {i : Nat} (h1 : 1 ≤ i) (h2 : i ≤ 64) :
    bit (rotl28 x n) i = if i ≤ 28 then bit x ((i - 1 + n) % 28 + 1) else false := by
  rw [rotl28, bit_la (by omega) _ h1 h2]
  by_cases h : i ≤ 28
  · simp only [h, decide_true, Bool.true_and, if_true, BitVec.getLsbD_or, BitVec.getLsbD_shiftLeft,
      BitVec.getLsbD_ushiftRight, show 28 - i < 28 by omega]
    by_cases hw : i + n ≤ 28
    · rw [← bit_top x (n := 28) (i := (i - 1 + n) % 28 + 1) (by omega) (by omega) (by omega),
        show 28 - ((i - 1 + n) % 28 + 1) = 28 - i - n by omega]
      simp [show ¬ 28 - i < n by omega, BitVec.getLsbD_of_ge (top 28 x) (28 - n + (28 - i)) (by omega)]
    · rw [← bit_top x (n := 28) (i := (i - 1 + n) % 28 + 1) (by omega) (by omega) (by omega),
        show 28 - ((i - 1 + n) % 28 + 1) = 28 - n + (28 - i) by omega]
      simp [show 28 - i < n by omega]
  · simp [h]

theorem isLA_rotl28 (x : Word) (n : Nat) : IsLA 28 (rotl28 x n) := isLA_la (by omega) _

theorem shiftAmount_cases {i : Nat} (h1 : 1 ≤ i) (h2 : i ≤ 16) : shiftAmount i = 1 ∨ shiftAmount i = 2 := by
  have : ∀ k : Fin 17, 1 ≤ k.val → shiftAmount k.val = 1 ∨ shiftAmount k.val = 2 := by decide
  exact this ⟨i, by omega⟩ h1

/-! ### The key schedule, round by round -/

theorem isLA_keyHalves (key : Word) : IsLA 28 (keyHalves key).1 ∧ IsLA 28 (keyHalves key).2 := isLA_split56 _

@[simp] theorem keyHalvesAfter_zero (key : Word) : keyHalvesAfter key 0 = keyHalves key := rfl

/-- Round `i + 1` rotates the halves of round `i` by `SHIFT[i+1]`. -/
theorem keyHalvesAfter_succ (key : Word) {i : Nat} (h : i < 16) :
    keyHalvesAfter key (i + 1) = rotateHalves (keyHalvesAfter key i) (shiftAmount (i + 1)) := by
  have hi : i < tableShift.length := h
  rw [keyHalvesAfter, keyHalvesAfter, List.take_add_one, List.foldl_append, shiftAmount, romReadShrom,
    List.getElem?_eq_getElem hi]
  simp [List.getElem?_eq_getElem hi]

theorem isLA_keyHalvesAfter (key : Word) (i : Nat) :
    IsLA 28 (keyHalvesAfter key i).1 ∧ IsLA 28 (keyHalvesAfter key i).2 := by
  rw [keyHalvesAfter]
  generalize tableShift.take i = ns
  induction ns using List.reverseRecOn with
  | nil => exact isLA_keyHalves key
  | append_singleton ns n _ => rw [List.foldl_append]; exact ⟨isLA_rotl28 _ _, isLA_rotl28 _ _⟩

theorem isLA_roundKey (key : Word) (i : Nat) : IsLA 48 (roundKey key i) := isLA_permute _ (by simp) (by omega)

theorem generateKeys_getElem (key : Word) {i : Nat} (h : i < 16) : (generateKeys key)[i] = roundKey key (i + 1) := by
  simp [generateKeys]

/-! ### The pipeline, round by round -/

theorem isLA_blockHalves (block : Word) : IsLA 32 (blockHalves block).1 ∧ IsLA 32 (blockHalves block).2 := isLA_split64 _

theorem isLA_roundFunction (half subkey : Word) : IsLA 32 (roundFunction half subkey) :=
  isLA_permute _ (by simp) (by omega)

theorem isLA_feistel {lr : Word × Word} (h : IsLA 32 lr.1 ∧ IsLA 32 lr.2) (k : Word) :
    IsLA 32 (feistel lr k).1 ∧ IsLA 32 (feistel lr k).2 :=
  ⟨h.2, isLA_xor (by omega) h.1 (isLA_roundFunction _ _)⟩

@[simp] theorem blockHalvesAfter_zero (block : Word) (keys : Vector Word 16) :
    blockHalvesAfter block keys 0 = blockHalves block := rfl

/-- Round `i + 1` is a Feistel round under `K_(i+1)`. -/
theorem blockHalvesAfter_succ (block : Word) (keys : Vector Word 16) {i : Nat} (h : i < 16) :
    blockHalvesAfter block keys (i + 1) = feistel (blockHalvesAfter block keys i) keys[i] := by
  have hi : i < keys.toList.length := by simpa using h
  rw [blockHalvesAfter, blockHalvesAfter, List.take_add_one, List.foldl_append, List.getElem?_eq_getElem hi]
  simp

theorem isLA_blockHalvesAfter (block : Word) (keys : Vector Word 16) (i : Nat) :
    IsLA 32 (blockHalvesAfter block keys i).1 ∧ IsLA 32 (blockHalvesAfter block keys i).2 := by
  rw [blockHalvesAfter]
  generalize keys.toList.take i = ks
  induction ks using List.reverseRecOn with
  | nil => exact isLA_blockHalves block
  | append_singleton ks k ih => rw [List.foldl_append]; exact isLA_feistel ih k

end Sys2Proof.Machine
end

