-- ==== Sys2Proof/Laws/State.lean ====
section
/-! SUPPORT. One lemma per field per named update of State, each true by unfolding, so that no proof unfolds a record update. -/

namespace Sys2Proof.Machine

/-! ### The three phases are different, and none is the code 3 -/

@[simp] theorem phaseIdle_ne_phaseKs : phaseIdle ≠ phaseKs := by decide
@[simp] theorem phaseIdle_ne_phaseEnc : phaseIdle ≠ phaseEnc := by decide
@[simp] theorem phaseIdle_ne_three : phaseIdle ≠ 3#2 := by decide
@[simp] theorem phaseKs_ne_phaseIdle : phaseKs ≠ phaseIdle := by decide
@[simp] theorem phaseKs_ne_phaseEnc : phaseKs ≠ phaseEnc := by decide
@[simp] theorem phaseKs_ne_three : phaseKs ≠ 3#2 := by decide
@[simp] theorem phaseEnc_ne_phaseIdle : phaseEnc ≠ phaseIdle := by decide
@[simp] theorem phaseEnc_ne_phaseKs : phaseEnc ≠ phaseKs := by decide
@[simp] theorem phaseEnc_ne_three : phaseEnc ≠ 3#2 := by decide

variable (s : State)

/-! ### State.writeKey -/

@[simp] theorem State.writeKey_key (v : Word) : (s.writeKey v).key = v := rfl
@[simp] theorem State.writeKey_din (v : Word) : (s.writeKey v).din = s.din := rfl
@[simp] theorem State.writeKey_dout (v : Word) : (s.writeKey v).dout = s.dout := rfl
@[simp] theorem State.writeKey_l (v : Word) : (s.writeKey v).l = s.l := rfl
@[simp] theorem State.writeKey_r (v : Word) : (s.writeKey v).r = s.r := rfl
@[simp] theorem State.writeKey_c (v : Word) : (s.writeKey v).c = s.c := rfl
@[simp] theorem State.writeKey_d (v : Word) : (s.writeKey v).d = s.d := rfl
@[simp] theorem State.writeKey_rk (v : Word) : (s.writeKey v).rk = s.rk := rfl
@[simp] theorem State.writeKey_phase (v : Word) : (s.writeKey v).phase = s.phase := rfl
@[simp] theorem State.writeKey_rnd (v : Word) : (s.writeKey v).rnd = s.rnd := rfl
@[simp] theorem State.writeKey_kvalid (v : Word) : (s.writeKey v).kvalid = s.kvalid := rfl
@[simp] theorem State.writeKey_dvalid (v : Word) : (s.writeKey v).dvalid = s.dvalid := rfl
@[simp] theorem State.writeKey_eNokey (v : Word) : (s.writeKey v).eNokey = s.eNokey := rfl
@[simp] theorem State.writeKey_eBusy (v : Word) : (s.writeKey v).eBusy = s.eBusy := rfl
@[simp] theorem State.writeKey_eIllcmd (v : Word) : (s.writeKey v).eIllcmd = s.eIllcmd := rfl
@[simp] theorem State.writeKey_eAcc (v : Word) : (s.writeKey v).eAcc = s.eAcc := rfl
@[simp] theorem State.writeKey_returned (v : Word) : (s.writeKey v).returned = s.returned := rfl
@[simp] theorem State.writeKey_pending (v : Word) : (s.writeKey v).pending = s.pending := rfl

/-! ### State.writeDin -/

@[simp] theorem State.writeDin_key (v : Word) : (s.writeDin v).key = s.key := rfl
@[simp] theorem State.writeDin_din (v : Word) : (s.writeDin v).din = v := rfl
@[simp] theorem State.writeDin_dout (v : Word) : (s.writeDin v).dout = s.dout := rfl
@[simp] theorem State.writeDin_l (v : Word) : (s.writeDin v).l = s.l := rfl
@[simp] theorem State.writeDin_r (v : Word) : (s.writeDin v).r = s.r := rfl
@[simp] theorem State.writeDin_c (v : Word) : (s.writeDin v).c = s.c := rfl
@[simp] theorem State.writeDin_d (v : Word) : (s.writeDin v).d = s.d := rfl
@[simp] theorem State.writeDin_rk (v : Word) : (s.writeDin v).rk = s.rk := rfl
@[simp] theorem State.writeDin_phase (v : Word) : (s.writeDin v).phase = s.phase := rfl
@[simp] theorem State.writeDin_rnd (v : Word) : (s.writeDin v).rnd = s.rnd := rfl
@[simp] theorem State.writeDin_kvalid (v : Word) : (s.writeDin v).kvalid = s.kvalid := rfl
@[simp] theorem State.writeDin_dvalid (v : Word) : (s.writeDin v).dvalid = s.dvalid := rfl
@[simp] theorem State.writeDin_eNokey (v : Word) : (s.writeDin v).eNokey = s.eNokey := rfl
@[simp] theorem State.writeDin_eBusy (v : Word) : (s.writeDin v).eBusy = s.eBusy := rfl
@[simp] theorem State.writeDin_eIllcmd (v : Word) : (s.writeDin v).eIllcmd = s.eIllcmd := rfl
@[simp] theorem State.writeDin_eAcc (v : Word) : (s.writeDin v).eAcc = s.eAcc := rfl
@[simp] theorem State.writeDin_returned (v : Word) : (s.writeDin v).returned = s.returned := rfl
@[simp] theorem State.writeDin_pending (v : Word) : (s.writeDin v).pending = s.pending := rfl

/-! ### State.writeDout -/

@[simp] theorem State.writeDout_key (v : Word) : (s.writeDout v).key = s.key := rfl
@[simp] theorem State.writeDout_din (v : Word) : (s.writeDout v).din = s.din := rfl
@[simp] theorem State.writeDout_dout (v : Word) : (s.writeDout v).dout = v := rfl
@[simp] theorem State.writeDout_l (v : Word) : (s.writeDout v).l = s.l := rfl
@[simp] theorem State.writeDout_r (v : Word) : (s.writeDout v).r = s.r := rfl
@[simp] theorem State.writeDout_c (v : Word) : (s.writeDout v).c = s.c := rfl
@[simp] theorem State.writeDout_d (v : Word) : (s.writeDout v).d = s.d := rfl
@[simp] theorem State.writeDout_rk (v : Word) : (s.writeDout v).rk = s.rk := rfl
@[simp] theorem State.writeDout_phase (v : Word) : (s.writeDout v).phase = s.phase := rfl
@[simp] theorem State.writeDout_rnd (v : Word) : (s.writeDout v).rnd = s.rnd := rfl
@[simp] theorem State.writeDout_kvalid (v : Word) : (s.writeDout v).kvalid = s.kvalid := rfl
@[simp] theorem State.writeDout_dvalid (v : Word) : (s.writeDout v).dvalid = s.dvalid := rfl
@[simp] theorem State.writeDout_eNokey (v : Word) : (s.writeDout v).eNokey = s.eNokey := rfl
@[simp] theorem State.writeDout_eBusy (v : Word) : (s.writeDout v).eBusy = s.eBusy := rfl
@[simp] theorem State.writeDout_eIllcmd (v : Word) : (s.writeDout v).eIllcmd = s.eIllcmd := rfl
@[simp] theorem State.writeDout_eAcc (v : Word) : (s.writeDout v).eAcc = s.eAcc := rfl
@[simp] theorem State.writeDout_returned (v : Word) : (s.writeDout v).returned = s.returned := rfl
@[simp] theorem State.writeDout_pending (v : Word) : (s.writeDout v).pending = s.pending := rfl

/-! ### State.writeLR -/

@[simp] theorem State.writeLR_key (a b : Word) : (s.writeLR a b).key = s.key := rfl
@[simp] theorem State.writeLR_din (a b : Word) : (s.writeLR a b).din = s.din := rfl
@[simp] theorem State.writeLR_dout (a b : Word) : (s.writeLR a b).dout = s.dout := rfl
@[simp] theorem State.writeLR_l (a b : Word) : (s.writeLR a b).l = top 32 a := rfl
@[simp] theorem State.writeLR_r (a b : Word) : (s.writeLR a b).r = top 32 b := rfl
@[simp] theorem State.writeLR_c (a b : Word) : (s.writeLR a b).c = s.c := rfl
@[simp] theorem State.writeLR_d (a b : Word) : (s.writeLR a b).d = s.d := rfl
@[simp] theorem State.writeLR_rk (a b : Word) : (s.writeLR a b).rk = s.rk := rfl
@[simp] theorem State.writeLR_phase (a b : Word) : (s.writeLR a b).phase = s.phase := rfl
@[simp] theorem State.writeLR_rnd (a b : Word) : (s.writeLR a b).rnd = s.rnd := rfl
@[simp] theorem State.writeLR_kvalid (a b : Word) : (s.writeLR a b).kvalid = s.kvalid := rfl
@[simp] theorem State.writeLR_dvalid (a b : Word) : (s.writeLR a b).dvalid = s.dvalid := rfl
@[simp] theorem State.writeLR_eNokey (a b : Word) : (s.writeLR a b).eNokey = s.eNokey := rfl
@[simp] theorem State.writeLR_eBusy (a b : Word) : (s.writeLR a b).eBusy = s.eBusy := rfl
@[simp] theorem State.writeLR_eIllcmd (a b : Word) : (s.writeLR a b).eIllcmd = s.eIllcmd := rfl
@[simp] theorem State.writeLR_eAcc (a b : Word) : (s.writeLR a b).eAcc = s.eAcc := rfl
@[simp] theorem State.writeLR_returned (a b : Word) : (s.writeLR a b).returned = s.returned := rfl
@[simp] theorem State.writeLR_pending (a b : Word) : (s.writeLR a b).pending = s.pending := rfl

/-! ### State.writeCD -/

@[simp] theorem State.writeCD_key (a b : Word) : (s.writeCD a b).key = s.key := rfl
@[simp] theorem State.writeCD_din (a b : Word) : (s.writeCD a b).din = s.din := rfl
@[simp] theorem State.writeCD_dout (a b : Word) : (s.writeCD a b).dout = s.dout := rfl
@[simp] theorem State.writeCD_l (a b : Word) : (s.writeCD a b).l = s.l := rfl
@[simp] theorem State.writeCD_r (a b : Word) : (s.writeCD a b).r = s.r := rfl
@[simp] theorem State.writeCD_c (a b : Word) : (s.writeCD a b).c = top 28 a := rfl
@[simp] theorem State.writeCD_d (a b : Word) : (s.writeCD a b).d = top 28 b := rfl
@[simp] theorem State.writeCD_rk (a b : Word) : (s.writeCD a b).rk = s.rk := rfl
@[simp] theorem State.writeCD_phase (a b : Word) : (s.writeCD a b).phase = s.phase := rfl
@[simp] theorem State.writeCD_rnd (a b : Word) : (s.writeCD a b).rnd = s.rnd := rfl
@[simp] theorem State.writeCD_kvalid (a b : Word) : (s.writeCD a b).kvalid = s.kvalid := rfl
@[simp] theorem State.writeCD_dvalid (a b : Word) : (s.writeCD a b).dvalid = s.dvalid := rfl
@[simp] theorem State.writeCD_eNokey (a b : Word) : (s.writeCD a b).eNokey = s.eNokey := rfl
@[simp] theorem State.writeCD_eBusy (a b : Word) : (s.writeCD a b).eBusy = s.eBusy := rfl
@[simp] theorem State.writeCD_eIllcmd (a b : Word) : (s.writeCD a b).eIllcmd = s.eIllcmd := rfl
@[simp] theorem State.writeCD_eAcc (a b : Word) : (s.writeCD a b).eAcc = s.eAcc := rfl
@[simp] theorem State.writeCD_returned (a b : Word) : (s.writeCD a b).returned = s.returned := rfl
@[simp] theorem State.writeCD_pending (a b : Word) : (s.writeCD a b).pending = s.pending := rfl

/-! ### State.writeRk -/

@[simp] theorem State.writeRk_key (i : BitVec 4) (v : Word) : (s.writeRk i v).key = s.key := rfl
@[simp] theorem State.writeRk_din (i : BitVec 4) (v : Word) : (s.writeRk i v).din = s.din := rfl
@[simp] theorem State.writeRk_dout (i : BitVec 4) (v : Word) : (s.writeRk i v).dout = s.dout := rfl
@[simp] theorem State.writeRk_l (i : BitVec 4) (v : Word) : (s.writeRk i v).l = s.l := rfl
@[simp] theorem State.writeRk_r (i : BitVec 4) (v : Word) : (s.writeRk i v).r = s.r := rfl
@[simp] theorem State.writeRk_c (i : BitVec 4) (v : Word) : (s.writeRk i v).c = s.c := rfl
@[simp] theorem State.writeRk_d (i : BitVec 4) (v : Word) : (s.writeRk i v).d = s.d := rfl
@[simp] theorem State.writeRk_rk (i : BitVec 4) (v : Word) : (s.writeRk i v).rk = s.rk.set i.toNat (top 48 v) i.isLt := rfl
@[simp] theorem State.writeRk_phase (i : BitVec 4) (v : Word) : (s.writeRk i v).phase = s.phase := rfl
@[simp] theorem State.writeRk_rnd (i : BitVec 4) (v : Word) : (s.writeRk i v).rnd = s.rnd := rfl
@[simp] theorem State.writeRk_kvalid (i : BitVec 4) (v : Word) : (s.writeRk i v).kvalid = s.kvalid := rfl
@[simp] theorem State.writeRk_dvalid (i : BitVec 4) (v : Word) : (s.writeRk i v).dvalid = s.dvalid := rfl
@[simp] theorem State.writeRk_eNokey (i : BitVec 4) (v : Word) : (s.writeRk i v).eNokey = s.eNokey := rfl
@[simp] theorem State.writeRk_eBusy (i : BitVec 4) (v : Word) : (s.writeRk i v).eBusy = s.eBusy := rfl
@[simp] theorem State.writeRk_eIllcmd (i : BitVec 4) (v : Word) : (s.writeRk i v).eIllcmd = s.eIllcmd := rfl
@[simp] theorem State.writeRk_eAcc (i : BitVec 4) (v : Word) : (s.writeRk i v).eAcc = s.eAcc := rfl
@[simp] theorem State.writeRk_returned (i : BitVec 4) (v : Word) : (s.writeRk i v).returned = s.returned := rfl
@[simp] theorem State.writeRk_pending (i : BitVec 4) (v : Word) : (s.writeRk i v).pending = s.pending := rfl

/-! ### State.setSeq -/

@[simp] theorem State.setSeq_key (p : BitVec 2) (n : BitVec 5) : (s.setSeq p n).key = s.key := rfl
@[simp] theorem State.setSeq_din (p : BitVec 2) (n : BitVec 5) : (s.setSeq p n).din = s.din := rfl
@[simp] theorem State.setSeq_dout (p : BitVec 2) (n : BitVec 5) : (s.setSeq p n).dout = s.dout := rfl
@[simp] theorem State.setSeq_l (p : BitVec 2) (n : BitVec 5) : (s.setSeq p n).l = s.l := rfl
@[simp] theorem State.setSeq_r (p : BitVec 2) (n : BitVec 5) : (s.setSeq p n).r = s.r := rfl
@[simp] theorem State.setSeq_c (p : BitVec 2) (n : BitVec 5) : (s.setSeq p n).c = s.c := rfl
@[simp] theorem State.setSeq_d (p : BitVec 2) (n : BitVec 5) : (s.setSeq p n).d = s.d := rfl
@[simp] theorem State.setSeq_rk (p : BitVec 2) (n : BitVec 5) : (s.setSeq p n).rk = s.rk := rfl
@[simp] theorem State.setSeq_phase (p : BitVec 2) (n : BitVec 5) : (s.setSeq p n).phase = p := rfl
@[simp] theorem State.setSeq_rnd (p : BitVec 2) (n : BitVec 5) : (s.setSeq p n).rnd = n := rfl
@[simp] theorem State.setSeq_kvalid (p : BitVec 2) (n : BitVec 5) : (s.setSeq p n).kvalid = s.kvalid := rfl
@[simp] theorem State.setSeq_dvalid (p : BitVec 2) (n : BitVec 5) : (s.setSeq p n).dvalid = s.dvalid := rfl
@[simp] theorem State.setSeq_eNokey (p : BitVec 2) (n : BitVec 5) : (s.setSeq p n).eNokey = s.eNokey := rfl
@[simp] theorem State.setSeq_eBusy (p : BitVec 2) (n : BitVec 5) : (s.setSeq p n).eBusy = s.eBusy := rfl
@[simp] theorem State.setSeq_eIllcmd (p : BitVec 2) (n : BitVec 5) : (s.setSeq p n).eIllcmd = s.eIllcmd := rfl
@[simp] theorem State.setSeq_eAcc (p : BitVec 2) (n : BitVec 5) : (s.setSeq p n).eAcc = s.eAcc := rfl
@[simp] theorem State.setSeq_returned (p : BitVec 2) (n : BitVec 5) : (s.setSeq p n).returned = s.returned := rfl
@[simp] theorem State.setSeq_pending (p : BitVec 2) (n : BitVec 5) : (s.setSeq p n).pending = s.pending := rfl

/-! ### State.setKvalid -/

@[simp] theorem State.setKvalid_key (b : Bool) : (s.setKvalid b).key = s.key := rfl
@[simp] theorem State.setKvalid_din (b : Bool) : (s.setKvalid b).din = s.din := rfl
@[simp] theorem State.setKvalid_dout (b : Bool) : (s.setKvalid b).dout = s.dout := rfl
@[simp] theorem State.setKvalid_l (b : Bool) : (s.setKvalid b).l = s.l := rfl
@[simp] theorem State.setKvalid_r (b : Bool) : (s.setKvalid b).r = s.r := rfl
@[simp] theorem State.setKvalid_c (b : Bool) : (s.setKvalid b).c = s.c := rfl
@[simp] theorem State.setKvalid_d (b : Bool) : (s.setKvalid b).d = s.d := rfl
@[simp] theorem State.setKvalid_rk (b : Bool) : (s.setKvalid b).rk = s.rk := rfl
@[simp] theorem State.setKvalid_phase (b : Bool) : (s.setKvalid b).phase = s.phase := rfl
@[simp] theorem State.setKvalid_rnd (b : Bool) : (s.setKvalid b).rnd = s.rnd := rfl
@[simp] theorem State.setKvalid_kvalid (b : Bool) : (s.setKvalid b).kvalid = b := rfl
@[simp] theorem State.setKvalid_dvalid (b : Bool) : (s.setKvalid b).dvalid = s.dvalid := rfl
@[simp] theorem State.setKvalid_eNokey (b : Bool) : (s.setKvalid b).eNokey = s.eNokey := rfl
@[simp] theorem State.setKvalid_eBusy (b : Bool) : (s.setKvalid b).eBusy = s.eBusy := rfl
@[simp] theorem State.setKvalid_eIllcmd (b : Bool) : (s.setKvalid b).eIllcmd = s.eIllcmd := rfl
@[simp] theorem State.setKvalid_eAcc (b : Bool) : (s.setKvalid b).eAcc = s.eAcc := rfl
@[simp] theorem State.setKvalid_returned (b : Bool) : (s.setKvalid b).returned = s.returned := rfl
@[simp] theorem State.setKvalid_pending (b : Bool) : (s.setKvalid b).pending = s.pending := rfl

/-! ### State.setDvalid -/

@[simp] theorem State.setDvalid_key (b : Bool) : (s.setDvalid b).key = s.key := rfl
@[simp] theorem State.setDvalid_din (b : Bool) : (s.setDvalid b).din = s.din := rfl
@[simp] theorem State.setDvalid_dout (b : Bool) : (s.setDvalid b).dout = s.dout := rfl
@[simp] theorem State.setDvalid_l (b : Bool) : (s.setDvalid b).l = s.l := rfl
@[simp] theorem State.setDvalid_r (b : Bool) : (s.setDvalid b).r = s.r := rfl
@[simp] theorem State.setDvalid_c (b : Bool) : (s.setDvalid b).c = s.c := rfl
@[simp] theorem State.setDvalid_d (b : Bool) : (s.setDvalid b).d = s.d := rfl
@[simp] theorem State.setDvalid_rk (b : Bool) : (s.setDvalid b).rk = s.rk := rfl
@[simp] theorem State.setDvalid_phase (b : Bool) : (s.setDvalid b).phase = s.phase := rfl
@[simp] theorem State.setDvalid_rnd (b : Bool) : (s.setDvalid b).rnd = s.rnd := rfl
@[simp] theorem State.setDvalid_kvalid (b : Bool) : (s.setDvalid b).kvalid = s.kvalid := rfl
@[simp] theorem State.setDvalid_dvalid (b : Bool) : (s.setDvalid b).dvalid = b := rfl
@[simp] theorem State.setDvalid_eNokey (b : Bool) : (s.setDvalid b).eNokey = s.eNokey := rfl
@[simp] theorem State.setDvalid_eBusy (b : Bool) : (s.setDvalid b).eBusy = s.eBusy := rfl
@[simp] theorem State.setDvalid_eIllcmd (b : Bool) : (s.setDvalid b).eIllcmd = s.eIllcmd := rfl
@[simp] theorem State.setDvalid_eAcc (b : Bool) : (s.setDvalid b).eAcc = s.eAcc := rfl
@[simp] theorem State.setDvalid_returned (b : Bool) : (s.setDvalid b).returned = s.returned := rfl
@[simp] theorem State.setDvalid_pending (b : Bool) : (s.setDvalid b).pending = s.pending := rfl

/-! ### State.answer -/

@[simp] theorem State.answer_key (v : Word) : (s.answer v).key = s.key := rfl
@[simp] theorem State.answer_din (v : Word) : (s.answer v).din = s.din := rfl
@[simp] theorem State.answer_dout (v : Word) : (s.answer v).dout = s.dout := rfl
@[simp] theorem State.answer_l (v : Word) : (s.answer v).l = s.l := rfl
@[simp] theorem State.answer_r (v : Word) : (s.answer v).r = s.r := rfl
@[simp] theorem State.answer_c (v : Word) : (s.answer v).c = s.c := rfl
@[simp] theorem State.answer_d (v : Word) : (s.answer v).d = s.d := rfl
@[simp] theorem State.answer_rk (v : Word) : (s.answer v).rk = s.rk := rfl
@[simp] theorem State.answer_phase (v : Word) : (s.answer v).phase = s.phase := rfl
@[simp] theorem State.answer_rnd (v : Word) : (s.answer v).rnd = s.rnd := rfl
@[simp] theorem State.answer_kvalid (v : Word) : (s.answer v).kvalid = s.kvalid := rfl
@[simp] theorem State.answer_dvalid (v : Word) : (s.answer v).dvalid = s.dvalid := rfl
@[simp] theorem State.answer_eNokey (v : Word) : (s.answer v).eNokey = s.eNokey := rfl
@[simp] theorem State.answer_eBusy (v : Word) : (s.answer v).eBusy = s.eBusy := rfl
@[simp] theorem State.answer_eIllcmd (v : Word) : (s.answer v).eIllcmd = s.eIllcmd := rfl
@[simp] theorem State.answer_eAcc (v : Word) : (s.answer v).eAcc = s.eAcc := rfl
@[simp] theorem State.answer_returned (v : Word) : (s.answer v).returned = some v := rfl
@[simp] theorem State.answer_pending (v : Word) : (s.answer v).pending = s.pending := rfl

/-! ### State.advance -/

@[simp] theorem State.advance_key (rest : List Action) : (s.advance rest).key = s.key := rfl
@[simp] theorem State.advance_din (rest : List Action) : (s.advance rest).din = s.din := rfl
@[simp] theorem State.advance_dout (rest : List Action) : (s.advance rest).dout = s.dout := rfl
@[simp] theorem State.advance_l (rest : List Action) : (s.advance rest).l = s.l := rfl
@[simp] theorem State.advance_r (rest : List Action) : (s.advance rest).r = s.r := rfl
@[simp] theorem State.advance_c (rest : List Action) : (s.advance rest).c = s.c := rfl
@[simp] theorem State.advance_d (rest : List Action) : (s.advance rest).d = s.d := rfl
@[simp] theorem State.advance_rk (rest : List Action) : (s.advance rest).rk = s.rk := rfl
@[simp] theorem State.advance_phase (rest : List Action) : (s.advance rest).phase = s.phase := rfl
@[simp] theorem State.advance_rnd (rest : List Action) : (s.advance rest).rnd = s.rnd := rfl
@[simp] theorem State.advance_kvalid (rest : List Action) : (s.advance rest).kvalid = s.kvalid := rfl
@[simp] theorem State.advance_dvalid (rest : List Action) : (s.advance rest).dvalid = s.dvalid := rfl
@[simp] theorem State.advance_eNokey (rest : List Action) : (s.advance rest).eNokey = s.eNokey := rfl
@[simp] theorem State.advance_eBusy (rest : List Action) : (s.advance rest).eBusy = s.eBusy := rfl
@[simp] theorem State.advance_eIllcmd (rest : List Action) : (s.advance rest).eIllcmd = s.eIllcmd := rfl
@[simp] theorem State.advance_eAcc (rest : List Action) : (s.advance rest).eAcc = s.eAcc := rfl
@[simp] theorem State.advance_returned (rest : List Action) : (s.advance rest).returned = none := rfl
@[simp] theorem State.advance_pending (rest : List Action) : (s.advance rest).pending = rest := rfl

/-! ### State.raise: one flag is set, everything else is as before -/

@[simp] theorem State.raise_key (e : ErrorFlag) : (s.raise e).key = s.key := by cases e <;> rfl
@[simp] theorem State.raise_din (e : ErrorFlag) : (s.raise e).din = s.din := by cases e <;> rfl
@[simp] theorem State.raise_dout (e : ErrorFlag) : (s.raise e).dout = s.dout := by cases e <;> rfl
@[simp] theorem State.raise_l (e : ErrorFlag) : (s.raise e).l = s.l := by cases e <;> rfl
@[simp] theorem State.raise_r (e : ErrorFlag) : (s.raise e).r = s.r := by cases e <;> rfl
@[simp] theorem State.raise_c (e : ErrorFlag) : (s.raise e).c = s.c := by cases e <;> rfl
@[simp] theorem State.raise_d (e : ErrorFlag) : (s.raise e).d = s.d := by cases e <;> rfl
@[simp] theorem State.raise_rk (e : ErrorFlag) : (s.raise e).rk = s.rk := by cases e <;> rfl
@[simp] theorem State.raise_phase (e : ErrorFlag) : (s.raise e).phase = s.phase := by cases e <;> rfl
@[simp] theorem State.raise_rnd (e : ErrorFlag) : (s.raise e).rnd = s.rnd := by cases e <;> rfl
@[simp] theorem State.raise_kvalid (e : ErrorFlag) : (s.raise e).kvalid = s.kvalid := by cases e <;> rfl
@[simp] theorem State.raise_dvalid (e : ErrorFlag) : (s.raise e).dvalid = s.dvalid := by cases e <;> rfl
@[simp] theorem State.raise_eNokey (e : ErrorFlag) : (s.raise e).eNokey = (s.eNokey || decide (e = .nokey)) := by cases e <;> simp [State.raise]
@[simp] theorem State.raise_eBusy (e : ErrorFlag) : (s.raise e).eBusy = (s.eBusy || decide (e = .busy)) := by cases e <;> simp [State.raise]
@[simp] theorem State.raise_eIllcmd (e : ErrorFlag) : (s.raise e).eIllcmd = (s.eIllcmd || decide (e = .illcmd)) := by cases e <;> simp [State.raise]
@[simp] theorem State.raise_eAcc (e : ErrorFlag) : (s.raise e).eAcc = (s.eAcc || decide (e = .acc)) := by cases e <;> simp [State.raise]
@[simp] theorem State.raise_returned (e : ErrorFlag) : (s.raise e).returned = s.returned := by cases e <;> rfl
@[simp] theorem State.raise_pending (e : ErrorFlag) : (s.raise e).pending = s.pending := by cases e <;> rfl

/-! ### State.resetWith -/

@[simp] theorem State.resetWith_key (x : ResetData) : (State.resetWith x).key = x.key := rfl
@[simp] theorem State.resetWith_din (x : ResetData) : (State.resetWith x).din = x.din := rfl
@[simp] theorem State.resetWith_dout (x : ResetData) : (State.resetWith x).dout = x.dout := rfl
@[simp] theorem State.resetWith_l (x : ResetData) : (State.resetWith x).l = x.l := rfl
@[simp] theorem State.resetWith_r (x : ResetData) : (State.resetWith x).r = x.r := rfl
@[simp] theorem State.resetWith_c (x : ResetData) : (State.resetWith x).c = x.c := rfl
@[simp] theorem State.resetWith_d (x : ResetData) : (State.resetWith x).d = x.d := rfl
@[simp] theorem State.resetWith_rk (x : ResetData) : (State.resetWith x).rk = x.rk := rfl
@[simp] theorem State.resetWith_phase (x : ResetData) : (State.resetWith x).phase = phaseIdle := rfl
@[simp] theorem State.resetWith_rnd (x : ResetData) : (State.resetWith x).rnd = 0#5 := rfl
@[simp] theorem State.resetWith_kvalid (x : ResetData) : (State.resetWith x).kvalid = false := rfl
@[simp] theorem State.resetWith_dvalid (x : ResetData) : (State.resetWith x).dvalid = false := rfl
@[simp] theorem State.resetWith_eNokey (x : ResetData) : (State.resetWith x).eNokey = false := rfl
@[simp] theorem State.resetWith_eBusy (x : ResetData) : (State.resetWith x).eBusy = false := rfl
@[simp] theorem State.resetWith_eIllcmd (x : ResetData) : (State.resetWith x).eIllcmd = false := rfl
@[simp] theorem State.resetWith_eAcc (x : ResetData) : (State.resetWith x).eAcc = false := rfl
@[simp] theorem State.resetWith_returned (x : ResetData) : (State.resetWith x).returned = none := rfl
@[simp] theorem State.resetWith_pending (x : ResetData) : (State.resetWith x).pending = [] := rfl

/-! ### Narrow registers as Words -/

@[simp] theorem State.writeLR_lWord (a b : Word) : (s.writeLR a b).lWord = la (top 32 a) := rfl
@[simp] theorem State.writeLR_rWord (a b : Word) : (s.writeLR a b).rWord = la (top 32 b) := rfl
@[simp] theorem State.writeCD_cWord (a b : Word) : (s.writeCD a b).cWord = la (top 28 a) := rfl
@[simp] theorem State.writeCD_dWord (a b : Word) : (s.writeCD a b).dWord = la (top 28 b) := rfl

/-- A read of the round-key store after a write: the entry written, or what was there. -/
theorem State.writeRk_rkWord (i j : BitVec 4) (v : Word) :
    (s.writeRk i v).rkWord j = if i = j then la (top 48 v) else s.rkWord j := by
  simp only [State.rkWord, State.writeRk, Vector.getElem_set, BitVec.toNat_inj]
  split <;> rfl

end Sys2Proof.Machine
end

