-- ==== Sys2Proof/Laws/Ops.lean ====
section
/-! SUPPORT. One lemma per shared operation that says everything it can do, and the sequencer word's fields. -/

namespace Sys2Proof.Machine

/-! ### Fields of codes -/

theorem extract_append_low {m n : Nat} (a : BitVec m) (b : BitVec n) : (a ++ b).extractLsb' 0 n = b := by
  apply BitVec.eq_of_getLsbD_eq
  intro k hk
  simp [BitVec.getLsbD_append, hk]

theorem extract_append_high {m n : Nat} (a : BitVec m) (b : BitVec n) : (a ++ b).extractLsb' n m = a := by
  apply BitVec.eq_of_getLsbD_eq
  intro k hk
  simp [BitVec.getLsbD_append, hk]

/-- The sequencer word's `PHASE` field. -/
@[simp] theorem State.seq_phase (s : State) : s.seq.extractLsb' 5 2 = s.phase := extract_append_high _ _

/-- The sequencer word's `RND` field. -/
@[simp] theorem State.seq_rnd (s : State) : s.seq.extractLsb' 0 5 = s.rnd := extract_append_low _ _

theorem append_inj {m n : Nat} {a a' : BitVec m} {b b' : BitVec n} (h : a ++ b = a' ++ b') : a = a' ∧ b = b' :=
  ⟨by rw [← extract_append_high a b, h, extract_append_high], by rw [← extract_append_low a b, h, extract_append_low]⟩

/-- `SEQ = 01 0rrrr` says `PHASE = KS` and `RND = r`. -/
theorem State.seq_eq_ksRound (s : State) (r : BitVec 4) :
    s.seq = 0b010#3 ++ r ↔ s.phase = phaseKs ∧ s.rnd = r.setWidth 5 := by
  have e : (0b010#3 ++ r : BitVec 7) = (phaseKs ++ (r.setWidth 5 : BitVec 5) : BitVec 7) := by
    revert r; decide
  constructor
  · intro h; exact append_inj (h.trans e)
  · rintro ⟨h1, h2⟩; rw [State.seq, h1, h2]; exact e.symm

/-- `SEQ = 10 0rrrr` says `PHASE = ENC` and `RND = r`. -/
theorem State.seq_eq_encRound (s : State) (r : BitVec 4) :
    s.seq = 0b100#3 ++ r ↔ s.phase = phaseEnc ∧ s.rnd = r.setWidth 5 := by
  have e : (0b100#3 ++ r : BitVec 7) = (phaseEnc ++ (r.setWidth 5 : BitVec 5) : BitVec 7) := by
    revert r; decide
  constructor
  · intro h; exact append_inj (h.trans e)
  · rintro ⟨h1, h2⟩; rw [State.seq, h1, h2]; exact e.symm

/-- `SEQ = 10 10000` says `PHASE = ENC` and `RND = 16`. -/
theorem State.seq_eq_encFinal (s : State) : s.seq = 0b1010000#7 ↔ s.phase = phaseEnc ∧ s.rnd = 16#5 := by
  have e : (0b1010000#7 : BitVec 7) = (phaseEnc ++ 16#5 : BitVec 7) := by decide
  constructor
  · intro h; exact append_inj (h.trans e)
  · rintro ⟨h1, h2⟩; rw [State.seq, h1, h2]; exact e.symm

/-! ### The command decoder -/

/-- Everything a command word can do (30_encoding.md R101; 60_exceptions.md R218). -/
theorem commandDecoder_cases (opc : BitVec 8) (s : State) :
    (s.phase ≠ phaseIdle ∧ commandDecoder opc s = s.raise .busy) ∨
    (s.phase = phaseIdle ∧ opc = 0x01#8 ∧ commandDecoder opc s = ksInit s) ∨
    (s.phase = phaseIdle ∧ opc = 0x02#8 ∧ s.kvalid = true ∧ commandDecoder opc s = encInit s) ∨
    (s.phase = phaseIdle ∧ opc = 0x02#8 ∧ s.kvalid = false ∧ commandDecoder opc s = s.raise .nokey) ∨
    (s.phase = phaseIdle ∧ opc ≠ 0x01#8 ∧ opc ≠ 0x02#8 ∧ commandDecoder opc s = s.raise .illcmd) := by
  unfold commandDecoder
  by_cases hp : s.phase = phaseIdle
  · by_cases h1 : opc = 0x01#8
    · simp [hp, h1]
    · by_cases h2 : opc = 0x02#8
      · cases hk : s.kvalid <;> simp [hp, h2]
      · simp [hp, h1, h2]
  · simp [hp]

/-! ### What one instruction can do -/

/-- Every way an instruction's meaning can answer a next state: `Effect s t` says what `t` is. -/
inductive Effect (s : State) : State → Prop where
  | answered (v : Word) : Effect s (s.answer v)
  | readRefused : Effect s ((s.raise .acc).answer 0#64)
  | keyWritten (v : Word) : Effect s (s.writeKey v)
  | dinWritten (v : Word) : Effect s (s.writeDin v)
  | flagged (e : ErrorFlag) : Effect s (s.raise e)
  | keygenAccepted (idle : s.phase = phaseIdle) : Effect s (ksInit s)
  | encryptAccepted (idle : s.phase = phaseIdle) (schedule : s.kvalid = true) : Effect s (encInit s)
  | ksRound (r : BitVec 4) (selected : s.phase = phaseKs) (round : s.rnd = r.setWidth 5) : Effect s (ksRoundEffect r s)
  | encRound (r : BitVec 4) (selected : s.phase = phaseEnc) (round : s.rnd = r.setWidth 5) : Effect s (encRoundEffect r s)
  | encFinal (selected : s.phase = phaseEnc) (round : s.rnd = 16#5) : Effect s (encFinalEffect s)

theorem commandDecoder_effect (opc : BitVec 8) (s : State) : Effect s (commandDecoder opc s) := by
  rcases commandDecoder_cases opc s with ⟨_, h⟩ | ⟨hp, _, h⟩ | ⟨hp, _, hk, h⟩ | ⟨_, _, _, h⟩ | ⟨_, _, _, h⟩ <;> rw [h]
  exacts [.flagged _, .keygenAccepted hp, .encryptAccepted hp hk, .flagged _, .flagged _]

theorem next_eq {s t : State} (h : (Host.Outcome.next s : Host.Outcome State Fault Refusal) = .next t) : t = s := by
  injection h with h; exact h.symm

/-- The inversion of `exec`: what a next state can be. -/
theorem exec_effect {i : Instr} {s t : State} (h : exec i s = .next t) : Effect s t := by
  cases i with
  | hostRead idx =>
    simp only [exec, execHostRead] at h
    split at h <;> rw [next_eq h]
    exacts [.answered _, .readRefused]
  | hostWrite idx v =>
    simp only [exec, execHostWrite] at h
    rw [next_eq h]
    split
    · exact .keyWritten _
    split
    · exact .dinWritten _
    split
    exacts [commandDecoder_effect _ _, .flagged _]
  | keygen =>
    simp only [exec, execKeygen] at h
    rw [next_eq h]
    split
    · exact .flagged _
    · rename_i hp; exact .keygenAccepted (not_not.1 hp)
  | encrypt =>
    simp only [exec, execEncrypt] at h
    rw [next_eq h]
    split
    · exact .flagged _
    split
    · exact .flagged _
    · rename_i hp hk; exact .encryptAccepted (not_not.1 hp) (by simpa using hk)
  | ksRound r =>
    simp only [exec, execKsRound] at h
    split at h
    · rename_i hq; rw [next_eq h]
      exact .ksRound r ((s.seq_eq_ksRound r).1 hq).1 ((s.seq_eq_ksRound r).1 hq).2
    · cases h
  | encRound r =>
    simp only [exec, execEncRound] at h
    split at h
    · rename_i hq; rw [next_eq h]
      exact .encRound r ((s.seq_eq_encRound r).1 hq).1 ((s.seq_eq_encRound r).1 hq).2
    · cases h
  | encFinal =>
    simp only [exec, execEncFinal] at h
    split at h
    · rename_i hq; rw [next_eq h]
      exact .encFinal (s.seq_eq_encFinal.1 hq).1 (s.seq_eq_encFinal.1 hq).2
    · cases h
  | permIp v | permFp v | permPc1 v | permPc2 v | permE v | permP v
  | rotl28By1 v | rotl28By2 v =>
    rw [next_eq h]; exact .answered _
  | sbox0 a b | sbox1 a b | sbox2 a b | sbox3 a b | sbox4 a b | sbox5 a b | sbox6 a b | sbox7 a b =>
    rw [next_eq h]; exact .answered _

end Sys2Proof.Machine
end

