-- ==== Sys2Proof/Laws/Rounds.lean ====
section
/-! SUPPORT. What the micro-operations write, register by register, read back as Words, and what they leave. -/

namespace Sys2Proof.Machine

variable (s : State)

/-! ### KS_INIT and ENC_INIT -/

@[simp] theorem ksInit_cWord : (ksInit s).cWord = (keyHalves s.key).1 := la_top (by omega) (isLA_keyHalves s.key).1
@[simp] theorem ksInit_dWord : (ksInit s).dWord = (keyHalves s.key).2 := la_top (by omega) (isLA_keyHalves s.key).2
@[simp] theorem encInit_lWord : (encInit s).lWord = (blockHalves s.din).1 := la_top (by omega) (isLA_blockHalves s.din).1
@[simp] theorem encInit_rWord : (encInit s).rWord = (blockHalves s.din).2 := la_top (by omega) (isLA_blockHalves s.din).2
@[simp] theorem ksInit_key : (ksInit s).key = s.key := rfl
@[simp] theorem ksInit_din : (ksInit s).din = s.din := rfl
@[simp] theorem ksInit_dout : (ksInit s).dout = s.dout := rfl
@[simp] theorem ksInit_l : (ksInit s).l = s.l := rfl
@[simp] theorem ksInit_r : (ksInit s).r = s.r := rfl
@[simp] theorem ksInit_rk : (ksInit s).rk = s.rk := rfl
@[simp] theorem ksInit_phase : (ksInit s).phase = phaseKs := rfl
@[simp] theorem ksInit_rnd : (ksInit s).rnd = 0#5 := rfl
@[simp] theorem ksInit_kvalid : (ksInit s).kvalid = false := rfl
@[simp] theorem ksInit_dvalid : (ksInit s).dvalid = s.dvalid := rfl
@[simp] theorem ksInit_eNokey : (ksInit s).eNokey = s.eNokey := rfl
@[simp] theorem ksInit_eBusy : (ksInit s).eBusy = s.eBusy := rfl
@[simp] theorem ksInit_eIllcmd : (ksInit s).eIllcmd = s.eIllcmd := rfl
@[simp] theorem ksInit_eAcc : (ksInit s).eAcc = s.eAcc := rfl
@[simp] theorem ksInit_returned : (ksInit s).returned = s.returned := rfl
@[simp] theorem ksInit_pending : (ksInit s).pending = s.pending := rfl
@[simp] theorem encInit_key : (encInit s).key = s.key := rfl
@[simp] theorem encInit_din : (encInit s).din = s.din := rfl
@[simp] theorem encInit_dout : (encInit s).dout = s.dout := rfl
@[simp] theorem encInit_c : (encInit s).c = s.c := rfl
@[simp] theorem encInit_d : (encInit s).d = s.d := rfl
@[simp] theorem encInit_rk : (encInit s).rk = s.rk := rfl
@[simp] theorem encInit_phase : (encInit s).phase = phaseEnc := rfl
@[simp] theorem encInit_rnd : (encInit s).rnd = 0#5 := rfl
@[simp] theorem encInit_kvalid : (encInit s).kvalid = s.kvalid := rfl
@[simp] theorem encInit_dvalid : (encInit s).dvalid = false := rfl
@[simp] theorem encInit_eNokey : (encInit s).eNokey = s.eNokey := rfl
@[simp] theorem encInit_eBusy : (encInit s).eBusy = s.eBusy := rfl
@[simp] theorem encInit_eIllcmd : (encInit s).eIllcmd = s.eIllcmd := rfl
@[simp] theorem encInit_eAcc : (encInit s).eAcc = s.eAcc := rfl
@[simp] theorem encInit_returned : (encInit s).returned = s.returned := rfl
@[simp] theorem encInit_pending : (encInit s).pending = s.pending := rfl

/-! ### KS_ROUND -/

theorem round_toNat (r : BitVec 4) : (r.setWidth 5 + 1#5 : BitVec 5).toNat = r.toNat + 1 := by
  revert r; decide

/-- Round 16 is the one with `r = 15`. -/
theorem round_eq_sixteen (r : BitVec 4) : (r.setWidth 5 + 1#5 : BitVec 5) = 16#5 ↔ r = 15#4 := by
  revert r; decide

/-- `RND = r` as a number. -/
theorem rnd_eq_setWidth (n : BitVec 5) (r : BitVec 4) : n = r.setWidth 5 ↔ n.toNat = r.toNat := by
  revert n r; decide

@[simp] theorem ksRoundEffect_phase (r : BitVec 4) :
    (ksRoundEffect r s).phase = if r = 15#4 then phaseIdle else s.phase := by
  simp only [ksRoundEffect, round_eq_sixteen]; split <;> rfl

@[simp] theorem ksRoundEffect_rnd (r : BitVec 4) : (ksRoundEffect r s).rnd = r.setWidth 5 + 1#5 := by
  simp only [ksRoundEffect]; split <;> rfl

@[simp] theorem ksRoundEffect_kvalid (r : BitVec 4) :
    (ksRoundEffect r s).kvalid = if r = 15#4 then true else s.kvalid := by
  simp only [ksRoundEffect, round_eq_sixteen]; split <;> rfl

theorem ksRoundEffect_halves (r : BitVec 4) :
    ((ksRoundEffect r s).cWord, (ksRoundEffect r s).dWord) = rotateHalves (s.cWord, s.dWord) (shiftAmount (r.toNat + 1)) := by
  simp only [ksRoundEffect]
  split <;> exact Prod.ext (la_top (by omega) (isLA_rotl28 _ _)) (la_top (by omega) (isLA_rotl28 _ _))

/-- Only entry `r + 1` of the store is written, with the key of the rotated halves. -/
theorem ksRoundEffect_rkWord (r m : BitVec 4) :
    (ksRoundEffect r s).rkWord m =
      if r = m then permute (join56 (ksRoundEffect r s).cWord (ksRoundEffect r s).dWord) tablePc2 else s.rkWord m := by
  have h := ksRoundEffect_halves s r
  rw [Prod.mk.injEq] at h
  rw [h.1, h.2]
  have key : (ksRoundEffect r s).rkWord m =
      (s.writeRk r (permute (join56 (rotateHalves (s.cWord, s.dWord) (shiftAmount (r.toNat + 1))).1
        (rotateHalves (s.cWord, s.dWord) (shiftAmount (r.toNat + 1))).2) tablePc2)).rkWord m := by
    simp only [ksRoundEffect]; split <;> rfl
  rw [key, State.writeRk_rkWord, la_top (by omega) (isLA_permute _ (by simp) (by omega))]

@[simp] theorem ksRoundEffect_key (r : BitVec 4) : (ksRoundEffect r s).key = s.key := by
  simp only [ksRoundEffect]; split <;> rfl
@[simp] theorem ksRoundEffect_din (r : BitVec 4) : (ksRoundEffect r s).din = s.din := by
  simp only [ksRoundEffect]; split <;> rfl
@[simp] theorem ksRoundEffect_dout (r : BitVec 4) : (ksRoundEffect r s).dout = s.dout := by
  simp only [ksRoundEffect]; split <;> rfl
@[simp] theorem ksRoundEffect_l (r : BitVec 4) : (ksRoundEffect r s).l = s.l := by
  simp only [ksRoundEffect]; split <;> rfl
@[simp] theorem ksRoundEffect_r (r : BitVec 4) : (ksRoundEffect r s).r = s.r := by
  simp only [ksRoundEffect]; split <;> rfl
@[simp] theorem ksRoundEffect_dvalid (r : BitVec 4) : (ksRoundEffect r s).dvalid = s.dvalid := by
  simp only [ksRoundEffect]; split <;> rfl
@[simp] theorem ksRoundEffect_eNokey (r : BitVec 4) : (ksRoundEffect r s).eNokey = s.eNokey := by
  simp only [ksRoundEffect]; split <;> rfl
@[simp] theorem ksRoundEffect_eBusy (r : BitVec 4) : (ksRoundEffect r s).eBusy = s.eBusy := by
  simp only [ksRoundEffect]; split <;> rfl
@[simp] theorem ksRoundEffect_eIllcmd (r : BitVec 4) : (ksRoundEffect r s).eIllcmd = s.eIllcmd := by
  simp only [ksRoundEffect]; split <;> rfl
@[simp] theorem ksRoundEffect_eAcc (r : BitVec 4) : (ksRoundEffect r s).eAcc = s.eAcc := by
  simp only [ksRoundEffect]; split <;> rfl
@[simp] theorem ksRoundEffect_returned (r : BitVec 4) : (ksRoundEffect r s).returned = s.returned := by
  simp only [ksRoundEffect]; split <;> rfl
@[simp] theorem ksRoundEffect_pending (r : BitVec 4) : (ksRoundEffect r s).pending = s.pending := by
  simp only [ksRoundEffect]; split <;> rfl

/-! ### ENC_ROUND -/

@[simp] theorem encRoundEffect_rnd (r : BitVec 4) : (encRoundEffect r s).rnd = r.setWidth 5 + 1#5 := rfl

theorem encRoundEffect_halves (r : BitVec 4) :
    ((encRoundEffect r s).lWord, (encRoundEffect r s).rWord) = feistel (s.lWord, s.rWord) (s.rkWord r) :=
  have h := isLA_feistel (lr := (s.lWord, s.rWord)) ⟨isLA_la (by omega) _, isLA_la (by omega) _⟩ (s.rkWord r)
  Prod.ext (la_top (by omega) h.1) (la_top (by omega) h.2)

@[simp] theorem encRoundEffect_key (r : BitVec 4) : (encRoundEffect r s).key = s.key := rfl
@[simp] theorem encRoundEffect_din (r : BitVec 4) : (encRoundEffect r s).din = s.din := rfl
@[simp] theorem encRoundEffect_dout (r : BitVec 4) : (encRoundEffect r s).dout = s.dout := rfl
@[simp] theorem encRoundEffect_c (r : BitVec 4) : (encRoundEffect r s).c = s.c := rfl
@[simp] theorem encRoundEffect_d (r : BitVec 4) : (encRoundEffect r s).d = s.d := rfl
@[simp] theorem encRoundEffect_rk (r : BitVec 4) : (encRoundEffect r s).rk = s.rk := rfl
@[simp] theorem encRoundEffect_phase (r : BitVec 4) : (encRoundEffect r s).phase = s.phase := rfl
@[simp] theorem encRoundEffect_kvalid (r : BitVec 4) : (encRoundEffect r s).kvalid = s.kvalid := rfl
@[simp] theorem encRoundEffect_dvalid (r : BitVec 4) : (encRoundEffect r s).dvalid = s.dvalid := rfl
@[simp] theorem encRoundEffect_eNokey (r : BitVec 4) : (encRoundEffect r s).eNokey = s.eNokey := rfl
@[simp] theorem encRoundEffect_eBusy (r : BitVec 4) : (encRoundEffect r s).eBusy = s.eBusy := rfl
@[simp] theorem encRoundEffect_eIllcmd (r : BitVec 4) : (encRoundEffect r s).eIllcmd = s.eIllcmd := rfl
@[simp] theorem encRoundEffect_eAcc (r : BitVec 4) : (encRoundEffect r s).eAcc = s.eAcc := rfl
@[simp] theorem encRoundEffect_returned (r : BitVec 4) : (encRoundEffect r s).returned = s.returned := rfl
@[simp] theorem encRoundEffect_pending (r : BitVec 4) : (encRoundEffect r s).pending = s.pending := rfl

/-! ### ENC_FINAL -/

@[simp] theorem encFinalEffect_key : (encFinalEffect s).key = s.key := rfl
@[simp] theorem encFinalEffect_din : (encFinalEffect s).din = s.din := rfl
@[simp] theorem encFinalEffect_dout : (encFinalEffect s).dout = permute (join64 s.rWord s.lWord) tableFp := rfl
@[simp] theorem encFinalEffect_l : (encFinalEffect s).l = s.l := rfl
@[simp] theorem encFinalEffect_r : (encFinalEffect s).r = s.r := rfl
@[simp] theorem encFinalEffect_c : (encFinalEffect s).c = s.c := rfl
@[simp] theorem encFinalEffect_d : (encFinalEffect s).d = s.d := rfl
@[simp] theorem encFinalEffect_rk : (encFinalEffect s).rk = s.rk := rfl
@[simp] theorem encFinalEffect_phase : (encFinalEffect s).phase = phaseIdle := rfl
@[simp] theorem encFinalEffect_rnd : (encFinalEffect s).rnd = s.rnd := rfl
@[simp] theorem encFinalEffect_kvalid : (encFinalEffect s).kvalid = s.kvalid := rfl
@[simp] theorem encFinalEffect_dvalid : (encFinalEffect s).dvalid = true := rfl
@[simp] theorem encFinalEffect_eNokey : (encFinalEffect s).eNokey = s.eNokey := rfl
@[simp] theorem encFinalEffect_eBusy : (encFinalEffect s).eBusy = s.eBusy := rfl
@[simp] theorem encFinalEffect_eIllcmd : (encFinalEffect s).eIllcmd = s.eIllcmd := rfl
@[simp] theorem encFinalEffect_eAcc : (encFinalEffect s).eAcc = s.eAcc := rfl
@[simp] theorem encFinalEffect_returned : (encFinalEffect s).returned = s.returned := rfl
@[simp] theorem encFinalEffect_pending : (encFinalEffect s).pending = s.pending := rfl

end Sys2Proof.Machine
end

