-- ==== Sys2Proof/Laws/Step.lean ====
section
/-! SUPPORT. The inversion of the step: everything one step can do, said once. -/

namespace Sys2Proof.Machine

/-- Everything a sequencer word can select (30_encoding.md R103). -/
theorem decodeSq_cases (q : BitVec 7) :
    (q.extractLsb' 5 2 = phaseIdle ∧ decodeSq q = .error .idleSequencer) ∨
    (∃ r : BitVec 4, q = 0b010#3 ++ r ∧ decodeSq q = .ok (.ksRound r)) ∨
    (∃ r : BitVec 4, q = 0b100#3 ++ r ∧ decodeSq q = .ok (.encRound r)) ∨
    (q = 0b1010000#7 ∧ decodeSq q = .ok .encFinal) ∨
    (q.extractLsb' 5 2 ≠ phaseIdle ∧ (∀ r : BitVec 4, q ≠ 0b010#3 ++ r) ∧ (∀ r : BitVec 4, q ≠ 0b100#3 ++ r) ∧
      q ≠ 0b1010000#7 ∧ decodeSq q = .error (.reservedSequencer q)) := by
  have split7 : q = q.extractLsb' 4 3 ++ q.extractLsb' 0 4 := by revert q; decide
  unfold decodeSq
  by_cases h0 : q.extractLsb' 5 2 = 0b00#2
  · exact .inl ⟨h0, by rw [if_pos h0]⟩
  by_cases h1 : q.extractLsb' 4 3 = 0b010#3
  · exact .inr (.inl ⟨q.extractLsb' 0 4, by rw [← h1]; exact split7, by rw [if_neg h0, if_pos h1]⟩)
  by_cases h2 : q.extractLsb' 4 3 = 0b100#3
  · exact .inr (.inr (.inl ⟨q.extractLsb' 0 4, by rw [← h2]; exact split7, by rw [if_neg h0, if_neg h1, if_pos h2]⟩))
  by_cases h3 : q = 0b1010000#7
  · exact .inr (.inr (.inr (.inl ⟨h3, by rw [if_neg h0, if_neg h1, if_neg h2, if_pos h3]⟩)))
  refine .inr (.inr (.inr (.inr ⟨h0, ?_, ?_, h3, by rw [if_neg h0, if_neg h1, if_neg h2, if_neg h3]⟩)))
  · rintro r rfl; exact h1 (extract_append_high _ _)
  · rintro r rfl; exact h2 (extract_append_high _ _)

/-- The header of a transaction: what it asks of which index. -/
theorem header_cases (h : BitVec 6) :
    (h.getLsbD 5 = false) ∨ (h = 0b100000#6) ∨ (h = 0b100001#6) ∨ (h = 0b100011#6) ∨
    (h.getLsbD 5 = true ∧ h.extractLsb' 0 5 ≠ 0x00#5 ∧ h.extractLsb' 0 5 ≠ 0x01#5 ∧ h.extractLsb' 0 5 ≠ 0x03#5) := by
  revert h; decide

/-- Where the map allows no read (10_state.md R35). -/
theorem hostReadable_eq_none (s : State) (idx : BitVec 5) :
    s.hostReadable idx = none ↔ idx ∈ [0x03#5, 0x05#5, 0x06#5, 0x07#5, 0x0C#5, 0x0D#5, 0x0E#5, 0x0F#5] := by
  have ranges : ∀ x : BitVec 5, x ∈ [0x03#5, 0x05#5, 0x06#5, 0x07#5, 0x0C#5, 0x0D#5, 0x0E#5, 0x0F#5] ↔
      (x ≠ 0x00#5 ∧ x ≠ 0x01#5 ∧ x ≠ 0x02#5 ∧ x ≠ 0x04#5 ∧ x ≠ 0x08#5 ∧ x ≠ 0x09#5 ∧ x ≠ 0x0A#5 ∧ x ≠ 0x0B#5 ∧
        x.getLsbD 4 = false) := by decide
  rw [ranges]
  simp only [State.hostReadable]
  constructor
  · intro h
    repeat' split at h
    all_goals simp_all
  · rintro ⟨h0, h1, h2, h4, h8, h9, hA, hB, hk⟩
    simp only [h0, h1, h2, h4, h8, h9, hA, hB, hk, if_false, Bool.false_eq_true]

/-- Everything a host transaction can do (44_pipeline_and_host.md R196, R197). -/
inductive HostEffect (header : BitVec 6) (data : Word) (s : State) : State → Prop where
  | answered (kind : header.getLsbD 5 = false) (v : Word) : HostEffect header data s (s.answer v)
  | readRefused (kind : header.getLsbD 5 = false) (unreadable : s.hostReadable (header.extractLsb' 0 5) = none) :
      HostEffect header data s ((s.raise .acc).answer 0#64)
  | keyWritten (target : header = 0b100000#6) : HostEffect header data s (s.writeKey data)
  | dinWritten (target : header = 0b100001#6) : HostEffect header data s (s.writeDin data)
  | command (target : header = 0b100011#6) : HostEffect header data s (commandDecoder (data.extractLsb' 0 8) s)
  | writeRefused (kind : header.getLsbD 5 = true) (unwritable : header.extractLsb' 0 5 ≠ 0x00#5 ∧
      header.extractLsb' 0 5 ≠ 0x01#5 ∧ header.extractLsb' 0 5 ≠ 0x03#5) : HostEffect header data s (s.raise .acc)

theorem host_effect {header : BitVec 6} {data : Word} {s t : State} (h : exec (decodeHt header data) s = .next t) :
    HostEffect header data s t := by
  rcases header_cases header with hk | rfl | rfl | rfl | ⟨hk, h0, h1, h3⟩
  · simp only [decodeHt, hk, Bool.false_eq_true, if_false, exec, execHostRead] at h
    split at h <;> rename_i hr <;> rw [next_eq h]
    exacts [.answered hk _, .readRefused hk hr]
  · rw [next_eq h]; exact .keyWritten rfl
  · rw [next_eq h]; exact .dinWritten rfl
  · rw [next_eq h]; exact .command rfl
  · simp only [decodeHt, hk, if_true, exec, execHostWrite, h0, h1, h3, if_false] at h
    rw [next_eq h]; exact .writeRefused hk ⟨h0, h1, h3⟩

/-- The engine moves next, and `rest` is to come after it. -/
def EngineInFront (s : State) (rest : List Action) : Prop :=
  s.pending = .engine :: rest ∨ (s.pending = [] ∧ rest = [])

theorem EngineInFront.moves {s : State} {rest : List Action} (h : EngineInFront s rest) : EngineMoves s := by
  rcases h with h | h
  exacts [.inr ⟨rest, h⟩, .inl h.1]

/-- Every way a step can answer a next state. `rest` is what is still to come after it. -/
inductive StepEffect (s : State) : State → Prop where
  /-- The reset event. -/
  | reset (d : ResetData) (rest : List Action) (front : s.pending = .reset d :: rest) :
      StepEffect s ((State.resetWith d).advance rest)
  /-- A host transaction. -/
  | host (header : BitVec 6) (data : Word) (rest : List Action) (front : s.pending = .host header data :: rest) {t : State}
      (effect : HostEffect header data (s.advance rest) t) : StepEffect s t
  /-- The engine's turn while idle. -/
  | idle (rest : List Action) (front : EngineInFront s rest) (still : s.phase = phaseIdle) : StepEffect s (s.advance rest)
  /-- The engine's turn while a schedule is being made. -/
  | ksRound (rest : List Action) (front : EngineInFront s rest) (r : BitVec 4) (selected : s.phase = phaseKs)
      (round : s.rnd = r.setWidth 5) : StepEffect s (ksRoundEffect r (s.advance rest))
  /-- The engine's turn in a round of an encryption. -/
  | encRound (rest : List Action) (front : EngineInFront s rest) (r : BitVec 4) (selected : s.phase = phaseEnc)
      (round : s.rnd = r.setWidth 5) : StepEffect s (encRoundEffect r (s.advance rest))
  /-- The engine's turn at the end of an encryption. -/
  | encFinal (rest : List Action) (front : EngineInFront s rest) (selected : s.phase = phaseEnc) (round : s.rnd = 16#5) :
      StepEffect s (encFinalEffect (s.advance rest))
  /-- A use of a unit by itself. -/
  | unitOutput (a : Action) (rest : List Action) (front : s.pending = a :: rest) (bench : a ≠ .engine ∧ (∀ h d, a ≠ .host h d) ∧ ∀ x, a ≠ .reset x)
      (v : Word) : StepEffect s ((s.advance rest).answer v)

/-- The engine's turn (44_pipeline_and_host.md R198). -/
theorem engineTurn_effect {s t : State} {rest : List Action} (front : EngineInFront s rest)
    (h : runCode (.sq (s.advance rest).seq) (s.advance rest) = .next t) : StepEffect s t := by
  simp only [runCode, decode] at h
  rcases decodeSq_cases (s.advance rest).seq with ⟨hp, hd⟩ | ⟨r, hq, hd⟩ | ⟨r, hq, hd⟩ | ⟨hq, hd⟩ | ⟨_, _, _, _, hd⟩ <;>
    rw [hd] at h
  · rw [State.seq_phase] at hp
    rw [next_eq h]
    exact .idle rest front hp
  · simp only [exec, execKsRound, if_pos hq] at h
    rw [State.seq_eq_ksRound] at hq
    rw [next_eq h]
    exact .ksRound rest front r hq.1 hq.2
  · simp only [exec, execEncRound, if_pos hq] at h
    rw [State.seq_eq_encRound] at hq
    rw [next_eq h]
    exact .encRound rest front r hq.1 hq.2
  · simp only [exec, execEncFinal, if_pos hq] at h
    rw [State.seq_eq_encFinal] at hq
    rw [next_eq h]
    exact .encFinal rest front hq.1 hq.2
  · cases h

/-- A table select, a rotate select or an S-box address only puts a Word out. -/
theorem exec_unit {c : Code} {i : Instr} {s t : State} (hc : c.format = .ts ∨ c.format = .rs ∨ c.format = .sa)
    (hd : decode c = .ok i) (h : exec i s = .next t) : ∃ v, t = s.answer v := by
  cases c with
  | ht header data | cw opc | sq seq => simp [Code.format] at hc
  | ts tsel value =>
    simp only [decode, decodeTs] at hd
    repeat' split at hd
    all_goals first
      | (cases hd; done)
      | (cases hd; exact ⟨_, next_eq h⟩)
  | rs rotsel x =>
    simp only [decode, decodeRs] at hd
    cases hd
    split at h <;> exact ⟨_, next_eq h⟩
  | sa addr =>
    simp only [decode, decodeSa] at hd
    cases hd
    repeat' split at h
    all_goals exact ⟨_, next_eq h⟩

/-- A select on the bench: decoded it puts a Word out, rejected it gives no next state. -/
theorem unit_effect {s t : State} {a : Action} {rest : List Action} {c : Code} (front : s.pending = a :: rest)
    (bench : a ≠ .engine ∧ (∀ h d, a ≠ .host h d) ∧ ∀ x, a ≠ .reset x)
    (hc : c.format = .ts ∨ c.format = .rs ∨ c.format = .sa)
    (h : runCode c (s.advance rest) = .next t) : StepEffect s t := by
  unfold runCode at h
  cases hd : decode c with
  | ok i =>
    rw [hd] at h
    obtain ⟨v, rfl⟩ := exec_unit hc hd h
    exact .unitOutput a rest front bench v
  | error e =>
    rw [hd] at h
    cases c with
    | ht header data | cw opc | sq seq => simp [Code.format] at hc
    | ts tsel value =>
      simp only [decode, decodeTs] at hd
      repeat' split at hd
      all_goals first
        | (cases hd; done)
        | (cases hd; cases h)
    | rs rotsel x | sa addr => cases hd

/-- The inversion of `step`: what a next state can be. -/
theorem step_effect {s t : State} (h : step s = .next t) : StepEffect s t := by
  unfold step nextTurn engineTurn at h
  split at h
  · rename_i u hu
    split at hu <;> cases hu
    rename_i d rest hs
    rw [next_eq h]
    exact .reset d rest hs
  · rename_i c u hu
    split at hu <;> cases hu <;> rename_i hs
    · exact engineTurn_effect (.inr ⟨hs, rfl⟩) h
    · exact .host _ _ _ hs (host_effect h)
    · exact engineTurn_effect (.inl hs) h
    · exact unit_effect hs (by simp) (.inl rfl) h
    · exact unit_effect hs (by simp) (.inr (.inl rfl)) h
    · exact unit_effect hs (by simp) (.inr (.inr rfl)) h

/-- While the engine is busy a host transaction reaches `KEY`, `DIN`, the error flags and what it returns, and nothing else
(60_exceptions.md R215, 70_reset_and_hazards.md R250). -/
theorem HostEffect.of_busy {header : BitVec 6} {data : Word} {s t : State} (h : HostEffect header data s t) (busy : s.phase ≠ phaseIdle) :
    t = { s with key := t.key, din := t.din, eNokey := t.eNokey, eBusy := t.eBusy, eIllcmd := t.eIllcmd, eAcc := t.eAcc,
                 returned := t.returned } := by
  cases h with
  | command =>
    rcases commandDecoder_cases (data.extractLsb' 0 8) s with ⟨_, h⟩ | ⟨hp, _⟩ | ⟨hp, _⟩ | ⟨hp, _⟩ | ⟨hp, _⟩
    · rw [h]; rfl
    all_goals exact absurd hp busy
  | _ => rfl

theorem HostEffect.effect {header : BitVec 6} {data : Word} {s t : State} (h : HostEffect header data s t) : Effect s t := by
  cases h with
  | answered _ v => exact .answered v
  | readRefused => exact .readRefused
  | keyWritten => exact .keyWritten _
  | dinWritten => exact .dinWritten _
  | command => exact commandDecoder_effect _ _
  | writeRefused => exact .flagged _

/-- A step that is no reset event leaves its action's state alone, or does what one instruction can do in it. -/
theorem step_effect_of_no_reset {s t : State} (h : step s = .next t) (hr : ∀ x rest, s.pending ≠ .reset x :: rest) :
    ∃ rest, t = s.advance rest ∨ Effect (s.advance rest) t := by
  cases step_effect h with
  | reset d rest front => exact absurd front (hr d rest)
  | host header data rest _ effect => exact ⟨rest, .inr effect.effect⟩
  | idle rest _ _ => exact ⟨rest, .inl rfl⟩
  | ksRound rest _ r hp hn => exact ⟨rest, .inr (.ksRound r hp hn)⟩
  | encRound rest _ r hp hn => exact ⟨rest, .inr (.encRound r hp hn)⟩
  | encFinal rest _ hp hn => exact ⟨rest, .inr (.encFinal hp hn)⟩
  | unitOutput a rest _ _ v => exact ⟨rest, .inr (.answered v)⟩

/-- No instruction touches what is still to come. -/
theorem Effect.pending_eq {s t : State} (h : Effect s t) : t.pending = s.pending := by
  cases h with
  | ksRound r _ _ => simp only [ksRoundEffect]; split <;> simp
  | _ => simp [ksInit, encInit, encRoundEffect, encFinalEffect]

end Sys2Proof.Machine
end

