-- ==== Sys2Proof/Laws/Runs.lean ====
section
/-! SUPPORT. One action by itself, what no instruction does with the actions still to come, and the round keys as Words. -/

namespace Sys2Proof.Machine

/-! ### The round keys as Words -/

theorem rkWords_getElem (s : State) (r : BitVec 4) : s.rkWords[r.toNat]'(r.isLt) = s.rkWord r := by
  simp [State.rkWords, State.rkWord]

theorem rkWords_eq_iff {s : State} {v : Vector Word 16} :
    s.rkWords = v ↔ ∀ r : BitVec 4, s.rkWord r = v[r.toNat]'(r.isLt) := by
  constructor
  · rintro rfl r; exact (rkWords_getElem s r).symm
  · intro h
    apply Vector.ext
    intro i hi
    have := h (BitVec.ofNat 4 i)
    rw [← rkWords_getElem] at this
    simpa [Nat.mod_eq_of_lt hi] using this

/-! ### What is still to come does not matter to what is done now -/

/-- The outcome with `q` still to come. -/
def withPending (q : List Action) : Host.Outcome State Fault Refusal → Host.Outcome State Fault Refusal
  | .next t => .next { t with pending := q }
  | .fault f => .fault f
  | .refused e => .refused e

theorem commandDecoder_pending (opc : BitVec 8) (s : State) (q : List Action) :
    commandDecoder opc { s with pending := q } = { commandDecoder opc s with pending := q } := by
  simp only [commandDecoder]
  repeat' split
  all_goals rfl

theorem exec_pending (i : Instr) (s : State) (q : List Action) :
    exec i { s with pending := q } = withPending q (exec i s) := by
  have hq : State.seq { s with pending := q } = s.seq := rfl
  cases i with
  | hostRead idx =>
    simp only [exec, execHostRead]
    rw [show State.hostReadable { s with pending := q } idx = s.hostReadable idx from rfl]
    split <;> rfl
  | hostWrite idx v =>
    simp only [exec, execHostWrite, commandDecoder_pending]
    repeat' split
    all_goals rfl
  | keygen => simp only [exec, execKeygen]; split <;> rfl
  | encrypt => simp only [exec, execEncrypt]; split <;> [rfl; (split <;> rfl)]
  | ksRound r =>
    simp only [exec, execKsRound, hq, ksRoundEffect]
    repeat' split
    all_goals rfl
  | encRound r => simp only [exec, execEncRound, hq]; split <;> rfl
  | encFinal => simp only [exec, execEncFinal, hq]; split <;> rfl
  | _ => rfl

theorem runCode_pending (c : Code) (s : State) (q : List Action) :
    runCode c { s with pending := q } = withPending q (runCode c s) := by
  unfold runCode
  split
  · exact exec_pending _ _ _
  · rename_i e _
    cases e <;> simp only [rejected, commandDecoder_pending] <;> rfl

/-- A step does what its action does by itself, and leaves the rest to come. -/
theorem step_eq_perform (s : State) (a : Action) (rest : List Action) :
    step { s with pending := a :: rest } = withPending rest (perform a s) := by
  cases a with
  | reset d => rfl
  | host header data => exact runCode_pending (.ht header data) { s with pending := [], returned := none } rest
  | engine => exact runCode_pending (.sq s.seq) { s with pending := [], returned := none } rest
  | usePermutationUnit tsel v => exact runCode_pending (.ts tsel v) { s with pending := [], returned := none } rest
  | useRotator q x => exact runCode_pending (.rs q x) { s with pending := [], returned := none } rest
  | useSboxRom addr => exact runCode_pending (.sa addr) { s with pending := [], returned := none } rest

theorem perform_pending {a : Action} {s t : State} (h : perform a s = .next t) : t.pending = [] := by
  have := step_eq_perform s a []
  rw [show step { s with pending := [a] } = perform a s from rfl, h] at this
  injection this with this
  rw [this]

/-! ### One action by itself -/

/-- A host transaction always completes. -/
theorem perform_host (header : BitVec 6) (data : Word) (s : State) :
    ∃ t, perform (.host header data) s = .next t ∧ HostEffect header data (s.advance []) t := by
  have : ∃ t, exec (decodeHt header data) (s.advance []) = .next t := by
    unfold decodeHt
    split
    · exact ⟨_, rfl⟩
    · simp only [exec, execHostRead]; split <;> exact ⟨_, rfl⟩
  obtain ⟨t, h⟩ := this
  exact ⟨t, h, host_effect h⟩

theorem perform_engine_ksRound {s : State} {r : BitVec 4} (hp : s.phase = phaseKs) (hr : s.rnd.toNat = r.toNat) :
    perform .engine s = .next (ksRoundEffect r (s.advance [])) := by
  have hq : (s.advance []).seq = 0b010#3 ++ r := (State.seq_eq_ksRound _ r).2 ⟨hp, (rnd_eq_setWidth _ _).2 hr⟩
  have hd : decodeSq (0b010#3 ++ r) = .ok (.ksRound r) := by clear hq hr; revert r; decide
  show runCode (.sq (s.advance []).seq) (s.advance []) = _
  simp only [runCode, decode, hq, hd, exec, execKsRound, if_true]

theorem perform_engine_encRound {s : State} {r : BitVec 4} (hp : s.phase = phaseEnc) (hr : s.rnd.toNat = r.toNat) :
    perform .engine s = .next (encRoundEffect r (s.advance [])) := by
  have hq : (s.advance []).seq = 0b100#3 ++ r := (State.seq_eq_encRound _ r).2 ⟨hp, (rnd_eq_setWidth _ _).2 hr⟩
  have hd : decodeSq (0b100#3 ++ r) = .ok (.encRound r) := by clear hq hr; revert r; decide
  show runCode (.sq (s.advance []).seq) (s.advance []) = _
  simp only [runCode, decode, hq, hd, exec, execEncRound, if_true]

theorem perform_engine_encFinal {s : State} (hp : s.phase = phaseEnc) (hr : s.rnd = 16#5) :
    perform .engine s = .next (encFinalEffect (s.advance [])) := by
  have hq : (s.advance []).seq = 0b1010000#7 := (State.seq_eq_encFinal _).2 ⟨hp, hr⟩
  show runCode (.sq (s.advance []).seq) (s.advance []) = _
  simp only [runCode, decode, hq, exec, execEncFinal, if_true]
  rfl

/-- `STATUS[6:5]` is `PHASE` (10_state.md R29). -/
theorem showsIdle_status (s : State) : showsIdle (some s.status) = (s.phase == 0#2) := by
  simp only [showsIdle]
  congr 1
  simp only [State.status]
  apply BitVec.eq_of_getLsbD_eq
  intro k hk
  have : k = 0 ∨ k = 1 := by omega
  rcases this with rfl | rfl <;> rw [BitVec.getLsbD_extractLsb'] <;> repeat rw [BitVec.getLsbD_append]
  all_goals simp

theorem perform_readStatus (s : State) :
    perform (hostReadAction idxStatus) s = .next ((s.advance []).answer s.status) := rfl

theorem perform_wait (s : State) : perform Statement.wait.action s = .next ((s.advance []).answer s.status) := perform_readStatus s

theorem perform_cmdEncrypt {s : State} (hp : s.phase = phaseIdle) (hk : s.kvalid = true) :
    perform Statement.cmdEncrypt.action s = .next (encInit (s.advance [])) := by
  have e : (0x0000000000000002#64 : Word).extractLsb' 0 8 = 0x02#8 := by decide
  show exec (.hostWrite 0x03#5 0x0000000000000002#64) (s.advance []) = _
  simp only [exec, execHostWrite, commandDecoder, e]
  simp [hp, hk]

theorem perform_cmdKeygen {s : State} (hp : s.phase = phaseIdle) :
    perform Statement.cmdKeygen.action s = .next (ksInit (s.advance [])) := by
  have e : (0x0000000000000001#64 : Word).extractLsb' 0 8 = 0x01#8 := by decide
  show exec (.hostWrite 0x03#5 0x0000000000000001#64) (s.advance []) = _
  simp only [exec, execHostWrite, commandDecoder, e]
  simp [hp]

theorem runActions_append {a b : List Action} {s t : State} (h : runActions a s = .next t) :
    runActions (a ++ b) s = runActions b t := by
  induction a generalizing s with
  | nil => cases h; rfl
  | cons x r ih =>
    simp only [runActions, List.cons_append] at h ⊢
    cases hx : perform x s with
    | next u => rw [hx] at h; exact ih h
    | fault f => rw [hx] at h; cases h
    | refused e => rw [hx] at h; cases h

end Sys2Proof.Machine
end

