-- ==== Sys2Proof/Laws/Execution.lean ====
section
/-! SUPPORT. Executions: what happens in a stretch of moments as a list of actions, and what a moment can do. -/

namespace Sys2Proof.Machine

variable {states : Nat → State} {acts : Nat → Option Action}

@[simp] theorem engineTurns_nil : engineTurns [] = 0 := rfl

@[simp] theorem engineTurns_engine : engineTurns [.engine] = 1 := rfl

@[simp] theorem engineTurns_append (a b : List Action) : engineTurns (a ++ b) = engineTurns a + engineTurns b :=
  List.countP_append

@[simp] theorem actionsFrom_zero (n : Nat) : actionsFrom acts n 0 = [] := rfl

@[simp] theorem actionsFrom_succ (n len : Nat) :
    actionsFrom acts n (len + 1) = actionsFrom acts n len ++ (acts (n + len)).toList := rfl

/-- One moment adds an engine turn where the engine takes a step, and nothing elsewhere. -/
theorem engineTurns_toList (o : Option Action) : engineTurns o.toList = if o = some .engine then 1 else 0 := by
  cases o with
  | none => rfl
  | some a => cases a <;> simp [engineTurns, Action.isEngine]

theorem IsExecution.none (h : IsExecution states acts) {n : Nat} (ha : acts n = .none) : states (n + 1) = states n := by
  have := h n; rw [ha] at this; exact this

theorem IsExecution.some (h : IsExecution states acts) {n : Nat} {a : Action} (ha : acts n = .some a) :
    a.isHardware = true ∧ (a = .engine → (states n).phase ≠ phaseIdle) ∧ perform a (states n) = .next (states (n + 1)) := by
  have := h n; rw [ha] at this; exact this

/-- A stretch of an execution is a run of its actions. -/
theorem IsExecution.runActions (h : IsExecution states acts) (n len : Nat) :
    runActions (actionsFrom acts n len) (states n) = .next (states (n + len)) := by
  induction len with
  | zero => rfl
  | succ len ih =>
    rw [actionsFrom_succ, runActions_append ih]
    cases ha : acts (n + len) with
    | none => rw [← Nat.add_assoc, h.none ha]; rfl
    | some a => simp only [Option.toList, Machine.runActions, (h.some ha).2.2]; rfl

/-- Without reset events a stretch of an execution is host transactions and engine turns. -/
theorem IsExecution.host_or_engine (h : IsExecution states acts) {n : Nat} (noReset : ∀ m d, n ≤ m → acts m ≠ .some (.reset d))
    (len : Nat) : ∀ a ∈ actionsFrom acts n len, a.isHost = true ∨ a.isEngine = true := by
  induction len with
  | zero => intro a ha; cases ha
  | succ len ih =>
    intro a ha
    rcases List.mem_append.1 ha with ha | ha
    · exact ih a ha
    · have ha := Option.mem_toList.1 ha
      cases a with
      | host | engine => simp [Action.isHost, Action.isEngine]
      | reset d => exact absurd ha (noReset _ d (by omega))
      | usePermutationUnit | useRotator | useSboxRom =>
        have hw := (h.some ha).1
        simp [Action.isHardware, Action.isHost, Action.isEngine, Action.isReset] at hw

/-- In a fair execution without reset events a busy engine takes a step, at the end of a stretch in which it took none. -/
theorem WeaklyFair.next_engine_step (fair : WeaklyFair states acts) {n : Nat}
    (busy : ∀ len, engineTurns (actionsFrom acts n len) = 0 → (states (n + len)).phase ≠ phaseIdle) :
    ∃ len, engineTurns (actionsFrom acts n len) = 0 ∧ acts (n + len) = some .engine := by
  by_contra hno
  have none_yet : ∀ len, engineTurns (actionsFrom acts n len) = 0 := by
    intro len
    induction len with
    | zero => rfl
    | succ len ih =>
      rw [actionsFrom_succ, engineTurns_append, ih, engineTurns_toList, if_neg fun ha => hno ⟨len, ih, ha⟩]
  obtain ⟨m, hm, ha⟩ := fair n fun m hm => by
    have := busy (m - n) (none_yet _)
    rwa [show n + (m - n) = m by omega] at this
  exact hno ⟨m - n, none_yet _, by rwa [show n + (m - n) = m by omega]⟩

/-- A stretch of moments in two parts. -/
theorem actionsFrom_add (n a b : Nat) : actionsFrom acts n (a + b) = actionsFrom acts n a ++ actionsFrom acts (n + a) b := by
  induction b with
  | zero => simp
  | succ b ih => rw [← Nat.add_assoc, actionsFrom_succ, ih, actionsFrom_succ, List.append_assoc, Nat.add_assoc]

end Sys2Proof.Machine
end

