-- ==== Sys2Proof/Laws/PerInstr.lean ====
section
/-! SUPPORT. One statement for every constructor of Instr, instruction by instruction. -/

namespace Sys2Proof.Laws.TableRow

/-- The instruction's code lies in its row of opcode_table.json: the row's format, and the row's `match` under its `mask`. -/
def Statement (i : Instr) : Prop := i.row.matches (encode i) = true

theorem of_number {i : Instr} (hf : i.row.format = (encode i).format) (hn : (encode i).number &&& i.row.mask = i.row.pattern) :
    Statement i := by
  simp [Statement, TableRow.matches, hf, hn]

theorem hostRead (idx : BitVec 5) : Statement (.hostRead idx) :=
  of_number rfl ((by decide : ∀ x : BitVec 5, (0#1 ++ x : BitVec 6).toNat &&& 0x20 = 0x00) idx)

theorem hostWrite (idx : BitVec 5) (data : Word) : Statement (.hostWrite idx data) :=
  of_number rfl ((by decide : ∀ x : BitVec 5, (1#1 ++ x : BitVec 6).toNat &&& 0x20 = 0x20) idx)

theorem keygen : Statement .keygen := of_number rfl rfl

theorem encrypt : Statement .encrypt := of_number rfl rfl

theorem ksRound (r : BitVec 4) : Statement (.ksRound r) :=
  of_number rfl ((by decide : ∀ x : BitVec 4, (0b010#3 ++ x : BitVec 7).toNat &&& 0x70 = 0x20) r)

theorem encRound (r : BitVec 4) : Statement (.encRound r) :=
  of_number rfl ((by decide : ∀ x : BitVec 4, (0b100#3 ++ x : BitVec 7).toNat &&& 0x70 = 0x40) r)

theorem encFinal : Statement .encFinal := of_number rfl rfl

theorem permIp (value : Word) : Statement (.permIp value) :=
  of_number rfl (by decide : (0#3 : BitVec 3).toNat &&& 7 = 0)

theorem permFp (value : Word) : Statement (.permFp value) :=
  of_number rfl (by decide : (1#3 : BitVec 3).toNat &&& 7 = 1)

theorem permPc1 (value : Word) : Statement (.permPc1 value) :=
  of_number rfl (by decide : (2#3 : BitVec 3).toNat &&& 7 = 2)

theorem permPc2 (value : Word) : Statement (.permPc2 value) :=
  of_number rfl (by decide : (3#3 : BitVec 3).toNat &&& 7 = 3)

theorem permE (value : Word) : Statement (.permE value) :=
  of_number rfl (by decide : (4#3 : BitVec 3).toNat &&& 7 = 4)

theorem permP (value : Word) : Statement (.permP value) :=
  of_number rfl (by decide : (5#3 : BitVec 3).toNat &&& 7 = 5)

theorem rotl28By1 (x : Word) : Statement (.rotl28By1 x) :=
  of_number rfl (by decide : (0#1 : BitVec 1).toNat &&& 1 = 0)

theorem rotl28By2 (x : Word) : Statement (.rotl28By2 x) :=
  of_number rfl (by decide : (1#1 : BitVec 1).toNat &&& 1 = 1)

theorem sbox0 (row : BitVec 2) (col : BitVec 4) : Statement (.sbox0 row col) :=
  of_number rfl ((by decide : ∀ r : BitVec 2, ∀ c : BitVec 4, (0#3 ++ r ++ c : BitVec 9).toNat &&& 0x1C0 = 0x000) row col)

theorem sbox1 (row : BitVec 2) (col : BitVec 4) : Statement (.sbox1 row col) :=
  of_number rfl ((by decide : ∀ r : BitVec 2, ∀ c : BitVec 4, (1#3 ++ r ++ c : BitVec 9).toNat &&& 0x1C0 = 0x040) row col)

theorem sbox2 (row : BitVec 2) (col : BitVec 4) : Statement (.sbox2 row col) :=
  of_number rfl ((by decide : ∀ r : BitVec 2, ∀ c : BitVec 4, (2#3 ++ r ++ c : BitVec 9).toNat &&& 0x1C0 = 0x080) row col)

theorem sbox3 (row : BitVec 2) (col : BitVec 4) : Statement (.sbox3 row col) :=
  of_number rfl ((by decide : ∀ r : BitVec 2, ∀ c : BitVec 4, (3#3 ++ r ++ c : BitVec 9).toNat &&& 0x1C0 = 0x0C0) row col)

theorem sbox4 (row : BitVec 2) (col : BitVec 4) : Statement (.sbox4 row col) :=
  of_number rfl ((by decide : ∀ r : BitVec 2, ∀ c : BitVec 4, (4#3 ++ r ++ c : BitVec 9).toNat &&& 0x1C0 = 0x100) row col)

theorem sbox5 (row : BitVec 2) (col : BitVec 4) : Statement (.sbox5 row col) :=
  of_number rfl ((by decide : ∀ r : BitVec 2, ∀ c : BitVec 4, (5#3 ++ r ++ c : BitVec 9).toNat &&& 0x1C0 = 0x140) row col)

theorem sbox6 (row : BitVec 2) (col : BitVec 4) : Statement (.sbox6 row col) :=
  of_number rfl ((by decide : ∀ r : BitVec 2, ∀ c : BitVec 4, (6#3 ++ r ++ c : BitVec 9).toNat &&& 0x1C0 = 0x180) row col)

theorem sbox7 (row : BitVec 2) (col : BitVec 4) : Statement (.sbox7 row col) :=
  of_number rfl ((by decide : ∀ r : BitVec 2, ∀ c : BitVec 4, (7#3 ++ r ++ c : BitVec 9).toNat &&& 0x1C0 = 0x1C0) row col)

end Sys2Proof.Laws.TableRow
end

