-- ==== Sys2Proof/WellFormed.lean ====
section
/-! DEFINITION. Which instructions keep the width discipline of 41_permutation_unit.md R139 and 42_key_schedule.md R152.
Register indices, rounds and ROM addresses cannot be out of range: their types have the field's width. -/

namespace Sys2Proof

/-- The operand presented to a unit is left-aligned to the width the unit expects: "64 for `IP`, `FP`, `PC1`; 56 for `PC2`;
32 for `E`, `P`" (R139), 28 for the rotator (R152). The meanings do not ask for it: the unit "does not know the logical width of
its input" (R130 g). -/
def Instr.wellFormed : Instr → Bool
  | .hostRead _ | .hostWrite _ _ | .keygen | .encrypt | .ksRound _ | .encRound _ | .encFinal => true
  | .permIp v => decide (Machine.IsLA 64 v)
  | .permFp v => decide (Machine.IsLA 64 v)
  | .permPc1 v => decide (Machine.IsLA 64 v)
  | .permPc2 v => decide (Machine.IsLA 56 v)
  | .permE v => decide (Machine.IsLA 32 v)
  | .permP v => decide (Machine.IsLA 32 v)
  | .rotl28By1 x => decide (Machine.IsLA 28 x)
  | .rotl28By2 x => decide (Machine.IsLA 28 x)
  | .sbox0 _ _ | .sbox1 _ _ | .sbox2 _ _ | .sbox3 _ _ | .sbox4 _ _ | .sbox5 _ _ | .sbox6 _ _ | .sbox7 _ _ => true

/-- The width discipline as a proposition. -/
abbrev Instr.WellFormed (i : Instr) : Prop := i.wellFormed = true

end Sys2Proof
end

