-- ==== Sys2Proof/Tests/Slice0.lean ====
section
/-! SUPPORT. Tests: expected values are those of 95_test_vectors.md and of the encodings written out in 30_encoding.md; and for every
obligation with hypotheses, a concrete case that meets them. -/

namespace Sys2Proof.Tests

/- One theorem after another: checked side by side, these ask for more memory than the check allows. -/
set_option Elab.async false

open Sys2Proof.Machine

/-! ### Well-formedness: a term that each check refuses -/

theorem test_wf_refuses_permPc2 : (Instr.permPc2 0x0000000000000001#64).wellFormed = false := by decide
theorem test_wf_refuses_permE : (Instr.permE 0x0000000080000000#64).wellFormed = false := by decide
theorem test_wf_refuses_permP : (Instr.permP 0x0000000080000000#64).wellFormed = false := by decide
theorem test_wf_refuses_rotl28By1 : (Instr.rotl28By1 0x0000000800000000#64).wellFormed = false := by decide
theorem test_wf_refuses_rotl28By2 : (Instr.rotl28By2 0x0000000000000001#64).wellFormed = false := by decide
/-- The tables `IP`, `FP` and `PC1` take all 64 bits (R139), so their check refuses no Word. -/
theorem test_wf_full_width (v : Word) :
    (Instr.permIp v).WellFormed ∧ (Instr.permFp v).WellFormed ∧ (Instr.permPc1 v).WellFormed := by
  have h : decide (IsLA 64 v) = true := decide_eq_true (Nat.mod_one v.toNat)
  exact ⟨h, h, h⟩

/-! ### Decoding: words written out from 30_encoding.md R100 to R106 -/

theorem test_decode_ht :
    decode (.ht 0b011111#6 0) = .ok (.hostRead 31) ∧
    decode (.ht 0b000100#6 0xFF#64) = .ok (.hostRead 4) ∧
    decode (.ht 0b100000#6 0x133457799BBCDFF1#64) = .ok (.hostWrite 0 0x133457799BBCDFF1#64) ∧
    decode (.ht 0b111111#6 0) = .ok (.hostWrite 31 0) := by decide

theorem test_decode_cw :
    decode (.cw 0b00000001#8) = .ok .keygen ∧ decode (.cw 0b00000010#8) = .ok .encrypt ∧
    decode (.cw 0x00#8) = .error (.reservedCommand 0x00#8) ∧ decode (.cw 0x03#8) = .error (.reservedCommand 0x03#8) ∧
    decode (.cw 0xFF#8) = .error (.reservedCommand 0xFF#8) := by decide

theorem test_decode_sq :
    decode (.sq 0b0100000#7) = .ok (.ksRound 0) ∧ decode (.sq 0b0101110#7) = .ok (.ksRound 14) ∧
    decode (.sq 0b1000001#7) = .ok (.encRound 1) ∧ decode (.sq 0b1001111#7) = .ok (.encRound 15) ∧
    decode (.sq 0b1010000#7) = .ok .encFinal ∧
    decode (.sq 0b0010000#7) = .error .idleSequencer ∧
    decode (.sq 0b0110000#7) = .error (.reservedSequencer 0b0110000#7) ∧
    decode (.sq 0b1010001#7) = .error (.reservedSequencer 0b1010001#7) ∧
    decode (.sq 0b1100000#7) = .error (.reservedSequencer 0b1100000#7) := by decide

theorem test_decode_ts :
    decode (.ts 0b000#3 7) = .ok (.permIp 7) ∧ decode (.ts 0b001#3 7) = .ok (.permFp 7) ∧
    decode (.ts 0b010#3 7) = .ok (.permPc1 7) ∧ decode (.ts 0b011#3 7) = .ok (.permPc2 7) ∧
    decode (.ts 0b100#3 7) = .ok (.permE 7) ∧ decode (.ts 0b101#3 7) = .ok (.permP 7) ∧
    decode (.ts 0b110#3 7) = .error (.reservedTableSelect 0b110#3) ∧
    decode (.ts 0b111#3 7) = .error (.reservedTableSelect 0b111#3) := by decide

theorem test_decode_rs :
    decode (.rs 0b0#1 7) = .ok (.rotl28By1 7) ∧ decode (.rs 0b1#1 7) = .ok (.rotl28By2 7) := by decide

theorem test_decode_sa :
    decode (.sa 0b000001100#9) = .ok (.sbox0 0 12) ∧ decode (.sa 0b001011000#9) = .ok (.sbox1 1 8) ∧
    decode (.sa 0b010001111#9) = .ok (.sbox2 0 15) ∧ decode (.sa 0b011101101#9) = .ok (.sbox3 2 13) ∧
    decode (.sa 0b100110000#9) = .ok (.sbox4 3 0) ∧ decode (.sa 0b101100011#9) = .ok (.sbox5 2 3) ∧
    decode (.sa 0b110001010#9) = .ok (.sbox6 0 10) ∧ decode (.sa 0b111110011#9) = .ok (.sbox7 3 3) := by decide

/-- A bare number of the opcode table (log 8): the widths that one format has, and the commands in a byte. -/
theorem test_decodeTableWord :
    decodeTableWord 72 0x20 = some (.hostWrite 0 0) ∧ decodeTableWord 6 0x10 = some (.hostRead 0x10) ∧
    decodeTableWord 8 0x01 = some .keygen ∧ decodeTableWord 7 0x50 = some .encFinal ∧
    decodeTableWord 16 0x1C0 = some (.sbox7 0 0) ∧ decodeTableWord 3 4 = some (.permE 0) ∧
    decodeTableWord 1 1 = some (.rotl28By2 0) ∧ decodeTableWord 7 0x60 = none := by decide

/-- `withFetchWord` makes the very next step run the instruction (log 9): `KS_ROUND` of round 1 counts to 1. -/
theorem test_withFetchWord :
    (match step (State.reset.withFetchWord 7 0x20) with
      | .next t => t.rnd == 1#5 && t.phase == phaseKs
      | _ => false) = true := by decide +kernel

/-! ### One step of one instruction -/

/-- The outcome is a next state and it passes. -/
def nextState (p : State → Bool) : Host.Outcome State Fault Refusal → Bool
  | .next t => p t
  | .fault _ => false
  | .refused _ => false

/-- Idle with a complete schedule's flag: what `ENCRYPT` asks for. -/
def ready : State := { State.reset with kvalid := true, dvalid := true, rnd := 16 }

/-- Section 2.1 of the vectors, before the key-schedule round `r + 1`. -/
def scheduling (r : BitVec 5) (c d : Word) : State :=
  ({ State.reset with phase := phaseKs, rnd := r }).writeCD c d

/-- Section 2.1 of the vectors, before the encryption round `r + 1` under one round key. -/
def encrypting (n : BitVec 5) (l r k : Word) (m : BitVec 4) : State :=
  (({ ready with phase := phaseEnc, rnd := n, dvalid := false }).writeLR l r).writeRk m k

/-- Sections 3.5 and 2.1: `HostRead(0x1F)` returns `RK[16]`. -/
theorem test_hostRead_rk16 :
    nextState (fun t => t.returned == some 0xCB3D8B0E17F50000#64 && !t.eAcc)
      (exec (.hostRead 0x1F) (ready.writeRk 15 0xCB3D8B0E17F50000#64)) = true := by decide

/-- Section 3.5: `STATUS` with everything finished and all four error flags set. -/
theorem test_hostRead_status :
    nextState (fun t => t.returned == some 0x1F90#64)
      (exec (.hostRead 0x04) { ready with eNokey := true, eBusy := true, eIllcmd := true, eAcc := true }) = true := by decide

/-- Section 3.5: a command while busy sets `E_BUSY` only, `0x7F` too. -/
theorem test_hostWrite_busy :
    nextState (fun t => t == { scheduling 3 0 0 with eBusy := true }) (exec (.hostWrite 0x03 0x7F#64) (scheduling 3 0 0)) = true := by
  decide

/-- Section 3.5: a write of `RK[1]` is dropped with `E_ACC`. -/
theorem test_hostWrite_refused :
    nextState (fun t => t == { ready with eAcc := true }) (exec (.hostWrite 0x10 7#64) ready) = true := by decide

/-- Section 2.1, row 0: `KEYGEN` accepted. -/
theorem test_keygen :
    nextState (fun t => t.cWord == 0xF0CCAAF000000000#64 && t.dWord == 0x556678F000000000#64 && t.status == 0x120#64)
      (exec .keygen (ready.writeKey 0x133457799BBCDFF1#64)) = true := by decide +kernel

/-- Section 3.4: `ENCRYPT` accepted. -/
theorem test_encrypt :
    nextState (fun t => t.lWord == 0xCC00CCFF00000000#64 && t.rWord == 0xF0AAF0AA00000000#64 && t.status == 0xC0#64)
      (exec .encrypt (ready.writeDin 0x0123456789ABCDEF#64)) = true := by decide +kernel

/-- Section 3.5: `ENCRYPT` after reset. -/
theorem test_encrypt_nokey : nextState (fun t => t.status == 0x200#64) (exec .encrypt State.reset) = true := by decide

/-- Section 2.1, rows 2 and 3: `SHIFT[3] = 2`. -/
theorem test_ksRound :
    nextState (fun t => t.cWord == 0x0CCAAFF000000000#64 && t.dWord == 0x56678F5000000000#64 &&
        t.rkWord 2 == 0x55FC8A42CF990000#64 && t.status == 0x23#64)
      (exec (.ksRound 2) (scheduling 2 0xC332ABF000000000#64 0x5599E3D000000000#64)) = true := by decide +kernel

/-- Section 2.1, rows 15 and 16: the last round. -/
theorem test_ksRound_last :
    nextState (fun t => t.cWord == 0xF0CCAAF000000000#64 && t.rkWord 15 == 0xCB3D8B0E17F50000#64 && t.status == 0x90#64)
      (exec (.ksRound 15) (scheduling 15 0xF866557000000000#64 0xAAB33C7000000000#64)) = true := by decide +kernel

/-- Section 3.4: round 1. -/
theorem test_encRound :
    nextState (fun t => t.lWord == 0xF0AAF0AA00000000#64 && t.rWord == 0xEF4A654400000000#64 && t.rnd == 1#5)
      (exec (.encRound 0) (encrypting 0 0xCC00CCFF00000000#64 0xF0AAF0AA00000000#64 0x1B02EFFC70720000#64 0)) = true := by
  decide +kernel

/-- Section 3.4: round 16, after which `PHASE` is still `ENC`. -/
theorem test_encRound_last :
    nextState (fun t => t.lWord == 0x4342323400000000#64 && t.rWord == 0x0A4CD99500000000#64 && t.status == 0xD0#64)
      (exec (.encRound 15) (encrypting 15 0xC28C960D00000000#64 0x4342323400000000#64 0xCB3D8B0E17F50000#64 15)) = true := by
  decide +kernel

/-- Section 3.4. -/
theorem test_encFinal :
    nextState (fun t => t.dout == 0x85E813540F0AB405#64 && t.status == 0x190#64)
      (exec .encFinal (encrypting 16 0x4342323400000000#64 0x0A4CD99500000000#64 0 0)) = true := by decide +kernel

/-- What a unit puts out, with nothing else changed. -/
def puts (i : Instr) (w : Word) : Bool := nextState (fun t => t == { ready with returned := some w }) (exec i ready)

/-- Section 3.1. -/
theorem test_permIp : puts (.permIp 0x0123456789ABCDEF#64) 0xCC00CCFFF0AAF0AA#64 = true := by decide +kernel
theorem test_permFp : puts (.permFp 0x0A4CD99543423234#64) 0x85E813540F0AB405#64 = true := by decide +kernel
theorem test_permPc1 : puts (.permPc1 0x133457799BBCDFF1#64) 0xF0CCAAF556678F00#64 = true := by decide +kernel
theorem test_permPc2 : puts (.permPc2 0xE19955FAACCF1E00#64) 0x1B02EFFC70720000#64 = true := by decide +kernel
theorem test_permE : puts (.permE 0xF0AAF0AA00000000#64) 0x7A15557A15550000#64 = true := by decide +kernel
theorem test_permP : puts (.permP 0x5C82B59700000000#64) 0x234AA9BB00000000#64 = true := by decide +kernel
/-- Section 3.1: inputs that are not left-aligned to the table's width. -/
theorem test_perm_unaligned :
    (puts (.permPc2 0xAAAAAAAAAAAAAAAA#64) 0x6EAC1ABCE6420000#64 && puts (.permP 0x0123456789ABCDEF#64) 0x80566C2C00000000#64 &&
      puts (.permE 0x8000000000000001#64) 0x4000000000010000#64) = true := by decide +kernel

/-- Section 3.2. -/
theorem test_rotl28By1 : puts (.rotl28By1 0xC000000000000000#64) 0x8000001000000000#64 = true := by decide +kernel
theorem test_rotl28By2 : puts (.rotl28By2 0x7FFFFFF000000000#64) 0xFFFFFFD000000000#64 = true := by decide +kernel

/-- Section 2.1: round 1, lane by lane. -/
theorem test_sbox0 : puts (.sbox0 0 12) 5#64 = true := by decide +kernel
theorem test_sbox1 : puts (.sbox1 1 8) 12#64 = true := by decide +kernel
theorem test_sbox2 : puts (.sbox2 0 15) 8#64 = true := by decide +kernel
theorem test_sbox3 : puts (.sbox3 2 13) 2#64 = true := by decide +kernel
theorem test_sbox4 : puts (.sbox4 3 0) 11#64 = true := by decide +kernel
theorem test_sbox5 : puts (.sbox5 2 3) 5#64 = true := by decide +kernel
theorem test_sbox6 : puts (.sbox6 0 10) 9#64 = true := by decide +kernel
theorem test_sbox7 : puts (.sbox7 3 3) 7#64 = true := by decide +kernel

/-! ### The datapath -/

/-- Section 2.1, round 1, stage by stage (R171 to R179). -/
theorem test_roundFunction_stages :
    expand 0xF0AAF0AA00000000#64 = 0x7A15557A15550000#64 ∧
    keymix 0x7A15557A15550000#64 0x1B02EFFC70720000#64 = 0x6117BA8665270000#64 ∧
    sboxArray 0x6117BA8665270000#64 = 0x5C82B59700000000#64 ∧
    pout 0x5C82B59700000000#64 = 0x234AA9BB00000000#64 ∧
    roundFunction 0xF0AAF0AA00000000#64 0x1B02EFFC70720000#64 = 0x234AA9BB00000000#64 := by decide +kernel

/-- Section 2.1: the corrected known answer, and with the key as the source prints it (90_conflicts.md C1). -/
theorem test_des_known_answer :
    des 0x133457799BBCDFF1#64 0x0123456789ABCDEF#64 = 0x85E813540F0AB405#64 ∧
    des 0x133457799BDC9CF1#64 0x0123456789ABCDEF#64 = 0x44D28DB02BCB791C#64 := by decide +kernel

/-! ### Cases that meet the hypotheses of the obligations -/

/-- DecodeOfEncodeIsTheInstruction and EncodeOfDecodeIsTheCode: a write, and a read that carries data it does not use. -/
theorem witness_EncodeOfDecodeIsTheCode :
    (∃ i, decode (.ht 0b100011#6 1) = .ok i ∧ encode i = .ht 0b100011#6 1) ∧
    (∃ i, decode (.ht 0b000010#6 1) = .ok i ∧ (encode i).number = 2 ∧ (0b000010#6 : BitVec 6).getLsbD 5 = false) :=
  ⟨⟨_, rfl, by decide⟩, ⟨_, rfl, by decide⟩⟩

theorem witness_DecoderAgreesWithTheOpcodeTable :
    decode (.sq 0b0101111#7) = .ok (.ksRound 15) ∧ (Instr.ksRound 0).row.matches (.sq 0b0101111#7) = true ∧
    (Instr.sbox7 0 0).row.matches (.sa 0x1FF#9) = true ∧ (Instr.permIp 0).row.matches (.ts 0 5) = true := by decide

/-- The ends of the reserved ranges, which meet the selected ones at 15 and 16. -/
theorem witness_SequencerWordSelects :
    16 ≤ (0b10000#5 : BitVec 5).toNat ∧ 17 ≤ (0b10001#5 : BitVec 5).toNat ∧
    decode (.sq (0b01#2 ++ 0b10000#5)) = .error (.reservedSequencer 0b0110000#7) ∧
    decode (.sq (0b10#2 ++ 0b10000#5)) = .ok .encFinal ∧
    decode (.sq (0b10#2 ++ 0b10001#5)) = .error (.reservedSequencer 0b1010001#7) ∧
    decode (.sq (0b10#2 ++ 0b11111#5)) = .error (.reservedSequencer 0b1011111#7) := by decide

/-- One state for each clause of StepRunsTheDecodedInstruction. -/
theorem witness_StepRunsTheDecodedInstruction :
    (∃ i, decode (.ht 0b000100#6 0) = .ok i ∧ ({ ready with pending := [.host 0b000100#6 0] } : State).pending = .host 0b000100#6 0 :: []) ∧
    (∃ i, decode (.sq ((scheduling 0 0 0).phase ++ (scheduling 0 0 0).rnd)) = .ok i ∧ (scheduling 0 0 0).pending = []) ∧
    (∃ i, decode (.ts 5 0) = .ok i ∧ ({ ready with pending := [.usePermutationUnit 5 0] } : State).pending = .usePermutationUnit 5 0 :: []) ∧
    (∃ i, decode (.rs 1 0) = .ok i ∧ ({ ready with pending := [.useRotator 1 0] } : State).pending = .useRotator 1 0 :: []) ∧
    (∃ i, decode (.sa 511) = .ok i ∧ ({ ready with pending := [.useSboxRom 511] } : State).pending = .useSboxRom 511 :: []) :=
  ⟨⟨_, rfl, rfl⟩, ⟨_, rfl, rfl⟩, ⟨_, rfl, rfl⟩, ⟨_, rfl, rfl⟩, ⟨_, rfl, rfl⟩⟩

theorem witness_IdleEngineTakesNoStep :
    ready.phase = 0#2 ∧ ready.pending = [] ∧ ({ ready with pending := [.engine] } : State).pending = .engine :: [] := by decide

/-- The first code of each reserved range. -/
theorem witness_ReservedCodesHaveNoStep :
    (let s : State := { ready with phase := 3, pending := [.engine] }; s.pending = .engine :: [] ∧ s.phase = 3#2) ∧
    (let s : State := { ready with phase := 1, rnd := 16, pending := [.engine] }; s.phase = 1#2 ∧ 16 ≤ s.rnd.toNat) ∧
    (let s : State := { ready with phase := 2, rnd := 17, pending := [.engine] }; s.phase = 2#2 ∧ 17 ≤ s.rnd.toNat) ∧
    6 ≤ (6#3 : BitVec 3).toNat ∧ 6 ≤ (7#3 : BitVec 3).toNat := by decide

theorem witness_UnselectedMicroOpsStop :
    ¬ (ready.phase = 1#2 ∧ ready.rnd.toNat = (0#4 : BitVec 4).toNat) ∧
    ¬ ((encrypting 1 0 0 0 0).phase = 2#2 ∧ (encrypting 1 0 0 0 0).rnd.toNat = (0#4 : BitVec 4).toNat) ∧
    ¬ ((encrypting 15 0 0 0 0).phase = 2#2 ∧ (encrypting 15 0 0 0 0).rnd = 16#5) := by decide

/-- The lowest and highest disallowed index of each kind. -/
theorem witness_AccessFaultSetsEAccOnly :
    (0x05#5 = 0x02#5 ∨ 0x05#5 = 0x04#5 ∨ 0x05 ≤ (0x05#5 : BitVec 5).toNat) ∧ 0x05 ≤ (0x1F#5 : BitVec 5).toNat ∧
    nextState (fun t => t == { ready with eAcc := true, returned := some 0#64 }) (exec (.hostRead 0x0F) ready) = true := by
  decide

theorem witness_CommandWriteRunsTheCommand :
    decode (.cw ((0xFFFFFFFFFFFFFF02#64 : Word).extractLsb' 0 8)) = .ok .encrypt ∧
    decode (.cw ((0x0000000000000101#64 : Word).extractLsb' 0 8)) = .ok .keygen := by decide

theorem witness_BusyCommandSetsEBusyOnly :
    (scheduling 0 0 0).phase ≠ 0#2 ∧ (encrypting 16 0 0 0 0).phase ≠ 0#2 := by decide

theorem witness_ReservedCommandSetsEIllcmdOnly :
    ready.phase = 0#2 ∧ (0x00#64 : Word).extractLsb' 0 8 ≠ 0x01#8 ∧ (0x00#64 : Word).extractLsb' 0 8 ≠ 0x02#8 ∧
    (0x03#64 : Word).extractLsb' 0 8 ≠ 0x02#8 ∧ (0xFF#64 : Word).extractLsb' 0 8 ≠ 0x01#8 := by decide

theorem witness_EncryptWithoutScheduleSetsENokeyOnly :
    State.reset.phase = 0#2 ∧ State.reset.kvalid = false ∧ (0x02#64 : Word).extractLsb' 0 8 = 0x02#8 := by decide

theorem witness_KeygenAcceptedPerformsKsInit : ready.phase = 0#2 ∧ (0x101#64 : Word).extractLsb' 0 8 = 0x01#8 := by decide

theorem witness_EncryptAcceptedPerformsEncInit :
    ready.phase = 0#2 ∧ ready.kvalid = true ∧ (0x02#64 : Word).extractLsb' 0 8 = 0x02#8 := by decide

/-- The first and the last round. -/
theorem witness_KsRoundMakesOneRoundKey :
    (scheduling 0 0 0).phase = 1#2 ∧ (scheduling 0 0 0).rnd.toNat = (0#4 : BitVec 4).toNat ∧
    (scheduling 15 0 0).phase = 1#2 ∧ (scheduling 15 0 0).rnd.toNat = (15#4 : BitVec 4).toNat := by decide

theorem witness_EncRoundIsAFeistelRound :
    (encrypting 0 0 0 0 0).phase = 2#2 ∧ (encrypting 0 0 0 0 0).rnd.toNat = (0#4 : BitVec 4).toNat ∧
    (encrypting 15 0 0 0 0).phase = 2#2 ∧ (encrypting 15 0 0 0 0).rnd.toNat = (15#4 : BitVec 4).toNat := by decide

theorem witness_EncFinalDeliversTheCiphertext :
    (encrypting 16 0 0 0 0).phase = 2#2 ∧ (encrypting 16 0 0 0 0).rnd = 16#5 := by decide

/-- Both ends of the range of output bits, and where the shorter tables end. -/
theorem witness_PermutationUnitSelectsBits :
    bit (permute 0x8000000000000000#64 tableIp) 40 = true ∧ bit (permute 0xFFFFFFFFFFFFFFFF#64 tableIp) 64 = true ∧
    bit (permute 0xFFFFFFFFFFFFFFFF#64 tablePc1) 56 = true ∧ bit (permute 0xFFFFFFFFFFFFFFFF#64 tablePc1) 57 = false ∧
    bit (permute 0xFFFFFFFFFFFFFFFF#64 tablePc2) 48 = true ∧ bit (permute 0xFFFFFFFFFFFFFFFF#64 tablePc2) 49 = false ∧
    bit (permute 0xFFFFFFFFFFFFFFFF#64 tableP) 32 = true ∧ bit (permute 0xFFFFFFFFFFFFFFFF#64 tableP) 33 = false := by
  decide +kernel

theorem witness_RotatorRotatesTheField :
    bit (rotl28 0x8000000000000000#64 1) 28 = true ∧ bit (rotl28 0x8000000000000000#64 2) 27 = true ∧
    bit (rotl28 0xFFFFFFFFFFFFFFFF#64 1) 29 = false := by decide +kernel

/-- Each permutation table meets the hypotheses of PermuteIsBitSelection, and two Words agree on the bits it selects. -/
theorem witness_PermuteIsBitSelection :
    (∀ t ∈ [tableIp, tableFp, tablePc1, tablePc2, tableE, tableP], t.length ≤ 64 ∧ ∀ p ∈ t, 1 ≤ p ∧ p ≤ 64) ∧
    (∀ p ∈ tablePc1, bit 0x133457799BBCDFF1#64 p = bit 0x123457799BBCDFF0#64 p) := by decide +kernel

theorem witness_SplitAndJoinAreInverse :
    IsLA 56 0x123456789ABCDE00#64 ∧ IsLA 28 0x1234567000000000#64 ∧ IsLA 28 0x89ABCDE000000000#64 ∧
    join56 0x1234567000000000#64 0x89ABCDE000000000#64 = 0x123456789ABCDE00#64 ∧
    IsLA 32 0x0A4CD99500000000#64 ∧ IsLA 32 0x4342323400000000#64 := by decide

/-- Different operands with the same `EXPAND(half) xor subkey` (section 3.3). -/
theorem witness_RoundFunctionCornerCases :
    expand 0xFFFFFFFF00000000#64 ^^^ 0#64 = expand 0#64 ^^^ 0xFFFFFFFFFFFF0000#64 := by decide +kernel

/-- Section 2.2, rows 1 and 3: two keys that differ in bits 8 and 64 only. -/
theorem witness_ParityBitsAreIgnored :
    ∀ n : Fin 65, 1 ≤ n.val → n.val % 8 ≠ 0 → bit 0x133457799BBCDFF1#64 n.val = bit 0x123457799BBCDFF0#64 n.val := by
  decide +kernel

/-- Section 2.1, the rows of rounds 3 and 16. -/
theorem witness_KeyHalvesRotateFullCircle :
    keyHalvesAfter 0x133457799BBCDFF1#64 3 = (0x0CCAAFF000000000#64, 0x56678F5000000000#64) ∧
    keyHalvesAfter 0x133457799BBCDFF1#64 16 = (0xF0CCAAF000000000#64, 0x556678F000000000#64) := by decide +kernel

/-- The reset state keeps the sequencer's invariant, and so does the last round of a schedule. -/
theorem witness_StepKeepsSequencerInv :
    SequencerInv State.reset ∧ SequencerInv (scheduling 15 0 0) ∧ nextState (fun _ => true) (step (scheduling 15 0 0)) = true :=
  ⟨by constructor <;> decide, by constructor <;> decide, by decide +kernel⟩

theorem witness_LegalSequencerNeverStops :
    SequencerInv { State.reset with pending := [.usePermutationUnit 6 0] } ∧ SequencerInv (encrypting 16 0 0 0 0) :=
  ⟨by constructor <;> decide, by constructor <;> decide⟩

/-- Good states for one key, block and result: in the middle of a schedule with a finished result, and at the end of an encryption. -/
theorem witness_StepKeepsGoodState :
    (∃ s, GoodState State.reset.key 0 7 s ∧ s.phase = phaseKs ∧ s.dvalid = true ∧ MakingSchedule State.reset.key s ∧
      (∀ d rest, s.pending ≠ .reset d :: rest) ∧ ∃ t, step s = .next t) ∧
    (∃ s, Encrypting 5 s ∧ (∀ d rest, s.pending ≠ .reset d :: rest) ∧ ∃ t, step s = .next t) := by
  have making : MakingSchedule State.reset.key (ksInit { State.reset with dout := 7, dvalid := true }) :=
    ⟨rfl, by rw [ksInit_cWord, ksInit_dWord]; rfl, fun r h => absurd h (Nat.not_lt_zero _)⟩
  refine ⟨⟨_, ⟨by constructor <;> decide, fun _ => making, ?_, ?_, fun _ => rfl⟩, rfl, rfl, making, fun d rest h => (by cases h), _, rfl⟩, ?_⟩
  · intro h; exact absurd h (by decide)
  · intro h; exact absurd h (by decide)
  · exact ⟨encInit { State.reset with din := 5 }, ⟨rfl, by rw [encInit_lWord, encInit_rWord]; rfl⟩, fun d rest h => (by cases h), _, rfl⟩

/-- A set flag, and a step of each kind that the statement speaks of. -/
theorem witness_ErrorFlagsAreSticky :
    (let s : State := { scheduling 0 0 0 with eBusy := true }
     s.errorFlag .busy = true ∧ s.pending = [] ∧ nextState (fun t => t.errorFlag .busy) (step s) = true) ∧
    (let s : State := { ready with eNokey := true, pending := [.host 0b100011#6 0] }
     s.errorFlag .nokey = true ∧ nextState (fun t => t.errorFlag .nokey) (step s) = true) := by decide +kernel

/-- One step for each flag, and both ends of each kind of disallowed header. -/
theorem witness_ErrorFlagsAreSetByTheirRefusal :
    nextState (fun t => t.eNokey) (step { State.reset with pending := [.host 0b100011#6 0x102] }) = true ∧
    nextState (fun t => t.eBusy) (step { scheduling 0 0 0 with pending := [.host 0b100011#6 0] }) = true ∧
    nextState (fun t => t.eIllcmd) (step { State.reset with pending := [.host 0b100011#6 3] }) = true ∧
    nextState (fun t => t.eAcc) (step { State.reset with pending := [.host 0b000011#6 0] }) = true ∧
    nextState (fun t => t.eAcc) (step { State.reset with pending := [.host 0b001111#6 0] }) = true ∧
    nextState (fun t => t.eAcc) (step { State.reset with pending := [.host 0b100100#6 0] }) = true ∧
    nextState (fun t => t.eAcc) (step { State.reset with pending := [.host 0b111111#6 0] }) = true := by decide +kernel

/-- One step for each of the four changes of `PHASE`. -/
theorem witness_PhaseTransitions :
    nextState (fun t => t.phase == 1#2) (step { ready with pending := [.host 0b100011#6 0x101] }) = true ∧
    nextState (fun t => t.phase == 0#2) (step (scheduling 15 0 0)) = true ∧
    nextState (fun t => t.phase == 2#2) (step { ready with pending := [.host 0b100011#6 0xF02] }) = true ∧
    nextState (fun t => t.phase == 0#2) (step (encrypting 16 0 0 0 0)) = true := by decide +kernel

/-- One step for each way `RND` can change, and one where it stays. -/
theorem witness_RndCountsRounds :
    nextState (fun t => t.rnd == 0#5) (step { ready with pending := [.host 0b100011#6 1] }) = true ∧
    nextState (fun t => t.rnd == 16#5) (step (scheduling 15 0 0)) = true ∧ (scheduling 15 0 0).pending = [] ∧
    nextState (fun t => t.rnd == 16#5) (step (encrypting 16 0 0 0 0)) = true := by decide +kernel

theorem witness_ValidFlagsFollowTheOperations :
    nextState (fun t => !t.kvalid && t.dvalid) (step { ready with pending := [.host 0b100011#6 1] }) = true ∧
    nextState (fun t => t.kvalid) (step (scheduling 15 0 0)) = true ∧
    nextState (fun t => t.kvalid && !t.dvalid) (step { ready with pending := [.host 0b100011#6 2] }) = true ∧
    nextState (fun t => t.dvalid) (step (encrypting 16 0 0 0 0)) = true := by decide +kernel

theorem witness_RoundKeysChangeOnlyInTheirRound :
    nextState (fun t => t.rkWord 0 != (scheduling 0 0xF0CCAAF000000000#64 0x556678F000000000#64).rkWord 0)
      (step (scheduling 0 0xF0CCAAF000000000#64 0x556678F000000000#64)) = true := by decide +kernel

/-- One step for each register that changes. -/
theorem witness_DataRegistersHaveTheirWriters :
    nextState (fun t => t.key != ready.key) (step { ready with pending := [.host 0b100000#6 5] }) = true ∧
    nextState (fun t => t.din != ready.din) (step { ready with pending := [.host 0b100001#6 5] }) = true ∧
    nextState (fun t => t.dout != ready.dout) (step (encrypting 16 0x4342323400000000#64 0x0A4CD99500000000#64 0 0)) = true ∧
    nextState (fun t => t.r != 0) (step (encrypting 0 0 0 0 0)) = true ∧
    nextState (fun t => t.l != ready.l) (step { ready with din := 5, pending := [.host 0b100011#6 2] }) = true ∧
    nextState (fun t => t.c != 1) (step (scheduling 0 0x0000001000000000#64 0)) = true ∧
    nextState (fun t => t.c != ready.c) (step { ready with key := 0xFFFFFFFFFFFFFFFF, pending := [.host 0b100011#6 1] }) = true := by
  decide +kernel

/-- Fifteen turns with a transaction in between, and none. -/
theorem witness_KeygenFinishesInSixteenSteps :
    let acts := hostWriteAction idxKey 5 :: List.replicate 15 Action.engine
    ready.phase = 0#2 ∧ (1#64 : Word).extractLsb' 0 8 = 0x01#8 ∧ (∀ a ∈ acts, a.isHost = true ∨ a.isEngine = true) ∧
      engineTurns acts = 15 ∧ engineTurns [] ≤ 15 := by decide

theorem witness_EncryptFinishesInSeventeenSteps :
    let acts := hostWriteAction idxDin 5 :: List.replicate 16 Action.engine
    ready.phase = 0#2 ∧ ready.kvalid = true ∧ (2#64 : Word).extractLsb' 0 8 = 0x02#8 ∧
      (∀ a ∈ acts, a.isHost = true ∨ a.isEngine = true) ∧ engineTurns acts = 16 ∧ engineTurns [] ≤ 16 := by decide

/-! ### A finished execution of each script -/

/-- `n` enabled engine steps. -/
def engineSteps : Nat → State → Option State
  | 0, s => some s
  | n + 1, s =>
    if s.phase = phaseIdle then none
    else match perform .engine s with
      | .next t => engineSteps n t
      | .fault _ => none
      | .refused _ => none

theorem runs_after_engineSteps {n : Nat} {s u t : State} {p : List Statement} {out : List (Option Word)}
    (h : engineSteps n s = some u) (r : Runs p u t out) : Runs p s t out := by
  induction n generalizing s with
  | zero => cases h; exact r
  | succ n ih =>
    simp only [engineSteps] at h
    split at h
    · cases h
    · rename_i hp
      cases hs : perform .engine s with
      | next v => rw [hs] at h; exact .engine hp hs (ih h)
      | fault f => rw [hs] at h; cases h
      | refused e => rw [hs] at h; cases h

/-- `ENC b` finishes from an idle state with a schedule, if the engine gets 17 steps of its own. -/
theorem encScript_finishes {b : Word} {s u : State} (hp : s.phase = 0#2) (hk : s.kvalid = true)
    (h : engineSteps 17 (encInit (((s.advance []).writeDin b).advance [])) = some u) (hu : (u.phase == 0#2) = true) :
    ∃ t out, Runs (encScript b) s t out :=
  ⟨_, _, .statement (s1 := (s.advance []).writeDin b) (by simp) rfl
    (.statement (by decide) (perform_cmdEncrypt hp hk) (runs_after_engineSteps h
      (.waitDone (perform_readStatus u) (by rw [← hu, ← showsIdle_status]; rfl)
        (.statement (s1 := (((u.advance []).answer u.status).advance []).answer u.dout) (by decide) rfl (.done _)))))⟩

theorem encScript_finishes_of_any {b : Word} {s : State} (hp : s.phase = 0#2) (hk : s.kvalid = true)
    (h : (engineSteps 17 (encInit (((s.advance []).writeDin b).advance []))).any (fun u => u.phase == 0#2) = true) :
    ∃ t out, Runs (encScript b) s t out :=
  let ⟨_, hu, hq⟩ := (Option.any_eq_true _ _).1 h
  encScript_finishes hp hk hu hq

theorem witness_EncScriptReturnsTheCiphertext :
    ready.phase = 0#2 ∧ ready.kvalid = true ∧ ∃ t out, Runs (encScript 0x8000000000000000#64) ready t out :=
  ⟨rfl, rfl, encScript_finishes_of_any rfl rfl (by decide +kernel)⟩

/-- `DES k, b` finishes from an idle state, if the engine gets 16 and then 17 steps of its own. -/
theorem desScript_finishes {k b : Word} {s u v : State} (hp : s.phase = 0#2)
    (hu : engineSteps 16 (ksInit (((s.advance []).writeKey k).advance [])) = some u) (hi : (u.phase == 0#2) = true)
    (hk : u.kvalid = true)
    (hv : engineSteps 17 (encInit (((((u.advance []).answer u.status).advance []).writeDin b).advance [])) = some v)
    (hq : (v.phase == 0#2) = true) : ∃ t out, Runs (desScript k b) s t out := by
  obtain ⟨t, out, r⟩ := encScript_finishes (b := b) (s := (u.advance []).answer u.status) (by simpa using hi) hk hv hq
  exact ⟨t, _, .statement (s1 := (s.advance []).writeKey k) (by simp) rfl
    (.statement (by decide) (perform_cmdKeygen hp) (runs_after_engineSteps hu
      (.waitDone (perform_readStatus u) (by rw [← hi, ← showsIdle_status]; rfl) r)))⟩

/-- The two operations of `DES k, b` end idle from this state. -/
def bothFinish (k b : Word) (s : State) : Bool :=
  (engineSteps 16 (ksInit (((s.advance []).writeKey k).advance []))).any fun u =>
    u.phase == 0#2 && u.kvalid &&
      (engineSteps 17 (encInit (((((u.advance []).answer u.status).advance []).writeDin b).advance []))).any
        fun v => v.phase == 0#2

theorem finishes_of_bothFinish {k b : Word} {s : State} (hp : s.phase = 0#2) (h : bothFinish k b s = true) :
    ∃ t out, Runs (desScript k b) s t out := by
  obtain ⟨u, hu, h'⟩ := (Option.any_eq_true _ _).1 h
  simp only [Bool.and_eq_true] at h'
  obtain ⟨v, hv, hq⟩ := (Option.any_eq_true _ _).1 h'.2
  exact desScript_finishes hp hu h'.1.1 h'.1.2 hv hq

theorem witness_DesScriptReturnsDes :
    State.reset.phase = 0#2 ∧ ∃ t out, Runs (desScript 0x0101010101010101#64 0x8000000000000000#64) State.reset t out :=
  ⟨rfl, finishes_of_bothFinish rfl (by decide +kernel)⟩

/-! ### A fair execution in which the host commands once and then waits -/

/-- The codes of the sequencer in which the engine's turn completes. -/
def Enabled (s : State) : Prop :=
  s.phase = phaseIdle ∨ (s.phase = phaseKs ∧ s.rnd.toNat ≤ 15) ∨ (s.phase = phaseEnc ∧ s.rnd.toNat ≤ 16)

theorem enabled_engine {s : State} (h : Enabled s) (busy : s.phase ≠ phaseIdle) :
    ∃ t, perform .engine s = .next t ∧ Enabled t := by
  have narrow : ∀ n : BitVec 5, n.toNat ≤ 15 → n.toNat = (n.setWidth 4 : BitVec 4).toNat := by decide
  rcases h with h | ⟨hp, hr⟩ | ⟨hp, hr⟩
  · exact absurd h busy
  · refine ⟨_, perform_engine_ksRound hp (narrow _ hr), ?_⟩
    have fifteen : ∀ n : BitVec 5, n.toNat ≤ 15 → (n.setWidth 4 : BitVec 4) ≠ 15#4 → n.toNat ≤ 14 := by decide
    by_cases hl : (s.rnd.setWidth 4 : BitVec 4) = 15#4
    · left; simp [hl]
    · right; left
      rw [ksRoundEffect_phase, ksRoundEffect_rnd, if_neg hl, round_toNat, ← narrow _ hr]
      exact ⟨hp, Nat.succ_le_succ (fifteen _ hr hl)⟩
  · by_cases hl : s.rnd.toNat ≤ 15
    · refine ⟨_, perform_engine_encRound hp (narrow _ hl), .inr (.inr ?_)⟩
      rw [encRoundEffect_phase, encRoundEffect_rnd, round_toNat, ← narrow _ hl]
      exact ⟨hp, Nat.succ_le_succ hl⟩
    · exact ⟨_, perform_engine_encFinal hp (BitVec.eq_of_toNat_eq (show s.rnd.toNat = 16 by omega)), .inl rfl⟩

/-- The action `a` first; after it the engine, while busy, and the host, reading `STATUS`, by turns. -/
def byTurns (a : Action) : Nat → State → Option Action
  | 0, _ => some a
  | n + 1, s => if n % 2 = 0 ∧ s.phase ≠ phaseIdle then some .engine else some Statement.wait.action

/-- The state after what happened at one moment. -/
def afterMoment (o : Option Action) (s : State) : State :=
  match o with
  | none => s
  | some a =>
    match perform a s with
    | .next t => t
    | .fault _ => s
    | .refused _ => s

/-- The states of that execution. -/
def demoStates (a : Action) (s : State) : Nat → State
  | 0 => s
  | n + 1 => afterMoment (byTurns a n (demoStates a s n)) (demoStates a s n)

/-- Its actions. -/
def demoActs (a : Action) (s : State) (n : Nat) : Option Action := byTurns a n (demoStates a s n)

theorem demoActs_succ (a : Action) (s : State) (n : Nat) :
    (n % 2 = 0 ∧ (demoStates a s (n + 1)).phase ≠ phaseIdle ∧ demoActs a s (n + 1) = some .engine) ∨
    demoActs a s (n + 1) = some Statement.wait.action := by
  simp only [demoActs, byTurns]
  split <;> rename_i h
  exacts [.inl ⟨h.1, h.2, rfl⟩, .inr rfl]

theorem demo_next {a b : Action} {s t : State} {n : Nat} (ha : demoActs a s n = some b)
    (hb : perform b (demoStates a s n) = .next t) : demoStates a s (n + 1) = t := by
  have ha : byTurns a n (demoStates a s n) = some b := ha
  simp only [demoStates, ha, afterMoment, hb]

theorem demo_first {a : Action} {s u : State} (ha : perform a s = .next u) : demoStates a s (0 + 1) = u :=
  demo_next (a := a) (b := a) (s := s) (n := 0) rfl ha

theorem demo_enabled {a : Action} {s u : State} (ha : perform a s = .next u) (hu : Enabled u) (n : Nat) :
    Enabled (demoStates a s (n + 1)) := by
  induction n with
  | zero => rw [demo_first ha]; exact hu
  | succ n ih =>
    rcases demoActs_succ a s n with ⟨_, busy, h⟩ | h
    · obtain ⟨t, ht, he⟩ := enabled_engine ih busy
      rw [demo_next h ht]; exact he
    · rw [demo_next h (perform_wait _)]; simpa [Enabled] using ih

theorem demo_isExecution {a : Action} {s u : State} (hh : a.isHost = true) (ha : perform a s = .next u) (hu : Enabled u) :
    IsExecution (demoStates a s) (demoActs a s) := by
  intro n
  cases n with
  | zero =>
    refine ⟨by simp [Action.isHardware, hh], fun he => ?_, by rw [demo_first ha]; exact ha⟩
    rw [he] at hh; cases hh
  | succ n =>
    rcases demoActs_succ a s n with ⟨_, busy, h⟩ | h <;> rw [h]
    · obtain ⟨t, ht, _⟩ := enabled_engine (demo_enabled ha hu n) busy
      exact ⟨rfl, fun _ => busy, by rw [demo_next h ht]; exact ht⟩
    · exact ⟨rfl, fun he => (by cases he), by rw [demo_next h (perform_wait _)]; exact perform_wait _⟩

theorem demo_fair (a : Action) (s : State) : WeaklyFair (demoStates a s) (demoActs a s) := by
  intro n busy
  refine ⟨2 * n + 1, by omega, ?_⟩
  exact if_pos ⟨by omega, busy _ (by omega)⟩

theorem demo_waiting (a : Action) (s : State) : Waiting (demoActs a s) 1 := by
  constructor
  · intro m hm
    obtain ⟨n, rfl⟩ : ∃ n, m = n + 1 := ⟨m - 1, by omega⟩
    rcases demoActs_succ a s n with ⟨_, _, h⟩ | h
    exacts [.inr (.inl h), .inr (.inr h)]
  · intro m _
    refine ⟨2 * m + 1 + 1, by omega, ?_⟩
    rcases demoActs_succ a s (2 * m + 1) with ⟨h, _⟩ | h
    exacts [by omega, h]

theorem demo_no_reset (a : Action) (s : State) (m : Nat) (d : ResetData) (hm : 0 < m) : demoActs a s m ≠ some (.reset d) := by
  obtain ⟨n, rfl⟩ : ∃ n, m = n + 1 := ⟨m - 1, by omega⟩
  rcases demoActs_succ a s n with ⟨_, _, h⟩ | h <;> rw [h] <;> intro e <;> cases e

/-- Both commands accepted at moment 0, and a host that waits from moment 1 on. -/
theorem witness_AcceptedCommandsFinishUnderFairness :
    (∃ states acts, IsExecution states acts ∧ WeaklyFair states acts ∧ (∀ m d, 0 < m → acts m ≠ some (.reset d)) ∧
      (states 0).phase = 0#2 ∧ acts 0 = some (hostWriteAction idxCmd 1#64)) ∧
    (∃ states acts, IsExecution states acts ∧ WeaklyFair states acts ∧ (∀ m d, 0 < m → acts m ≠ some (.reset d)) ∧
      (states 0).phase = 0#2 ∧ (states 0).kvalid = true ∧ acts 0 = some (hostWriteAction idxCmd 2#64)) :=
  ⟨⟨_, _, demo_isExecution (s := State.reset) rfl (perform_cmdKeygen rfl) (.inr (.inl (by decide))), demo_fair _ _,
      demo_no_reset _ _, rfl, rfl⟩,
    ⟨_, _, demo_isExecution (s := ready) rfl (perform_cmdEncrypt rfl rfl) (.inr (.inr (by decide))), demo_fair _ _,
      demo_no_reset _ _, rfl, rfl, rfl⟩⟩

/-- A host that waits for a `KEYGEN` it has commanded. -/
theorem witness_WaitEndsUnderFairness :
    ∃ states acts, IsExecution states acts ∧ WeaklyFair states acts ∧ Waiting acts 1 ∧ (states 1).phase = 1#2 :=
  ⟨_, _, demo_isExecution (s := State.reset) rfl (perform_cmdKeygen rfl) (.inr (.inl (by decide))), demo_fair _ _,
    demo_waiting _ _, rfl⟩

end Sys2Proof.Tests
end

/-! PROOFS. One step and the operations in progress: what a step keeps of a schedule being made, of an encryption and of a good state
(00_scope.md R12; settles O44). -/

namespace Sys2Proof.Machine

/-! ### What the host and the bench do not reach -/

/-- The engine's own registers: the state with everything blanked that a host transaction or a bench action can change without a command
being accepted. -/
def State.engineRegs (s : State) : State :=
  { s with key := 0, din := 0, eNokey := false, eBusy := false, eIllcmd := false, eAcc := false, returned := none, pending := [] }

@[simp] theorem engineRegs_answer (s : State) (v : Word) : (s.answer v).engineRegs = s.engineRegs := rfl
@[simp] theorem engineRegs_writeKey (s : State) (v : Word) : (s.writeKey v).engineRegs = s.engineRegs := rfl
@[simp] theorem engineRegs_writeDin (s : State) (v : Word) : (s.writeDin v).engineRegs = s.engineRegs := rfl
@[simp] theorem engineRegs_advance (s : State) (rest : List Action) : (s.advance rest).engineRegs = s.engineRegs := rfl
@[simp] theorem engineRegs_raise (s : State) (e : ErrorFlag) : (s.raise e).engineRegs = s.engineRegs := by cases e <;> rfl

theorem phase_eq_of_engineRegs {s t : State} (e : t.engineRegs = s.engineRegs) : t.phase = s.phase :=
  show t.engineRegs.phase = s.engineRegs.phase from e ▸ rfl

theorem rkWords_eq_of_engineRegs {s t : State} (e : t.engineRegs = s.engineRegs) : t.rkWords = s.rkWords :=
  show t.engineRegs.rkWords = s.engineRegs.rkWords from e ▸ rfl

/-- The invariants speak of the engine's own registers only. -/
theorem sequencerInv_engineRegs (s : State) : SequencerInv s.engineRegs ↔ SequencerInv s :=
  ⟨fun ⟨h1, h2, h3, h4, h5, h6⟩ => ⟨h1, h2, h3, h4, h5, h6⟩, fun ⟨h1, h2, h3, h4, h5, h6⟩ => ⟨h1, h2, h3, h4, h5, h6⟩⟩

theorem makingSchedule_engineRegs (k : Word) (s : State) : MakingSchedule k s.engineRegs ↔ MakingSchedule k s :=
  ⟨fun ⟨hp, hh, hk⟩ => ⟨hp, hh, hk⟩, fun ⟨hp, hh, hk⟩ => ⟨hp, hh, hk⟩⟩

theorem encrypting_engineRegs (b : Word) (s : State) : Encrypting b s.engineRegs ↔ Encrypting b s :=
  ⟨fun ⟨hp, hh⟩ => ⟨hp, hh⟩, fun ⟨hp, hh⟩ => ⟨hp, hh⟩⟩

theorem goodState_engineRegs (k b x : Word) (s : State) : GoodState k b x s.engineRegs ↔ GoodState k b x s where
  mp | ⟨hi, hm, hk, he, hv⟩ => ⟨(sequencerInv_engineRegs s).1 hi, fun hp => (makingSchedule_engineRegs k s).1 (hm hp), hk,
    fun hp => (encrypting_engineRegs b s).1 (he hp), hv⟩
  mpr | ⟨hi, hm, hk, he, hv⟩ => ⟨(sequencerInv_engineRegs s).2 hi, fun hp => (makingSchedule_engineRegs k s).2 (hm hp), hk,
    fun hp => (encrypting_engineRegs b s).2 (he hp), hv⟩

theorem SequencerInv.of_engineRegs_eq {s t : State} (h : SequencerInv s) (e : t.engineRegs = s.engineRegs) : SequencerInv t := by
  rwa [← sequencerInv_engineRegs, e, sequencerInv_engineRegs]

theorem MakingSchedule.of_engineRegs_eq {k : Word} {s t : State} (h : MakingSchedule k s) (e : t.engineRegs = s.engineRegs) :
    MakingSchedule k t := by
  rwa [← makingSchedule_engineRegs, e, makingSchedule_engineRegs]

theorem Encrypting.of_engineRegs_eq {b : Word} {s t : State} (h : Encrypting b s) (e : t.engineRegs = s.engineRegs) :
    Encrypting b t := by
  rwa [← encrypting_engineRegs, e, encrypting_engineRegs]

theorem GoodState.of_engineRegs_eq {k b x : Word} {s t : State} (h : GoodState k b x s) (e : t.engineRegs = s.engineRegs) :
    GoodState k b x t := by
  rwa [← goodState_engineRegs, e, goodState_engineRegs]

/-- What a step that is no reset event does to the engine's own registers, `s` the state with the action taken off. -/
inductive EngineEffect (s : State) : State → Prop where
  | unchanged {t : State} (same : t.engineRegs = s.engineRegs) : EngineEffect s t
  | keygenAccepted (idle : s.phase = phaseIdle) : EngineEffect s (ksInit s)
  | encryptAccepted (idle : s.phase = phaseIdle) (schedule : s.kvalid = true) : EngineEffect s (encInit s)
  | ksRound (r : BitVec 4) (selected : s.phase = phaseKs) (round : s.rnd.toNat = r.toNat) : EngineEffect s (ksRoundEffect r s)
  | encRound (r : BitVec 4) (selected : s.phase = phaseEnc) (round : s.rnd.toNat = r.toNat) :
      EngineEffect s (encRoundEffect r s)
  | encFinal (selected : s.phase = phaseEnc) (round : s.rnd = 16#5) : EngineEffect s (encFinalEffect s)

theorem Effect.engineEffect {s t : State} (h : Effect s t) : EngineEffect s t := by
  cases h with
  | answered | readRefused | keyWritten | dinWritten | flagged => exact .unchanged (by simp)
  | keygenAccepted idle => exact .keygenAccepted idle
  | encryptAccepted idle schedule => exact .encryptAccepted idle schedule
  | ksRound r selected round => exact .ksRound r selected ((rnd_eq_setWidth _ _).1 round)
  | encRound r selected round => exact .encRound r selected ((rnd_eq_setWidth _ _).1 round)
  | encFinal selected round => exact .encFinal selected round

theorem engineEffect_of_no_reset {s t : State} (h : step s = .next t) (noReset : ∀ d rest, s.pending ≠ .reset d :: rest) :
    ∃ rest, EngineEffect (s.advance rest) t := by
  obtain ⟨rest, rfl | effect⟩ := step_effect_of_no_reset h noReset
  exacts [⟨rest, .unchanged rfl⟩, ⟨rest, effect.engineEffect⟩]

/-- A step is the reset event, or does what `EngineEffect` says. -/
theorem step_reset_or_engineEffect {s t : State} (h : step s = .next t) :
    (∃ d rest, t = (State.resetWith d).advance rest) ∨ ∃ rest, EngineEffect (s.advance rest) t := by
  by_cases hr : ∃ d rest, s.pending = .reset d :: rest
  · obtain ⟨d, rest, front⟩ := hr
    refine .inl ⟨d, rest, next_eq ?_⟩
    rw [← h, step, nextTurn, front]
  · exact .inr (engineEffect_of_no_reset h fun d rest front => hr ⟨d, rest, front⟩)

/-! ### A schedule being made (42_key_schedule.md R153, R155, R157) -/

section
variable {k : Word} {s t : State} {r : BitVec 4}

theorem roundKey_of_halves {i : Nat} {c d : Word} (h : (c, d) = keyHalvesAfter k i) :
    permute (join56 c d) tablePc2 = roundKey k i := by
  rw [roundKey, ← h]

theorem makingSchedule_ksInit (s : State) : MakingSchedule s.key (ksInit s) where
  phase := ksInit_phase s
  halves := by simp
  keys r hr := by simp at hr

/-- The halves after round `r + 1`. -/
theorem MakingSchedule.halves_ksRoundEffect (h : MakingSchedule k s) (round : s.rnd.toNat = r.toNat) :
    ((ksRoundEffect r s).cWord, (ksRoundEffect r s).dWord) = keyHalvesAfter k (r.toNat + 1) := by
  rw [ksRoundEffect_halves, h.halves, round, keyHalvesAfter_succ k r.isLt]

/-- The keys of rounds `1` to `r + 1` are there after round `r + 1`. -/
theorem MakingSchedule.keys_ksRoundEffect (h : MakingSchedule k s) (round : s.rnd.toNat = r.toNat) (m : BitVec 4)
    (hm : m.toNat < r.toNat + 1) : (ksRoundEffect r s).rkWord m = roundKey k (m.toNat + 1) := by
  rw [ksRoundEffect_rkWord]
  split
  · next same => exact same ▸ roundKey_of_halves (h.halves_ksRoundEffect round)
  · next other =>
    have : m.toNat ≠ r.toNat := fun e => other (BitVec.eq_of_toNat_eq e.symm)
    exact h.keys m (by omega)

/-- A round before the last goes on with the schedule. -/
theorem MakingSchedule.ksRound (h : MakingSchedule k s) (round : s.rnd.toNat = r.toNat) (notLast : r ≠ 15#4) :
    MakingSchedule k (ksRoundEffect r s) where
  phase := by rw [ksRoundEffect_phase, if_neg notLast]; exact h.phase
  halves := by rw [h.halves_ksRoundEffect round, ksRoundEffect_rnd, round_toNat]
  keys m hm := h.keys_ksRoundEffect round m (by rwa [ksRoundEffect_rnd, round_toNat] at hm)

/-- The last round completes the schedule. -/
theorem MakingSchedule.rkWords_ksRoundEffect (h : MakingSchedule k s) (round : s.rnd.toNat = r.toNat) (last : r = 15#4) :
    (ksRoundEffect r s).rkWords = generateKeys k := by
  rw [rkWords_eq_iff]
  intro m
  rw [generateKeys_getElem k m.isLt]
  exact h.keys_ksRoundEffect round m (by rw [last]; exact m.isLt)

theorem MakingSchedule.engineEffect (h : MakingSchedule k s) (effect : EngineEffect s t) :
    MakingSchedule k t ∨ (t.phase = phaseIdle ∧ t.kvalid = true ∧ t.rkWords = generateKeys k) := by
  have hp := h.phase
  cases effect with
  | unchanged same => exact .inl (h.of_engineRegs_eq same)
  | ksRound r _ round =>
    by_cases last : r = 15#4
    · exact .inr ⟨by simp [last], by simp [last], h.rkWords_ksRoundEffect round last⟩
    · exact .inl (h.ksRound round last)
  | keygenAccepted other | encryptAccepted other | encRound _ other | encFinal other => simp [hp] at other

end

/-! ### A block being encrypted (44_pipeline_and_host.md R191 to R194) -/

section
variable {b : Word} {s t : State} {r : BitVec 4}

theorem encrypting_encInit (s : State) : Encrypting s.din (encInit s) where
  phase := encInit_phase s
  halves := by simp

theorem Encrypting.encRound (h : Encrypting b s) (round : s.rnd.toNat = r.toNat) : Encrypting b (encRoundEffect r s) where
  phase := h.phase
  halves := by
    rw [encRoundEffect_halves, h.halves, encRoundEffect_rnd, round_toNat, round, ← rkWords_getElem,
      ← blockHalvesAfter_succ b s.rkWords r.isLt]
    rfl

/-- `ENC_FINAL` delivers the block's ciphertext under the keys in the store. -/
theorem Encrypting.dout_encFinalEffect (h : Encrypting b s) (round : s.rnd = 16#5) :
    (encFinalEffect s).dout = encrypt b s.rkWords := by
  have halves : (s.lWord, s.rWord) = blockHalvesAfter b s.rkWords 16 := by rw [h.halves, round]; rfl
  rw [encFinalEffect_dout, encrypt, ← halves]

theorem Encrypting.engineEffect (h : Encrypting b s) (effect : EngineEffect s t) :
    (Encrypting b t ∨ (t.phase = phaseIdle ∧ t.dvalid = true ∧ t.dout = encrypt b s.rkWords)) ∧ t.rkWords = s.rkWords := by
  have hp := h.phase
  cases effect with
  | unchanged same => exact ⟨.inl (h.of_engineRegs_eq same), rkWords_eq_of_engineRegs same⟩
  | encRound r _ round => exact ⟨.inl (h.encRound round), rfl⟩
  | encFinal _ round => exact ⟨.inr ⟨rfl, rfl, h.dout_encFinalEffect round⟩, rfl⟩
  | keygenAccepted other | encryptAccepted other | ksRound _ other => simp [hp] at other

end

/-! ### The sequencer's invariant (30_encoding.md R108) -/

theorem sequencerInv_of_idle {s : State} (idle : s.phase = phaseIdle) (bound : s.rnd.toNat ≤ 16) : SequencerInv s := by
  constructor <;> simp [idle, bound]

theorem sequencerInv_ksInit (s : State) : SequencerInv (ksInit s) := by
  constructor <;> simp

theorem sequencerInv_encInit {s : State} (schedule : s.kvalid = true) : SequencerInv (encInit s) := by
  constructor <;> simp [schedule]

theorem SequencerInv.ksRound {s : State} (h : SequencerInv s) (r : BitVec 4) (selected : s.phase = phaseKs) :
    SequencerInv (ksRoundEffect r s) := by
  have bound : (ksRoundEffect r s).rnd.toNat = r.toNat + 1 := by rw [ksRoundEffect_rnd, round_toNat]
  by_cases last : r = 15#4
  · exact sequencerInv_of_idle (by simp [last]) (by omega)
  · have : r.toNat ≠ 15 := fun e => last (BitVec.eq_of_toNat_eq e)
    constructor <;> simp only [bound, ksRoundEffect_phase, ksRoundEffect_kvalid, if_neg last, selected]
    case rnd_le | ks_rnd_le => omega
    case ks_not_kvalid => exact fun _ => h.ks_not_kvalid selected
    case phase_legal => decide
    case enc_kvalid | enc_not_dvalid => exact fun hp => by simp at hp

theorem SequencerInv.encRound {s : State} (h : SequencerInv s) (r : BitVec 4) (selected : s.phase = phaseEnc) :
    SequencerInv (encRoundEffect r s) := by
  have bound : (encRoundEffect r s).rnd.toNat = r.toNat + 1 := by rw [encRoundEffect_rnd, round_toNat]
  constructor <;> simp only [bound, encRoundEffect_phase, encRoundEffect_kvalid, encRoundEffect_dvalid, selected]
  case rnd_le => omega
  case enc_kvalid => exact fun _ => h.enc_kvalid selected
  case enc_not_dvalid => exact fun _ => h.enc_not_dvalid selected
  case phase_legal => decide
  case ks_rnd_le | ks_not_kvalid => exact fun hp => by simp at hp

/-! ### Good states -/

section
variable {k b x : Word} {s t : State}

theorem keyAfter_of_phase_eq (h : t.phase = s.phase) : keyAfter k s t = k :=
  if_neg (by rintro ⟨hs, ht⟩; simp [h, hs] at ht)

theorem blockAfter_of_phase_eq (h : t.phase = s.phase) : blockAfter b s t = b :=
  if_neg (by rintro ⟨hs, ht⟩; simp [h, hs] at ht)

theorem resultAfter_of_phase_eq (h : t.phase = s.phase) : resultAfter k b x s t = x :=
  if_neg (by rintro ⟨hs, ht⟩; simp [h, hs] at ht)

/-- Nothing is promised after a reset event. -/
theorem goodState_resetWith (k b x : Word) (d : ResetData) : GoodState k b x (State.resetWith d) where
  sequencer := sequencerInv_of_idle rfl (by simp)
  making_schedule h := by simp at h
  schedule_complete h := by simp at h
  encrypting h := by simp at h
  result_valid h := by simp at h

theorem GoodState.keygenAccepted (h : GoodState k b x s) : GoodState s.key b x (ksInit s) where
  sequencer := sequencerInv_ksInit s
  making_schedule _ := makingSchedule_ksInit s
  schedule_complete hk := by simp at hk
  encrypting hp := by simp at hp
  result_valid := h.result_valid

theorem GoodState.encryptAccepted (h : GoodState k b x s) (schedule : s.kvalid = true) : GoodState k s.din x (encInit s) where
  sequencer := sequencerInv_encInit schedule
  making_schedule hp := by simp at hp
  schedule_complete := h.schedule_complete
  encrypting _ := encrypting_encInit s
  result_valid hv := by simp at hv

theorem GoodState.ksRound (h : GoodState k b x s) {r : BitVec 4} (selected : s.phase = phaseKs)
    (round : s.rnd.toNat = r.toNat) : GoodState k b x (ksRoundEffect r s) := by
  have making := h.making_schedule selected
  have notValid := h.sequencer.ks_not_kvalid selected
  refine ⟨h.sequencer.ksRound r selected, fun hp => ?_, fun hk => ?_, fun hp => ?_, fun hv => ?_⟩
  · exact making.ksRound round fun last => by simp [last] at hp
  · exact making.rkWords_ksRoundEffect round (by simpa [notValid] using hk)
  · rw [ksRoundEffect_phase, selected] at hp
    split at hp <;> simp at hp
  · rw [ksRoundEffect_dout]
    exact h.result_valid (by simpa using hv)

theorem GoodState.encRound (h : GoodState k b x s) {r : BitVec 4} (selected : s.phase = phaseEnc)
    (round : s.rnd.toNat = r.toNat) : GoodState k b x (encRoundEffect r s) where
  sequencer := h.sequencer.encRound r selected
  making_schedule hp := by simp [selected] at hp
  schedule_complete := h.schedule_complete
  encrypting _ := (h.encrypting selected).encRound round
  result_valid := h.result_valid

/-- While a block is encrypted the store holds the schedule of `k`, so what is delivered is `DES(k, b)`. -/
theorem GoodState.encFinal (h : GoodState k b x s) (selected : s.phase = phaseEnc) (round : s.rnd = 16#5) :
    GoodState k b (des k b) (encFinalEffect s) where
  sequencer := sequencerInv_of_idle rfl (by simp [round])
  making_schedule hp := by simp at hp
  schedule_complete := h.schedule_complete
  encrypting hp := by simp at hp
  result_valid _ := by
    rw [(h.encrypting selected).dout_encFinalEffect round, h.schedule_complete (h.sequencer.enc_kvalid selected), des]

/-- The step lemma: in every case the key, the block and the result are what `keyAfter`, `blockAfter` and `resultAfter` say. -/
theorem GoodState.engineEffect (h : GoodState k b x s) (effect : EngineEffect s t) :
    GoodState (keyAfter k s t) (blockAfter b s t) (resultAfter k b x s t) t := by
  cases effect with
  | unchanged same =>
    have hp := phase_eq_of_engineRegs same
    rw [keyAfter_of_phase_eq hp, blockAfter_of_phase_eq hp, resultAfter_of_phase_eq hp]
    exact h.of_engineRegs_eq same
  | keygenAccepted idle => simpa [keyAfter, blockAfter, resultAfter, idle] using h.keygenAccepted
  | encryptAccepted idle schedule => simpa [keyAfter, blockAfter, resultAfter, idle] using h.encryptAccepted schedule
  | ksRound r selected round => simpa [keyAfter, blockAfter, resultAfter, selected] using h.ksRound selected round
  | encRound r selected round => simpa [keyAfter, blockAfter, resultAfter, selected] using h.encRound selected round
  | encFinal selected round => simpa [keyAfter, blockAfter, resultAfter, selected] using h.encFinal selected round

theorem GoodState.of_step (h : GoodState k b x s) (took : step s = .next t) :
    GoodState (keyAfter k s t) (blockAfter b s t) (resultAfter k b x s t) t := by
  obtain ⟨d, rest, rfl⟩ | ⟨rest, effect⟩ := step_reset_or_engineEffect took
  · exact (goodState_resetWith _ _ _ d).of_engineRegs_eq (engineRegs_advance _ rest)
  · exact (h.of_engineRegs_eq (engineRegs_advance s rest)).engineEffect effect

end

/-- Settles O44: a step is the reset event, leaves the engine's own registers alone, accepts a command or does one micro-operation, and
each of these keeps what is promised. -/
theorem stepKeepsGoodState : Obligations.StepKeepsGoodState := by
  unfold Obligations.StepKeepsGoodState
  refine ⟨fun k b x s t good took => good.of_step took, fun k s t making took noReset => ?_, fun b s t encrypting took noReset => ?_⟩
  · obtain ⟨rest, effect⟩ := engineEffect_of_no_reset took noReset
    exact (making.of_engineRegs_eq (engineRegs_advance s rest)).engineEffect effect
  · obtain ⟨rest, effect⟩ := engineEffect_of_no_reset took noReset
    exact (encrypting.of_engineRegs_eq (engineRegs_advance s rest)).engineEffect effect

end Sys2Proof.Machine

/-! PROOFS. A script can run to its end when the engine is given its steps (00_scope.md R15; settles O58). -/

namespace Sys2Proof.Machine

/-- Some execution of the script from `s` comes to its end. -/
def CanFinish (p : List Statement) (s : State) : Prop := ∃ t out, Runs p s t out

section
variable {p : List Statement} {s s1 : State}

theorem canFinish_nil (s : State) : CanFinish [] s := ⟨s, [], .done s⟩

theorem CanFinish.statement {st : Statement} (rest : CanFinish p s1) (notWait : st ≠ .wait)
    (took : perform st.action s = .next s1) : CanFinish (st :: p) s := by
  obtain ⟨t, out, run⟩ := rest
  exact ⟨t, _, .statement notWait took run⟩

theorem CanFinish.engine (rest : CanFinish p s1) (enabled : s.phase ≠ phaseIdle) (took : perform .engine s = .next s1) :
    CanFinish p s := by
  obtain ⟨t, out, run⟩ := rest
  exact ⟨t, out, .engine enabled took run⟩

/-- `WAIT` ends at once where the engine is idle. -/
theorem CanFinish.wait (idle : s.phase = phaseIdle) (rest : CanFinish p ((s.advance []).answer s.status)) :
    CanFinish (.wait :: p) s := by
  obtain ⟨t, out, run⟩ := rest
  exact ⟨t, _, .waitDone (perform_wait s) (by rw [State.answer_returned, showsIdle_status, idle]; rfl) run⟩

theorem exists_round {n : BitVec 5} (bound : n.toNat ≤ 15) : ∃ r : BitVec 4, n.toNat = r.toNat :=
  ⟨BitVec.ofNat 4 n.toNat, by rw [BitVec.toNat_ofNat, Nat.mod_eq_of_lt (by omega)]⟩

/-- Engine steps bring a running `KEYGEN` to its end, with a schedule. -/
theorem canFinish_of_ks {s : State} (after : ∀ u : State, u.phase = phaseIdle → u.kvalid = true → CanFinish p u)
    (selected : s.phase = phaseKs) (bound : s.rnd.toNat ≤ 15) : CanFinish p s := by
  obtain ⟨r, round⟩ := exists_round bound
  refine CanFinish.engine ?_ (by simp [selected]) (perform_engine_ksRound selected round)
  by_cases last : r = 15#4
  · exact after _ (by simp [last]) (by simp [last])
  · have : r.toNat ≠ 15 := fun e => last (BitVec.eq_of_toNat_eq e)
    have counted : (ksRoundEffect r (s.advance [])).rnd.toNat = s.rnd.toNat + 1 := by
      rw [ksRoundEffect_rnd, round_toNat, round]
    exact canFinish_of_ks after (by simp [last, selected]) (by omega)
termination_by 15 - s.rnd.toNat

/-- Engine steps bring a running `ENCRYPT` to its end. -/
theorem canFinish_of_enc {s : State} (after : ∀ u : State, u.phase = phaseIdle → CanFinish p u)
    (selected : s.phase = phaseEnc) (bound : s.rnd.toNat ≤ 16) : CanFinish p s := by
  have busy : s.phase ≠ phaseIdle := by simp [selected]
  by_cases last : s.rnd = 16#5
  · exact (after _ rfl).engine busy (perform_engine_encFinal selected last)
  · have : s.rnd.toNat ≠ 16 := fun e => last (BitVec.eq_of_toNat_eq e)
    obtain ⟨r, round⟩ := exists_round (n := s.rnd) (by omega)
    refine CanFinish.engine ?_ busy (perform_engine_encRound selected round)
    have counted : (encRoundEffect r (s.advance [])).rnd.toNat = s.rnd.toNat + 1 := by
      rw [encRoundEffect_rnd, round_toNat, round]
    exact canFinish_of_enc after selected (by omega)
termination_by 16 - s.rnd.toNat

/-! The script's transactions that are always taken (30_encoding.md R110). -/

theorem perform_wrKey (k : Word) (s : State) :
    perform (Statement.wr idxKey k).action s = .next ((s.advance []).writeKey k) := rfl

theorem perform_wrDin (b : Word) (s : State) :
    perform (Statement.wr idxDin b).action s = .next ((s.advance []).writeDin b) := rfl

theorem perform_rdDout (s : State) : perform (Statement.rd idxDout).action s = .next ((s.advance []).answer s.dout) := rfl

theorem canFinish_encScript (b : Word) (idle : s.phase = phaseIdle) (schedule : s.kvalid = true) :
    CanFinish (encScript b) s := by
  refine CanFinish.statement ?_ (by simp) (perform_wrDin b s)
  refine CanFinish.statement ?_ (by simp) (perform_cmdEncrypt idle schedule)
  refine canFinish_of_enc (fun u finished => .wait finished ?_) (encInit_phase _) (by simp)
  exact (canFinish_nil _).statement (by simp) (perform_rdDout _)

theorem canFinish_desScript (k b : Word) (idle : s.phase = phaseIdle) : CanFinish (desScript k b) s := by
  refine CanFinish.statement ?_ (by simp) (perform_wrKey k s)
  refine CanFinish.statement ?_ (by simp) (perform_cmdKeygen idle)
  refine canFinish_of_ks (fun u finished schedule => .wait finished ?_) (ksInit_phase _) (by simp)
  exact canFinish_encScript b finished schedule

end

/-- Settles O58: `KEYGEN` and `ENCRYPT` each come to their end on engine steps alone, and then `WAIT` ends at once. -/
theorem desScriptCanFinish : Obligations.DesScriptCanFinish := by
  unfold Obligations.DesScriptCanFinish
  exact fun k b s idle => canFinish_desScript k b idle

end Sys2Proof.Machine

/-! PROOFS. What the reset event leaves, where a micro-operation is not selected, and what `STATUS` shows (10_state.md R29, R36, R37;
settles O6, O7, O11, O14, O45). -/

namespace Sys2Proof.Machine

/-! ### Reset (10_state.md R37; 70_reset_and_hazards.md R240, R241) -/

theorem step_reset (s : State) (x : ResetData) (rest : List Action) :
    step { s with pending := .reset x :: rest } = .next ((State.resetWith x).advance rest) := rfl

@[simp] theorem status_resetWith (x : ResetData) : (State.resetWith x).status = 0#64 := by
  simp only [State.status, State.resetWith]
  decide

@[simp] theorem status_advance (s : State) (rest : List Action) : (s.advance rest).status = s.status := rfl

theorem exec_hostRead_status (s : State) : exec (.hostRead 0x04#5) s = .next (s.answer s.status) := rfl

/-- Settles O6: the drawn registers are narrow, so as Words they are left-aligned whatever the draw. -/
theorem resetEventLeaves : Obligations.ResetEventLeaves := by
  unfold Obligations.ResetEventLeaves
  intro s x rest
  refine ⟨_, step_reset s x rest, rfl, rfl, rfl, rfl, rfl, rfl, rfl, rfl, rfl, rfl, rfl, rfl, rfl, rfl, rfl, rfl, ?_⟩
  have status : exec (.hostRead 0x04#5) ((State.resetWith x).advance rest) =
      .next (((State.resetWith x).advance rest).answer 0#64) := by
    rw [exec_hostRead_status, status_advance, status_resetWith]
  exact ⟨isLA_la (by omega) _, isLA_la (by omega) _, isLA_la (by omega) _, isLA_la (by omega) _,
    fun _ => isLA_la (by omega) _, status⟩

/-- Settles O7, with the draw that `State.reset` names (log 5). -/
theorem resetStateIsAResetEvent : Obligations.ResetStateIsAResetEvent := by
  unfold Obligations.ResetStateIsAResetEvent
  exact ⟨Config.resetData, fun s => step_reset s Config.resetData []⟩

/-- Settles O45: `State.reset` is one of the reset states. -/
theorem resetStatesAreGood : Obligations.ResetStatesAreGood := by
  unfold Obligations.ResetStatesAreGood
  exact fun k b x => ⟨goodState_resetWith k b x, goodState_resetWith k b x Config.resetData⟩

/-! ### The sequencer word selects (10_state.md R36; 30_encoding.md R103) -/

theorem exec_ksRound_of_not_selected {s : State} {r : BitVec 4} (h : ¬ (s.phase = phaseKs ∧ s.rnd.toNat = r.toNat)) :
    exec (.ksRound r) s = .fault .microOpNotSelected :=
  if_neg (by rwa [s.seq_eq_ksRound, rnd_eq_setWidth])

theorem exec_encRound_of_not_selected {s : State} {r : BitVec 4} (h : ¬ (s.phase = phaseEnc ∧ s.rnd.toNat = r.toNat)) :
    exec (.encRound r) s = .fault .microOpNotSelected :=
  if_neg (by rwa [s.seq_eq_encRound, rnd_eq_setWidth])

theorem exec_encFinal_of_not_selected {s : State} (h : ¬ (s.phase = phaseEnc ∧ s.rnd = 16#5)) :
    exec .encFinal s = .fault .microOpNotSelected :=
  if_neg (by rwa [s.seq_eq_encFinal])

/-- Settles O11: each micro-operation's one guard is its sequencer word. -/
theorem unselectedMicroOpsStop : Obligations.UnselectedMicroOpsStop := by
  unfold Obligations.UnselectedMicroOpsStop
  exact fun s => ⟨fun r => exec_ksRound_of_not_selected, fun r => exec_encRound_of_not_selected, exec_encFinal_of_not_selected⟩

/-! ### `STATUS` (10_state.md R29) -/

theorem getLsbD_append_of_le {m n k : Nat} (a : BitVec m) (b : BitVec n) (h : n ≤ k) :
    (a ++ b).getLsbD k = a.getLsbD (k - n) := by
  rw [BitVec.getLsbD_append, if_neg (by omega)]

section
variable (s : State)

theorem status_rnd : s.status.extractLsb' 0 5 = s.rnd := extract_append_low _ _

theorem status_phase : s.status.extractLsb' 5 2 = s.phase := by
  rw [State.status, BitVec.extractLsb'_append_eq_of_le (by omega)]
  exact extract_append_low _ _

theorem status_kvalid : s.status.getLsbD 7 = s.kvalid := by
  simp only [State.status, BitVec.getLsbD_append, BitVec.getLsbD_ofBool]; simp

theorem status_dvalid : s.status.getLsbD 8 = s.dvalid := by
  simp only [State.status, BitVec.getLsbD_append, BitVec.getLsbD_ofBool]; simp

/-- Each error flag stands at its own bit. -/
theorem status_errorFlag (e : ErrorFlag) : s.status.getLsbD e.statusBit = s.errorFlag e := by
  cases e <;> simp only [State.status, BitVec.getLsbD_append, BitVec.getLsbD_ofBool, State.errorFlag, ErrorFlag.statusBit] <;>
    simp

theorem status_above {k : Nat} (hk : 13 ≤ k) : s.status.getLsbD k = false := by
  simp (disch := omega) only [State.status, getLsbD_append_of_le, BitVec.getLsbD_zero]

end

/-- Settles O14: the Word returned is `State.status`, whose fields the lemmas above name. -/
theorem statusShowsTheFields : Obligations.StatusShowsTheFields := by
  unfold Obligations.StatusShowsTheFields
  exact fun s => ⟨⟨s.status, exec_hostRead_status s, status_rnd s, status_phase s, status_kvalid s, status_dvalid s,
    status_errorFlag s .nokey, status_errorFlag s .busy, status_errorFlag s .illcmd, status_errorFlag s .acc,
    fun _ => status_above s⟩, fun _ => rfl⟩

end Sys2Proof.Machine

/-! PROOFS. Who writes what: in a step that is no reset event, every change of a register is one command accepted, one micro-operation
or one host transaction (10_state.md R20, R30 to R34; settles O47, O48, O49, O50, O52). -/

namespace Sys2Proof.Machine

/-! ### Who moves -/

theorem not_engineMoves_of_front {s : State} {a : Action} {rest : List Action} (front : s.pending = a :: rest)
    (other : a ≠ .engine) : ¬ EngineMoves s := by
  simp [EngineMoves, front, other]

/-! ### The engine's own registers (10_state.md R30 to R33) -/

/-- A register that blanking the others leaves is the same where the engine's own registers are. -/
theorem eq_of_engineRegs {α : Type} {s t : State} (same : t.engineRegs = s.engineRegs) (register : State → α)
    (own : ∀ u : State, register u.engineRegs = register u) : register t = register s := by
  rw [← own t, same, own s]

/-- What a step that is no reset event does to the engine's own registers, `s` the whole state before it, and who does it on what
grounds. -/
inductive Move (s : State) : State → Prop where
  | quiet {t : State} (same : t.engineRegs = s.engineRegs) (noRound : EngineMoves s → s.phase = phaseIdle) : Move s t
  | keygenAccepted (v : Word) (rest : List Action) (front : s.pending = .host commandHeader v :: rest)
      (opc : v.extractLsb' 0 8 = 0x01#8) (idle : s.phase = phaseIdle) : Move s (ksInit (s.advance rest))
  | encryptAccepted (v : Word) (rest : List Action) (front : s.pending = .host commandHeader v :: rest)
      (opc : v.extractLsb' 0 8 = 0x02#8) (idle : s.phase = phaseIdle) (schedule : s.kvalid = true) :
      Move s (encInit (s.advance rest))
  | ksRound (r : BitVec 4) (rest : List Action) (moves : EngineMoves s) (selected : s.phase = phaseKs)
      (round : s.rnd.toNat = r.toNat) : Move s (ksRoundEffect r (s.advance rest))
  | encRound (r : BitVec 4) (rest : List Action) (moves : EngineMoves s) (selected : s.phase = phaseEnc)
      (round : s.rnd.toNat = r.toNat) : Move s (encRoundEffect r (s.advance rest))
  | encFinal (rest : List Action) (moves : EngineMoves s) (selected : s.phase = phaseEnc) (round : s.rnd = 16#5) :
      Move s (encFinalEffect (s.advance rest))

/-- A host transaction moves the engine's own registers only where it has a command accepted. -/
theorem HostEffect.move {s t : State} {header : BitVec 6} {data : Word} {rest : List Action}
    (front : s.pending = .host header data :: rest) (effect : HostEffect header data (s.advance rest) t) : Move s t := by
  have noRound : EngineMoves s → s.phase = phaseIdle := fun moves => absurd moves (not_engineMoves_of_front front (by simp))
  cases effect with
  | answered | readRefused | keyWritten | dinWritten | writeRefused => exact .quiet (by simp) noRound
  | command target =>
    subst target
    rcases commandDecoder_cases (data.extractLsb' 0 8) (s.advance rest) with
      ⟨_, h⟩ | ⟨idle, opc, h⟩ | ⟨idle, opc, schedule, h⟩ | ⟨_, _, _, h⟩ | ⟨_, _, _, h⟩ <;> rw [h]
    · exact .quiet (by simp) noRound
    · exact .keygenAccepted data rest front opc idle
    · exact .encryptAccepted data rest front opc idle schedule
    · exact .quiet (by simp) noRound
    · exact .quiet (by simp) noRound

theorem step_move {s t : State} (took : step s = .next t) (noReset : ∀ x rest, s.pending ≠ .reset x :: rest) : Move s t := by
  cases step_effect took with
  | reset d rest front => exact absurd front (noReset d rest)
  | host header data rest front effect => exact effect.move front
  | idle rest _ still => exact .quiet rfl fun _ => still
  | ksRound rest front r selected round => exact .ksRound r rest front.moves selected ((rnd_eq_setWidth _ _).1 round)
  | encRound rest front r selected round => exact .encRound r rest front.moves selected ((rnd_eq_setWidth _ _).1 round)
  | encFinal rest front selected round => exact .encFinal rest front.moves selected round
  | unitOutput a rest front bench v =>
    exact .quiet rfl fun moves => absurd moves (not_engineMoves_of_front front bench.1)

/-- Settles O48: by the six moves. -/
theorem phaseTransitions : Obligations.PhaseTransitions := by
  unfold Obligations.PhaseTransitions
  intro s t took noReset changed
  cases step_move took noReset with
  | quiet same => exact absurd (phase_eq_of_engineRegs same) changed
  | keygenAccepted v rest front opc idle => exact .inl ⟨idle, rfl, v, rest, front, opc⟩
  | encryptAccepted v rest front opc idle schedule => exact .inr (.inr (.inl ⟨idle, rfl, schedule, v, rest, front, opc⟩))
  | ksRound r rest moves selected round =>
    by_cases last : r = 15#4
    · have : s.rnd = 15#5 := BitVec.eq_of_toNat_eq (by rw [round, last]; rfl)
      exact .inr (.inl ⟨moves, selected, by simp [last], this⟩)
    · simp [last] at changed
  | encRound => simp at changed
  | encFinal rest moves selected round => exact .inr (.inr (.inr ⟨moves, selected, rfl, round⟩))

/-- What a move does to `RND`: a command accepted, a round, or neither. -/
theorem Move.rnd_cases {s t : State} (h : Move s t) :
    (s.phase = phaseIdle ∧ t.phase ≠ phaseIdle ∧ t.rnd = 0#5) ∨
    (EngineMoves s ∧ s.phase ≠ phaseIdle ∧ s.rnd.toNat ≤ 15 ∧ t.rnd.toNat = s.rnd.toNat + 1) ∨
    ((s.phase = phaseIdle → t.phase = phaseIdle) ∧ (EngineMoves s → s.phase ≠ phaseIdle → 15 < s.rnd.toNat) ∧
      t.rnd = s.rnd) := by
  cases h with
  | quiet same noRound =>
    exact .inr (.inr ⟨fun idle => (phase_eq_of_engineRegs same).trans idle, fun moves busy => absurd (noRound moves) busy,
      eq_of_engineRegs same State.rnd fun _ => rfl⟩)
  | keygenAccepted _ _ _ _ idle | encryptAccepted _ _ _ _ idle => exact .inl ⟨idle, by simp, rfl⟩
  | ksRound r rest moves selected round =>
    exact .inr (.inl ⟨moves, by simp [selected], by omega, by rw [ksRoundEffect_rnd, round_toNat, round]⟩)
  | encRound r rest moves selected round =>
    exact .inr (.inl ⟨moves, by simp [selected], by omega, by rw [encRoundEffect_rnd, round_toNat, round]⟩)
  | encFinal rest _ _ round => exact .inr (.inr ⟨fun _ => rfl, fun _ _ => by simp [round], rfl⟩)

/-- Settles O49: each clause is read off the three cases. -/
theorem rndCountsRounds : Obligations.RndCountsRounds := by
  unfold Obligations.RndCountsRounds
  intro s t took noReset
  rcases (step_move took noReset).rnd_cases with ⟨idle, busy, zero⟩ | ⟨moves, busy, bound, counted⟩ | ⟨noStart, noRound, same⟩
  · exact ⟨fun _ => zero, fun ⟨_, notIdle, _⟩ => absurd idle notIdle, fun noStart => absurd ⟨idle, busy⟩ noStart,
      fun _ => by simp [zero]⟩
  · exact ⟨fun start => absurd start.1 busy, fun _ => counted, fun _ noRound => absurd ⟨moves, busy, bound⟩ noRound,
      fun _ => by omega⟩
  · refine ⟨fun ⟨idle, busy⟩ => absurd (noStart idle) busy, fun ⟨moves, busy, bound⟩ => ?_, fun _ _ => same, fun h => same ▸ h⟩
    have := noRound moves busy
    omega

theorem not_transition {s t : State} {p q : BitVec 2} (same : t.phase = s.phase) (ne : p ≠ q) :
    ¬ (s.phase = p ∧ t.phase = q) :=
  fun ⟨before, after⟩ => ne (before.symm.trans (same.symm.trans after))

theorem Move.kvalid_eq {s t : State} (h : Move s t) :
    t.kvalid = if s.phase = phaseIdle ∧ t.phase = phaseKs then false
      else if s.phase = phaseKs ∧ t.phase = phaseIdle then true else s.kvalid := by
  cases h with
  | quiet same =>
    have phase := phase_eq_of_engineRegs same
    rw [if_neg (not_transition phase (by decide)), if_neg (not_transition phase (by decide))]
    exact eq_of_engineRegs same State.kvalid fun _ => rfl
  | keygenAccepted _ _ _ _ idle | encryptAccepted _ _ _ _ idle => simp [idle]
  | ksRound _ _ _ selected | encRound _ _ _ selected | encFinal _ _ selected => simp [selected]

theorem Move.dvalid_eq {s t : State} (h : Move s t) :
    t.dvalid = if s.phase = phaseIdle ∧ t.phase = phaseEnc then false
      else if s.phase = phaseEnc ∧ t.phase = phaseIdle then true else s.dvalid := by
  cases h with
  | quiet same =>
    have phase := phase_eq_of_engineRegs same
    rw [if_neg (not_transition phase (by decide)), if_neg (not_transition phase (by decide))]
    exact eq_of_engineRegs same State.dvalid fun _ => rfl
  | keygenAccepted _ _ _ _ idle | encryptAccepted _ _ _ _ idle => simp [idle]
  | ksRound r _ _ selected => by_cases last : r = 15#4 <;> simp [selected, last]
  | encRound _ _ _ selected | encFinal _ _ selected => simp [selected]

/-- Settles O50: a flag moves exactly with the phase, in each of the six moves. -/
theorem validFlagsFollowTheOperations : Obligations.ValidFlagsFollowTheOperations := by
  unfold Obligations.ValidFlagsFollowTheOperations
  exact fun s t took noReset => ⟨(step_move took noReset).kvalid_eq, (step_move took noReset).dvalid_eq⟩

/-! ### The data registers that the engine writes (10_state.md R25 to R27) -/

theorem Move.dout_writer {s t : State} (h : Move s t) (changed : t.dout ≠ s.dout) :
    EngineMoves s ∧ s.phase = phaseEnc ∧ s.rnd = 16#5 := by
  cases h with
  | quiet same => exact absurd (eq_of_engineRegs same State.dout fun _ => rfl) changed
  | encFinal _ moves selected round => exact ⟨moves, selected, round⟩
  | keygenAccepted | encryptAccepted | ksRound | encRound => simp at changed

theorem Move.lr_writer {s t : State} (h : Move s t) (changed : t.l ≠ s.l ∨ t.r ≠ s.r) :
    (s.phase = phaseIdle ∧ t.phase = phaseEnc) ∨ (EngineMoves s ∧ s.phase = phaseEnc ∧ s.rnd.toNat ≤ 15) := by
  cases h with
  | quiet same =>
    have l : t.l = s.l := eq_of_engineRegs same State.l fun _ => rfl
    have r : t.r = s.r := eq_of_engineRegs same State.r fun _ => rfl
    simp [l, r] at changed
  | encryptAccepted _ _ _ _ idle => exact .inl ⟨idle, rfl⟩
  | encRound r _ moves selected round => exact .inr ⟨moves, selected, by omega⟩
  | keygenAccepted | ksRound | encFinal => simp at changed

theorem Move.cd_writer {s t : State} (h : Move s t) (changed : t.c ≠ s.c ∨ t.d ≠ s.d) :
    (s.phase = phaseIdle ∧ t.phase = phaseKs) ∨ (EngineMoves s ∧ s.phase = phaseKs ∧ s.rnd.toNat ≤ 15) := by
  cases h with
  | quiet same =>
    have c : t.c = s.c := eq_of_engineRegs same State.c fun _ => rfl
    have d : t.d = s.d := eq_of_engineRegs same State.d fun _ => rfl
    simp [c, d] at changed
  | keygenAccepted _ _ _ _ idle => exact .inl ⟨idle, rfl⟩
  | ksRound r _ moves selected round => exact .inr ⟨moves, selected, by omega⟩
  | encryptAccepted | encRound | encFinal => simp at changed

/-! ### What only the host writes (10_state.md R23, R24, R34) -/

section
variable (s : State) (e : ErrorFlag)

@[simp] theorem errorFlag_advance (rest : List Action) : (s.advance rest).errorFlag e = s.errorFlag e := by cases e <;> rfl
@[simp] theorem errorFlag_answer (v : Word) : (s.answer v).errorFlag e = s.errorFlag e := by cases e <;> rfl
@[simp] theorem errorFlag_writeKey (v : Word) : (s.writeKey v).errorFlag e = s.errorFlag e := by cases e <;> rfl
@[simp] theorem errorFlag_writeDin (v : Word) : (s.writeDin v).errorFlag e = s.errorFlag e := by cases e <;> rfl
@[simp] theorem errorFlag_ksInit : (ksInit s).errorFlag e = s.errorFlag e := by cases e <;> rfl
@[simp] theorem errorFlag_encInit : (encInit s).errorFlag e = s.errorFlag e := by cases e <;> rfl
@[simp] theorem errorFlag_ksRoundEffect (r : BitVec 4) : (ksRoundEffect r s).errorFlag e = s.errorFlag e := by
  cases e <;> simp [State.errorFlag]
@[simp] theorem errorFlag_encRoundEffect (r : BitVec 4) : (encRoundEffect r s).errorFlag e = s.errorFlag e := by cases e <;> rfl
@[simp] theorem errorFlag_encFinalEffect : (encFinalEffect s).errorFlag e = s.errorFlag e := by cases e <;> rfl

theorem errorFlag_raise (e' : ErrorFlag) : (s.raise e').errorFlag e = (s.errorFlag e || decide (e' = e)) := by
  cases e <;> simp [State.errorFlag]

/-- The flag that changed is the one raised. -/
theorem eq_of_errorFlag_raise {s : State} {e e' : ErrorFlag} (changed : (s.raise e').errorFlag e ≠ s.errorFlag e) : e' = e := by
  by_contra ne
  simp [errorFlag_raise, ne] at changed

@[simp] theorem commandDecoder_key (opc : BitVec 8) : (commandDecoder opc s).key = s.key := by
  rcases commandDecoder_cases opc s with ⟨_, h⟩ | ⟨_, _, h⟩ | ⟨_, _, _, h⟩ | ⟨_, _, _, h⟩ | ⟨_, _, _, h⟩ <;> simp [h]

@[simp] theorem commandDecoder_din (opc : BitVec 8) : (commandDecoder opc s).din = s.din := by
  rcases commandDecoder_cases opc s with ⟨_, h⟩ | ⟨_, _, h⟩ | ⟨_, _, _, h⟩ | ⟨_, _, _, h⟩ | ⟨_, _, _, h⟩ <;> simp [h]

end

/-- `KEY`, `DIN` and the error flags are as before. -/
structure HostRegsKept (s t : State) : Prop where
  key : t.key = s.key
  din : t.din = s.din
  errorFlag (e : ErrorFlag) : t.errorFlag e = s.errorFlag e

theorem step_host_or_kept {s t : State} (took : step s = .next t) (noReset : ∀ x rest, s.pending ≠ .reset x :: rest) :
    (∃ header data rest, s.pending = .host header data :: rest ∧ HostEffect header data (s.advance rest) t) ∨
      HostRegsKept s t := by
  cases step_effect took with
  | reset d rest front => exact absurd front (noReset d rest)
  | host header data rest front effect => exact .inl ⟨header, data, rest, front, effect⟩
  | idle | ksRound | encRound | encFinal | unitOutput => exact .inr ⟨by simp, by simp, by simp⟩

theorem HostEffect.key_writer {header : BitVec 6} {data : Word} {s t : State} (h : HostEffect header data s t)
    (changed : t.key ≠ s.key) : header = 0b100000#6 ∧ t.key = data := by
  cases h with
  | keyWritten target => exact ⟨target, rfl⟩
  | answered | readRefused | dinWritten | command | writeRefused => simp at changed

theorem HostEffect.din_writer {header : BitVec 6} {data : Word} {s t : State} (h : HostEffect header data s t)
    (changed : t.din ≠ s.din) : header = 0b100001#6 ∧ t.din = data := by
  cases h with
  | dinWritten target => exact ⟨target, rfl⟩
  | answered | readRefused | keyWritten | command | writeRefused => simp at changed

theorem step_key_writer {s t : State} (took : step s = .next t) (noReset : ∀ x rest, s.pending ≠ .reset x :: rest)
    (changed : t.key ≠ s.key) : ∃ rest, s.pending = .host 0b100000#6 t.key :: rest := by
  obtain ⟨header, data, rest, front, effect⟩ | kept := step_host_or_kept took noReset
  · obtain ⟨rfl, rfl⟩ := effect.key_writer changed
    exact ⟨rest, front⟩
  · exact absurd kept.key changed

theorem step_din_writer {s t : State} (took : step s = .next t) (noReset : ∀ x rest, s.pending ≠ .reset x :: rest)
    (changed : t.din ≠ s.din) : ∃ rest, s.pending = .host 0b100001#6 t.din :: rest := by
  obtain ⟨header, data, rest, front, effect⟩ | kept := step_host_or_kept took noReset
  · obtain ⟨rfl, rfl⟩ := effect.din_writer changed
    exact ⟨rest, front⟩
  · exact absurd kept.din changed

/-- Settles O52: `KEY` and `DIN` by the host's own transactions, the rest by the six moves. -/
theorem dataRegistersHaveTheirWriters : Obligations.DataRegistersHaveTheirWriters := by
  unfold Obligations.DataRegistersHaveTheirWriters
  intro s t took noReset
  have move := step_move took noReset
  exact ⟨step_key_writer took noReset, step_din_writer took noReset, move.dout_writer, move.lr_writer, move.cd_writer⟩

/-! ### Refusals (60_exceptions.md R211, R213, R215 to R218) -/

/-- The ground on which a host transaction is refused with the flag, `s` the state it finds. -/
def Refuses (header : BitVec 6) (data : Word) (s : State) : ErrorFlag → Prop
  | .nokey => s.phase = phaseIdle ∧ s.kvalid = false ∧ header = 0b100011#6 ∧ data.extractLsb' 0 8 = 0x02#8
  | .busy => s.phase ≠ phaseIdle ∧ header = 0b100011#6
  | .illcmd => s.phase = phaseIdle ∧ header = 0b100011#6 ∧ data.extractLsb' 0 8 ≠ 0x01#8 ∧ data.extractLsb' 0 8 ≠ 0x02#8
  | .acc =>
    header ∈ [0b000011#6, 0b000101#6, 0b000110#6, 0b000111#6, 0b001100#6, 0b001101#6, 0b001110#6, 0b001111#6] ∨
      header = 0b100010#6 ∨ 0b100100 ≤ header.toNat

/-- The header of a read of an index that the map does not let read. -/
theorem refuses_acc_of_read {header : BitVec 6} {s : State} (data : Word) (kind : header.getLsbD 5 = false)
    (unreadable : s.hostReadable (header.extractLsb' 0 5) = none) : Refuses header data s .acc := by
  have headers : ∀ h : BitVec 6, h.getLsbD 5 = false →
      h.extractLsb' 0 5 ∈ [0x03#5, 0x05#5, 0x06#5, 0x07#5, 0x0C#5, 0x0D#5, 0x0E#5, 0x0F#5] →
      h ∈ [0b000011#6, 0b000101#6, 0b000110#6, 0b000111#6, 0b001100#6, 0b001101#6, 0b001110#6, 0b001111#6] := by decide
  exact .inl (headers header kind ((hostReadable_eq_none s _).1 unreadable))

/-- The header of a write of an index that the map does not let write. -/
theorem refuses_acc_of_write {header : BitVec 6} (data : Word) (s : State) (kind : header.getLsbD 5 = true)
    (unwritable : header.extractLsb' 0 5 ≠ 0x00#5 ∧ header.extractLsb' 0 5 ≠ 0x01#5 ∧ header.extractLsb' 0 5 ≠ 0x03#5) :
    Refuses header data s .acc := by
  have headers : ∀ h : BitVec 6, h.getLsbD 5 = true →
      (h.extractLsb' 0 5 ≠ 0x00#5 ∧ h.extractLsb' 0 5 ≠ 0x01#5 ∧ h.extractLsb' 0 5 ≠ 0x03#5) →
      h = 0b100010#6 ∨ 0b100100 ≤ h.toNat := by decide
  exact .inr (headers header kind unwritable)

theorem refuses_of_commandDecoder {data : Word} {s : State} {e : ErrorFlag}
    (changed : (commandDecoder (data.extractLsb' 0 8) s).errorFlag e ≠ s.errorFlag e) : Refuses 0b100011#6 data s e := by
  rcases commandDecoder_cases (data.extractLsb' 0 8) s with
    ⟨busy, h⟩ | ⟨_, _, h⟩ | ⟨_, _, _, h⟩ | ⟨idle, opc, noSchedule, h⟩ | ⟨idle, notKeygen, notEncrypt, h⟩ <;> rw [h] at changed
  · cases eq_of_errorFlag_raise changed
    exact ⟨busy, rfl⟩
  · simp at changed
  · simp at changed
  · cases eq_of_errorFlag_raise changed
    exact ⟨idle, noSchedule, rfl, opc⟩
  · cases eq_of_errorFlag_raise changed
    exact ⟨idle, rfl, notKeygen, notEncrypt⟩

/-- An error flag that a host transaction changes names the refusal of that transaction. -/
theorem HostEffect.refuses {header : BitVec 6} {data : Word} {s t : State} {e : ErrorFlag} (h : HostEffect header data s t)
    (changed : t.errorFlag e ≠ s.errorFlag e) : Refuses header data s e := by
  cases h with
  | readRefused kind unreadable =>
    rw [errorFlag_answer] at changed
    cases eq_of_errorFlag_raise changed
    exact refuses_acc_of_read data kind unreadable
  | writeRefused kind unwritable =>
    cases eq_of_errorFlag_raise changed
    exact refuses_acc_of_write data s kind unwritable
  | command target =>
    subst target
    exact refuses_of_commandDecoder changed
  | answered | keyWritten | dinWritten => simp at changed

theorem step_refuses {s t : State} {e : ErrorFlag} (took : step s = .next t)
    (noReset : ∀ x rest, s.pending ≠ .reset x :: rest) (changed : t.errorFlag e ≠ s.errorFlag e) :
    ∃ header data rest, s.pending = .host header data :: rest ∧ Refuses header data (s.advance rest) e := by
  obtain ⟨header, data, rest, front, effect⟩ | kept := step_host_or_kept took noReset
  · exact ⟨header, data, rest, front, effect.refuses (by rwa [errorFlag_advance])⟩
  · exact absurd (kept.errorFlag e) changed

/-- Settles O47: each clause is the ground of its flag. -/
theorem errorFlagsAreSetByTheirRefusal : Obligations.ErrorFlagsAreSetByTheirRefusal := by
  unfold Obligations.ErrorFlagsAreSetByTheirRefusal
  intro s t took noReset
  refine ⟨fun changed => ?_, fun changed => ?_, fun changed => ?_, fun changed => ?_⟩
  · obtain ⟨_, v, rest, front, idle, noSchedule, rfl, opc⟩ := step_refuses (e := .nokey) took noReset changed
    exact ⟨idle, noSchedule, v, rest, front, opc⟩
  · obtain ⟨_, v, rest, front, busy, rfl⟩ := step_refuses (e := .busy) took noReset changed
    exact ⟨busy, v, rest, front⟩
  · obtain ⟨_, v, rest, front, idle, rfl, notKeygen, notEncrypt⟩ := step_refuses (e := .illcmd) took noReset changed
    exact ⟨idle, v, rest, front, notKeygen, notEncrypt⟩
  · obtain ⟨header, v, rest, front, denied⟩ := step_refuses (e := .acc) took noReset changed
    exact ⟨header, v, rest, front, denied⟩

end Sys2Proof.Machine

/-! PROOFS. A second read finds what the first found, and a run takes the actions in their order (20_memory.md R84, R86;
settles O12, O15). -/

namespace Sys2Proof.Machine

/-! ### A second read (20_memory.md R84) -/

/-- No readable register shows the Word that the last action put out. -/
@[simp] theorem hostReadable_answer (s : State) (v : Word) (idx : BitVec 5) :
    (s.answer v).hostReadable idx = s.hostReadable idx := rfl

/-- Where the map allows no read, it allows none in any state. -/
theorem hostReadable_eq_none_of_eq_none {s : State} {idx : BitVec 5} (unreadable : s.hostReadable idx = none) (t : State) :
    t.hostReadable idx = none :=
  (hostReadable_eq_none t idx).2 ((hostReadable_eq_none s idx).1 unreadable)

theorem exec_hostRead_of_some {s : State} {idx : BitVec 5} {v : Word} (readable : s.hostReadable idx = some v) :
    exec (.hostRead idx) s = .next (s.answer v) := by
  simp only [exec, execHostRead, readable]

theorem exec_hostRead_of_none {s : State} {idx : BitVec 5} (unreadable : s.hostReadable idx = none) :
    exec (.hostRead idx) s = .next ((s.raise .acc).answer 0#64) := by
  simp only [exec, execHostRead, unreadable]

theorem answer_answer (s : State) (v w : Word) : (s.answer v).answer w = s.answer w := rfl

/-- A flag that is up stays up: refusing a read once more changes nothing. -/
theorem refuseRead_refuseRead (s : State) :
    (((s.raise .acc).answer 0#64).raise .acc).answer 0#64 = (s.raise .acc).answer 0#64 := rfl

/-- Settles O15: the first read writes nothing that a second one shows, and a refused read raises a flag that is then already up. -/
theorem hostReadIsIdempotent : Obligations.HostReadIsIdempotent := by
  unfold Obligations.HostReadIsIdempotent
  intro idx s
  cases found : s.hostReadable idx with
  | some v =>
    have second : exec (.hostRead idx) (s.answer v) = .next ((s.answer v).answer v) :=
      exec_hostRead_of_some (by rw [hostReadable_answer, found])
    exact ⟨s.answer v, exec_hostRead_of_some found, by rw [second, answer_answer]⟩
  | none =>
    have second := exec_hostRead_of_none (hostReadable_eq_none_of_eq_none found ((s.raise .acc).answer 0#64))
    exact ⟨(s.raise .acc).answer 0#64, exec_hostRead_of_none found, by rw [second, refuseRead_refuseRead]⟩

/-! ### The actions to come (20_memory.md R86) -/

section
variable {M : Host.Core} {s : M.State}

theorem run_succ_of_next {t : M.State} (took : M.step s = .next t) (n : Nat) : M.run (n + 1) s = M.run n t := by
  simp only [Host.Core.run, took]

theorem run_succ_of_fault {f : M.Fault} (stopped : M.step s = .fault f) (n : Nat) : M.run (n + 1) s = .fault f := by
  simp only [Host.Core.run, stopped]

theorem run_succ_of_refused {e : M.Refusal} (stopped : M.step s = .refused e) (n : Nat) : M.run (n + 1) s = .refused e := by
  simp only [Host.Core.run, stopped]

end

/-- An action by itself leaves nothing to come. -/
theorem pending_nil_of_perform {a : Action} {s t : State} (took : perform a s = .next t) : { t with pending := [] } = t := by
  rw [← perform_pending took]

/-- Settles O12, by induction on the actions: a step is its action by itself with the rest still to come. -/
theorem pendingActionsAreTakenInOrder : Obligations.PendingActionsAreTakenInOrder := by
  unfold Obligations.PendingActionsAreTakenInOrder
  intro acts
  induction acts with
  | nil => exact fun _ => rfl
  | cons a rest ih =>
    intro s
    have stepped : step { s with pending := a :: rest } = withPending rest (perform a { s with pending := [] }) :=
      step_eq_perform s a rest
    rw [List.length_cons, runActions]
    cases alone : perform a { s with pending := [] } <;> rw [alone] at stepped
    case next t =>
      have later : Host.Core.run core rest.length { t with pending := rest } = runActions rest t := by
        rw [ih t, pending_nil_of_perform alone]
      exact (run_succ_of_next (M := core) stepped rest.length).trans later
    case fault => exact run_succ_of_fault (M := core) stepped rest.length
    case refused => exact run_succ_of_refused (M := core) stepped rest.length

end Sys2Proof.Machine

/-! PROOFS. The decoder and the encoder undo each other, the decoder agrees with the opcode table, and what every sequencer word
selects (30_encoding.md R100 to R109; settles O1, O2, O3, O4). -/

namespace Sys2Proof.Machine

/-! ### Cutting a code into its fields and joining them again -/

theorem extract_append_extract {m n : Nat} (x : BitVec (m + n)) : x.extractLsb' n m ++ x.extractLsb' 0 n = x := by
  rw [BitVec.extractLsb'_append_extractLsb'_eq_extractLsb' (by omega), BitVec.extractLsb'_eq_self]

/-- Every value of a table select or of an S-box number. -/
theorem bitVec3_cases (x : BitVec 3) :
    x = 0#3 ∨ x = 1#3 ∨ x = 2#3 ∨ x = 3#3 ∨ x = 4#3 ∨ x = 5#3 ∨ x = 6#3 ∨ x = 7#3 := by
  revert x; decide

/-! ### Format `HT` (R100) -/

theorem decodeHt_read (idx : BitVec 5) (data : Word) : decodeHt (0#1 ++ idx) data = .hostRead idx := by
  have kind : (0#1 ++ idx).getLsbD 5 = false := BitVec.getLsbD_append
  rw [decodeHt, kind, extract_append_low]
  rfl

theorem decodeHt_write (idx : BitVec 5) (data : Word) : decodeHt (1#1 ++ idx) data = .hostWrite idx data := by
  have kind : (1#1 ++ idx).getLsbD 5 = true := BitVec.getLsbD_append
  rw [decodeHt, kind, extract_append_low]
  rfl

/-- A header is that of a read or that of a write. -/
theorem header_read_or_write (header : BitVec 6) :
    (header.getLsbD 5 = false ∧ ∃ idx : BitVec 5, header = 0#1 ++ idx) ∨
      (header.getLsbD 5 = true ∧ ∃ idx : BitVec 5, header = 1#1 ++ idx) := by
  have kind : header.extractLsb' 5 1 = BitVec.ofBool (header.getLsbD 5) := by revert header; decide
  have join : header.extractLsb' 5 1 ++ header.extractLsb' 0 5 = header := extract_append_extract (m := 1) (n := 5) header
  rw [kind] at join
  cases bit : header.getLsbD 5 <;> rw [bit] at join
  · exact .inl ⟨rfl, _, join.symm⟩
  · exact .inr ⟨rfl, _, join.symm⟩

/-! ### Formats `CW`, `SQ` and `TS`, which have reserved codes (R101 to R104, R108) -/

/-- Everything a command word can be. -/
theorem decodeCw_cases (opc : BitVec 8) :
    (opc = 0x01#8 ∧ decodeCw opc = .ok .keygen) ∨ (opc = 0x02#8 ∧ decodeCw opc = .ok .encrypt) ∨
      decodeCw opc = .error (.reservedCommand opc) := by
  unfold decodeCw
  by_cases keygen : opc = 0x01#8
  · exact .inl ⟨keygen, if_pos keygen⟩
  · by_cases encrypt : opc = 0x02#8
    · exact .inr (.inl ⟨encrypt, by rw [if_neg keygen, if_pos encrypt]⟩)
    · exact .inr (.inr (by rw [if_neg keygen, if_neg encrypt]))

theorem decodeSq_ksRound (r : BitVec 4) : decodeSq (0b010#3 ++ r) = .ok (.ksRound r) := by revert r; decide

theorem decodeSq_encRound (r : BitVec 4) : decodeSq (0b100#3 ++ r) = .ok (.encRound r) := by revert r; decide

theorem decodeSq_idle (n : BitVec 5) : decodeSq (0b00#2 ++ n) = .error .idleSequencer :=
  if_pos (extract_append_high _ _)

/-- The sequencer words that no rule produces (R108). -/
theorem decodeSq_reserved {p : BitVec 2} {n : BitVec 5}
    (reserved : p = 3#2 ∨ (p = 1#2 ∧ 16 ≤ n.toNat) ∨ (p = 2#2 ∧ 17 ≤ n.toNat)) :
    decodeSq (p ++ n) = .error (.reservedSequencer (p ++ n)) := by
  revert p n; decide

/-- Everything a table select can be. -/
theorem decodeTs_cases (tsel : BitVec 3) (value : Word) :
    (∃ i, decodeTs tsel value = .ok i ∧ encode i = .ts tsel value) ∨
      (6 ≤ tsel.toNat ∧ decodeTs tsel value = .error (.reservedTableSelect tsel)) := by
  rcases bitVec3_cases tsel with rfl | rfl | rfl | rfl | rfl | rfl | rfl | rfl
  iterate 6 exact .inl ⟨_, rfl, rfl⟩
  iterate 2 exact .inr ⟨by decide, rfl⟩

/-! ### Format `SA` (R105) -/

/-- The instruction of box `box` at `row` and `col`. -/
def sboxInstr (box : BitVec 3) (row : BitVec 2) (col : BitVec 4) : Instr :=
  if box = 0#3 then .sbox0 row col
  else if box = 1#3 then .sbox1 row col
  else if box = 2#3 then .sbox2 row col
  else if box = 3#3 then .sbox3 row col
  else if box = 4#3 then .sbox4 row col
  else if box = 5#3 then .sbox5 row col
  else if box = 6#3 then .sbox6 row col
  else .sbox7 row col

theorem decodeSa_eq_sboxInstr (addr : BitVec 9) :
    decodeSa addr = sboxInstr (addr.extractLsb' 6 3) (addr.extractLsb' 4 2) (addr.extractLsb' 0 4) := rfl

theorem encode_sboxInstr (box : BitVec 3) (row : BitVec 2) (col : BitVec 4) :
    encode (sboxInstr box row col) = .sa (box ++ row ++ col) := by
  rcases bitVec3_cases box with rfl | rfl | rfl | rfl | rfl | rfl | rfl | rfl <;> rfl

theorem decodeSa_append (box : BitVec 3) (row : BitVec 2) (col : BitVec 4) :
    decodeSa (box ++ row ++ col) = sboxInstr box row col := by
  have boxField : (box ++ row ++ col).extractLsb' 6 3 = box := by
    rw [BitVec.extractLsb'_append_eq_of_le (by omega)]; exact extract_append_high _ _
  have rowField : (box ++ row ++ col).extractLsb' 4 2 = row := by
    rw [BitVec.extractLsb'_append_eq_of_le (by omega)]; exact extract_append_low _ _
  rw [decodeSa_eq_sboxInstr, boxField, rowField, extract_append_low]

theorem sboxAddress_append (addr : BitVec 9) :
    addr.extractLsb' 6 3 ++ addr.extractLsb' 4 2 ++ addr.extractLsb' 0 4 = addr := by
  have boxRow : addr.extractLsb' 6 3 ++ addr.extractLsb' 4 2 = addr.extractLsb' 4 5 :=
    BitVec.extractLsb'_append_extractLsb'_eq_extractLsb' (by omega)
  rw [boxRow]
  exact extract_append_extract (m := 5) (n := 4) addr

theorem decode_encode_sboxInstr (box : BitVec 3) (row : BitVec 2) (col : BitVec 4) :
    decode (encode (sboxInstr box row col)) = .ok (sboxInstr box row col) := by
  rw [encode_sboxInstr, decode, decodeSa_append]

/-! ### The round trips -/

theorem decode_encode (i : Instr) : decode (encode i) = .ok i := by
  cases i with
  | hostRead idx => exact congrArg Except.ok (decodeHt_read idx 0)
  | hostWrite idx data => exact congrArg Except.ok (decodeHt_write idx data)
  | ksRound r => exact decodeSq_ksRound r
  | encRound r => exact decodeSq_encRound r
  | keygen | encrypt | encFinal => rfl
  | permIp | permFp | permPc1 | permPc2 | permE | permP | rotl28By1 | rotl28By2 => rfl
  | sbox0 row col => exact decode_encode_sboxInstr 0 row col
  | sbox1 row col => exact decode_encode_sboxInstr 1 row col
  | sbox2 row col => exact decode_encode_sboxInstr 2 row col
  | sbox3 row col => exact decode_encode_sboxInstr 3 row col
  | sbox4 row col => exact decode_encode_sboxInstr 4 row col
  | sbox5 row col => exact decode_encode_sboxInstr 5 row col
  | sbox6 row col => exact decode_encode_sboxInstr 6 row col
  | sbox7 row col => exact decode_encode_sboxInstr 7 row col

/-- Settles O1, format by format. -/
theorem decodeOfEncodeIsTheInstruction : Obligations.DecodeOfEncodeIsTheInstruction := by
  unfold Obligations.DecodeOfEncodeIsTheInstruction
  exact decode_encode

theorem encode_decodeRs (rotsel : BitVec 1) (x : Word) : encode (decodeRs rotsel x) = .rs rotsel x := by
  have selects : rotsel = 0#1 ∨ rotsel = 1#1 := by revert rotsel; decide
  rcases selects with rfl | rfl <;> rfl

/-- The code of what a code decodes to: itself, but for the data bits beside a read's header. -/
theorem encode_of_decode {c : Code} {i : Instr} (decoded : decode c = .ok i) :
    encode i = c ∨ ∃ header data, c = .ht header data ∧ header.getLsbD 5 = false ∧ encode i = .ht header 0 := by
  cases c with
  | ht header data =>
    injection decoded with instr
    rcases header_read_or_write header with ⟨kind, idx, rfl⟩ | ⟨_, idx, rfl⟩
    · exact .inr ⟨_, data, rfl, kind, by rw [← instr, decodeHt_read]; rfl⟩
    · exact .inl (by rw [← instr, decodeHt_write]; rfl)
  | cw opc =>
    rw [decode] at decoded
    rcases decodeCw_cases opc with ⟨rfl, known⟩ | ⟨rfl, known⟩ | known <;> rw [known] at decoded <;> cases decoded <;>
      exact .inl rfl
  | sq seq =>
    rw [decode] at decoded
    rcases decodeSq_cases seq with ⟨_, known⟩ | ⟨r, rfl, known⟩ | ⟨r, rfl, known⟩ | ⟨rfl, known⟩ | ⟨_, _, _, _, known⟩ <;>
      rw [known] at decoded <;> cases decoded <;> exact .inl rfl
  | ts tsel value =>
    rw [decode] at decoded
    rcases decodeTs_cases tsel value with ⟨j, known, code⟩ | ⟨_, known⟩ <;> rw [known] at decoded <;> cases decoded
    exact .inl code
  | rs rotsel x =>
    injection decoded with instr
    exact .inl (by rw [← instr, encode_decodeRs])
  | sa addr =>
    injection decoded with instr
    exact .inl (by rw [← instr, decodeSa_eq_sboxInstr, encode_sboxInstr, sboxAddress_append])

/-- The number and the format leave the data bits out, so even a read keeps them. -/
theorem format_number_of_decode {c : Code} {i : Instr} (decoded : decode c = .ok i) :
    (encode i).format = c.format ∧ (encode i).number = c.number := by
  rcases encode_of_decode decoded with same | ⟨header, data, rfl, _, code⟩
  · rw [same]; exact ⟨rfl, rfl⟩
  · rw [code]; exact ⟨rfl, rfl⟩

/-- Settles O2: the exception of `encode_of_decode` is a read. -/
theorem encodeOfDecodeIsTheCode : Obligations.EncodeOfDecodeIsTheCode := by
  unfold Obligations.EncodeOfDecodeIsTheCode
  intro c i decoded
  obtain ⟨format, number⟩ := format_number_of_decode decoded
  refine ⟨format, number, fun onlyWrites => ?_⟩
  rcases encode_of_decode decoded with same | ⟨header, data, isHt, isRead, _⟩
  · exact same
  · cases isRead.symm.trans (onlyWrites header data isHt)

/-! ### The opcode table (R109) -/

theorem row_matches_iff {row : TableRow} {c : Code} :
    row.matches c = true ↔ row.format = c.format ∧ c.number &&& row.mask = row.pattern := by
  simp [TableRow.matches]

/-- An instruction's code lies in its row, for every constructor of `Instr`. -/
theorem row_matches_encode (i : Instr) : i.row.matches (encode i) = true := by
  cases i
  case hostRead idx => exact Laws.TableRow.hostRead idx
  case hostWrite idx data => exact Laws.TableRow.hostWrite idx data
  case keygen => exact Laws.TableRow.keygen
  case encrypt => exact Laws.TableRow.encrypt
  case ksRound r => exact Laws.TableRow.ksRound r
  case encRound r => exact Laws.TableRow.encRound r
  case encFinal => exact Laws.TableRow.encFinal
  case permIp v => exact Laws.TableRow.permIp v
  case permFp v => exact Laws.TableRow.permFp v
  case permPc1 v => exact Laws.TableRow.permPc1 v
  case permPc2 v => exact Laws.TableRow.permPc2 v
  case permE v => exact Laws.TableRow.permE v
  case permP v => exact Laws.TableRow.permP v
  case rotl28By1 x => exact Laws.TableRow.rotl28By1 x
  case rotl28By2 x => exact Laws.TableRow.rotl28By2 x
  case sbox0 row col => exact Laws.TableRow.sbox0 row col
  case sbox1 row col => exact Laws.TableRow.sbox1 row col
  case sbox2 row col => exact Laws.TableRow.sbox2 row col
  case sbox3 row col => exact Laws.TableRow.sbox3 row col
  case sbox4 row col => exact Laws.TableRow.sbox4 row col
  case sbox5 row col => exact Laws.TableRow.sbox5 row col
  case sbox6 row col => exact Laws.TableRow.sbox6 row col
  case sbox7 row col => exact Laws.TableRow.sbox7 row col

theorem row_matches_of_decode {c : Code} {i : Instr} (decoded : decode c = .ok i) : i.row.matches c = true := by
  obtain ⟨format, number⟩ := format_number_of_decode decoded
  rw [row_matches_iff, ← format, ← number, ← row_matches_iff]
  exact row_matches_encode i

/-- The rows of opcode_table.json. -/
def tableRows : List TableRow :=
  [Instr.row (.hostRead 0), Instr.row (.hostWrite 0 0), Instr.row .keygen, Instr.row .encrypt, Instr.row (.ksRound 0),
    Instr.row (.encRound 0), Instr.row .encFinal, Instr.row (.permIp 0), Instr.row (.permFp 0), Instr.row (.permPc1 0),
    Instr.row (.permPc2 0), Instr.row (.permE 0), Instr.row (.permP 0), Instr.row (.rotl28By1 0), Instr.row (.rotl28By2 0),
    Instr.row (.sbox0 0 0), Instr.row (.sbox1 0 0), Instr.row (.sbox2 0 0), Instr.row (.sbox3 0 0), Instr.row (.sbox4 0 0),
    Instr.row (.sbox5 0 0), Instr.row (.sbox6 0 0), Instr.row (.sbox7 0 0)]

theorem row_mem_tableRows (i : Instr) : i.row ∈ tableRows := by
  cases i <;> simp [tableRows, Instr.row]

/-- Rows of one format are told apart by the bits that both masks keep. -/
theorem row_eq_of_mem_tableRows : ∀ a ∈ tableRows, ∀ b ∈ tableRows,
    a.format = b.format → a.pattern &&& b.mask = b.pattern &&& a.mask → a = b := by
  decide

/-- No code matches two rows. -/
theorem row_eq_of_matches {c : Code} {i j : Instr} (hi : i.row.matches c = true) (hj : j.row.matches c = true) :
    i.row = j.row := by
  obtain ⟨formatI, patternI⟩ := row_matches_iff.1 hi
  obtain ⟨formatJ, patternJ⟩ := row_matches_iff.1 hj
  refine row_eq_of_mem_tableRows _ (row_mem_tableRows i) _ (row_mem_tableRows j) (formatI.trans formatJ.symm) ?_
  rw [← patternI, ← patternJ, Nat.and_right_comm]

/-! Where the number of a code matches a row, the code is none of the reserved ones. -/

theorem decodeCw_isOk {opc : BitVec 8} (known : opc.toNat &&& 0xFF = 1 ∨ opc.toNat &&& 0xFF = 2) :
    (decodeCw opc).isOk = true := by
  revert opc; decide

theorem decodeSq_isOk {seq : BitVec 7}
    (selected : seq.toNat &&& 0x70 = 0x20 ∨ seq.toNat &&& 0x70 = 0x40 ∨ seq.toNat &&& 0x7F = 0x50) :
    (decodeSq seq).isOk = true := by
  revert seq; decide

theorem decodeTs_isOk {tsel : BitVec 3} (value : Word) (known : tsel.toNat &&& 7 ≤ 5) : (decodeTs tsel value).isOk = true := by
  rcases decodeTs_cases tsel value with ⟨i, ok, _⟩ | ⟨reserved, _⟩
  · rw [ok]; rfl
  · have : ∀ x : BitVec 3, x.toNat &&& 7 ≤ 5 → ¬ 6 ≤ x.toNat := by decide
    exact absurd reserved (this tsel known)

theorem decode_isOk_of_matches {c : Code} {j : Instr} (matched : j.row.matches c = true) : (decode c).isOk = true := by
  obtain ⟨format, number⟩ := row_matches_iff.1 matched
  cases c with
  | ht | rs | sa => rfl
  | cw opc =>
    refine decodeCw_isOk ?_
    cases j <;> simp_all [Instr.row, Code.format, Code.number]
  | sq seq =>
    refine decodeSq_isOk ?_
    cases j <;> simp_all [Instr.row, Code.format, Code.number]
  | ts tsel value =>
    refine decodeTs_isOk value ?_
    cases j <;> simp_all [Instr.row, Code.format, Code.number]

theorem exists_decode_of_matches {c : Code} {j : Instr} (matched : j.row.matches c = true) : ∃ i, decode c = .ok i := by
  have ok := decode_isOk_of_matches matched
  cases decoded : decode c with
  | ok i => exact ⟨i, rfl⟩
  | error e => rw [decoded] at ok; cases ok

/-- Settles O3: a decoded code lies in its instruction's row, and in no other. -/
theorem decoderAgreesWithTheOpcodeTable : Obligations.DecoderAgreesWithTheOpcodeTable := by
  unfold Obligations.DecoderAgreesWithTheOpcodeTable
  refine ⟨fun c i decoded => row_matches_of_decode decoded, fun c j matched => ?_⟩
  obtain ⟨i, decoded⟩ := exists_decode_of_matches matched
  exact ⟨i, decoded, row_eq_of_matches (row_matches_of_decode decoded) matched⟩

/-- Settles O4: the selected words, and the reserved ones by `decodeSq_reserved`. -/
theorem sequencerWordSelects : Obligations.SequencerWordSelects := by
  unfold Obligations.SequencerWordSelects
  exact ⟨decodeSq_idle, decodeSq_ksRound, decodeSq_encRound, rfl,
    fun _ bound => decodeSq_reserved (.inr (.inl ⟨rfl, bound⟩)), fun _ bound => decodeSq_reserved (.inr (.inr ⟨rfl, bound⟩)),
    fun _ => decodeSq_reserved (.inl rfl)⟩

end Sys2Proof.Machine

/-! PROOFS. Reserved codes stop the machine, a write of `CMD` is its command, and every step keeps the sequencer in a legal code
(30_encoding.md R101, R108; settles O10, O18, O42). -/

namespace Sys2Proof.Machine

/-! ### Codes that no rule produces (R108) -/

theorem step_of_engine_front {s : State} {rest : List Action} (front : s.pending = .engine :: rest) :
    step s = runCode (.sq s.seq) (s.advance rest) := by
  rw [step, nextTurn, front]
  rfl

theorem step_of_permutationUnit_front {s : State} {rest : List Action} {tsel : BitVec 3} {value : Word}
    (front : s.pending = .usePermutationUnit tsel value :: rest) : step s = runCode (.ts tsel value) (s.advance rest) := by
  rw [step, nextTurn, front]

theorem runCode_of_error {c : Code} {e : DecodeError} (unknown : decode c = .error e) (s : State) :
    runCode c s = rejected e s := by
  rw [runCode, unknown]

theorem decodeTs_reserved {tsel : BitVec 3} (reserved : 6 ≤ tsel.toNat) (value : Word) :
    decodeTs tsel value = .error (.reservedTableSelect tsel) := by
  have selects : tsel = 6#3 ∨ tsel = 7#3 := by revert tsel; decide
  rcases selects with rfl | rfl <;> rfl

/-- Settles O10: both codes are rejected by the decoder, and the rejections are the two stops. -/
theorem reservedCodesHaveNoStep : Obligations.ReservedCodesHaveNoStep := by
  unfold Obligations.ReservedCodesHaveNoStep
  refine ⟨fun s rest front reserved => ?_, fun s rest tsel value front reserved => ?_⟩
  · have unknown : decode (.sq s.seq) = .error (.reservedSequencer s.seq) := decodeSq_reserved reserved
    rw [step_of_engine_front front, runCode_of_error unknown]
    rfl
  · have unknown : decode (.ts tsel value) = .error (.reservedTableSelect tsel) := decodeTs_reserved reserved value
    rw [step_of_permutationUnit_front front, runCode_of_error unknown]
    rfl

/-! ### Commands (R101; 10_state.md R28) -/

theorem exec_hostWrite_cmd (v : Word) (s : State) :
    exec (.hostWrite 0x03#5 v) s = .next (commandDecoder (v.extractLsb' 0 8) s) := rfl

theorem exec_keygen_eq_commandDecoder (s : State) : exec .keygen s = .next (commandDecoder 0x01#8 s) := rfl

theorem exec_encrypt_eq_commandDecoder (s : State) : exec .encrypt s = .next (commandDecoder 0x02#8 s) := by
  simp only [exec, execEncrypt, commandDecoder]
  cases s.kvalid <;> rfl

/-- Settles O18: the command decoder on either command word is that command's own meaning. -/
theorem commandWriteRunsTheCommand : Obligations.CommandWriteRunsTheCommand := by
  unfold Obligations.CommandWriteRunsTheCommand
  intro s v i decoded
  rw [decode] at decoded
  rw [exec_hostWrite_cmd]
  rcases decodeCw_cases (v.extractLsb' 0 8) with ⟨opc, known⟩ | ⟨opc, known⟩ | unknown
  · cases known.symm.trans decoded
    rw [opc, exec_keygen_eq_commandDecoder]
  · cases known.symm.trans decoded
    rw [opc, exec_encrypt_eq_commandDecoder]
  · cases unknown.symm.trans decoded

/-! ### The sequencer stays in a legal code (R108) -/

theorem SequencerInv.engineEffect {s t : State} (h : SequencerInv s) (effect : EngineEffect s t) : SequencerInv t := by
  cases effect with
  | unchanged same => exact h.of_engineRegs_eq same
  | keygenAccepted => exact sequencerInv_ksInit s
  | encryptAccepted _ schedule => exact sequencerInv_encInit schedule
  | ksRound r selected _ => exact h.ksRound r selected
  | encRound r selected _ => exact h.encRound r selected
  | encFinal _ round => exact sequencerInv_of_idle rfl (by simp [round])

/-- Settles O42: a reset event leaves `RND = 0` in `IDLE`; any other step does what `EngineEffect` says. -/
theorem stepKeepsSequencerInv : Obligations.StepKeepsSequencerInv := by
  unfold Obligations.StepKeepsSequencerInv
  intro s t inv took
  obtain ⟨d, rest, rfl⟩ | ⟨rest, effect⟩ := step_reset_or_engineEffect took
  · exact sequencerInv_of_idle rfl (by simp)
  · exact (inv.of_engineRegs_eq (engineRegs_advance s rest)).engineEffect effect

end Sys2Proof.Machine

/-! PROOFS. What the scripts `ENC b` and `DES k, b` return and leave, in every interleaving (30_encoding.md R110 to R112;
44_pipeline_and_host.md R198, R199; settles O56, O57). -/

namespace Sys2Proof.Machine

/-! ### Taking an execution of a script apart -/

section
variable {p : List Statement} {s t : State} {out : List (Option Word)}

/-- A finished script in an idle engine is at its end: no engine step is enabled. -/
theorem Runs.nil_of_idle (run : Runs [] s t out) (idle : s.phase = phaseIdle) : t = s ∧ out = [] := by
  cases run with
  | done => exact ⟨rfl, rfl⟩
  | engine enabled _ _ => exact absurd idle enabled

/-- In an idle engine the statement in front comes next. -/
theorem Runs.statement_of_idle {st : Statement} {s1 : State} (run : Runs (st :: p) s t out) (idle : s.phase = phaseIdle)
    (isNotWait : st ≠ .wait) (does : perform st.action s = .next s1) :
    ∃ out', out = s1.returned :: out' ∧ Runs p s1 t out' := by
  cases run with
  | engine enabled _ _ => exact absurd idle enabled
  | statement _ took rest =>
    cases next_eq (does.symm.trans took)
    exact ⟨_, rfl, rest⟩
  | waitAgain | waitDone => exact absurd rfl isNotWait

/-- A `WAIT` that ends, ends in an idle engine; what enabled engine steps and reads of `STATUS` keep holds there. -/
theorem Runs.of_wait {I : State → Prop} (engineKeeps : ∀ {u v}, I u → u.phase ≠ phaseIdle → perform .engine u = .next v → I v)
    (readKeeps : ∀ {u}, I u → I ((u.advance []).answer u.status)) (run : Runs (.wait :: p) s t out) (start : I s) :
    ∃ u w out', I u ∧ u.phase = phaseIdle ∧ out = w :: out' ∧ Runs p u t out' := by
  generalize script : Statement.wait :: p = q at run
  induction run with
  | done => cases script
  | engine enabled took _ ih => exact ih (engineKeeps start enabled took) script
  | statement notWait => cases script; exact absurd rfl notWait
  | waitAgain took _ _ ih =>
    cases next_eq ((perform_wait _).symm.trans took)
    exact ih (readKeeps start) script
  | waitDone took idle rest =>
    cases script
    cases next_eq ((perform_wait _).symm.trans took)
    rw [State.answer_returned, showsIdle_status, beq_iff_eq] at idle
    exact ⟨_, _, _, readKeeps start, idle, rfl, rest⟩

end

/-! ### An engine step by itself -/

theorem perform_engine_effect {s t : State} (took : perform .engine s = .next t) : ∃ rest, EngineEffect (s.advance rest) t :=
  engineEffect_of_no_reset (s := { s with pending := [.engine] }) took (by simp)

theorem perform_engine_errorFlag {s t : State} (took : perform .engine s = .next t) (e : ErrorFlag) :
    t.errorFlag e = s.errorFlag e := by
  obtain ⟨_, _, _, front, _⟩ | kept := step_host_or_kept took (by simp)
  · cases front
  · exact kept.errorFlag e

/-! ### While `KEYGEN` runs -/

/-- Between the acceptance of a `KEYGEN` and what the host does next: the schedule of `k` is being made or is there. The error flags
are those of `s0`. -/
structure KeygenUnderWay (k : Word) (s0 s : State) : Prop where
  errorFlag (e : ErrorFlag) : s.errorFlag e = s0.errorFlag e
  stage : MakingSchedule k s ∨ (s.phase = phaseIdle ∧ s.kvalid = true ∧ s.rkWords = generateKeys k)

section
variable {k : Word} {s0 s t : State}

theorem KeygenUnderWay.engine (h : KeygenUnderWay k s0 s) (busy : s.phase ≠ phaseIdle) (took : perform .engine s = .next t) :
    KeygenUnderWay k s0 t where
  errorFlag e := (perform_engine_errorFlag took e).trans (h.errorFlag e)
  stage := by
    obtain making | ⟨idle, _⟩ := h.stage
    · obtain ⟨rest, effect⟩ := perform_engine_effect took
      exact (making.of_engineRegs_eq (engineRegs_advance s rest)).engineEffect effect
    · exact absurd idle busy

/-- A read leaves the schedule alone, whatever Word it returns. -/
theorem KeygenUnderWay.answer (h : KeygenUnderWay k s0 s) (v : Word) : KeygenUnderWay k s0 ((s.advance []).answer v) where
  errorFlag e := by simpa using h.errorFlag e
  stage := h.stage.imp_left fun making => making.of_engineRegs_eq rfl

theorem KeygenUnderWay.finished (h : KeygenUnderWay k s0 s) (idle : s.phase = phaseIdle) :
    s.kvalid = true ∧ s.rkWords = generateKeys k := by
  obtain making | ⟨_, done⟩ := h.stage
  · simp [making.phase] at idle
  · exact done

end

/-! ### While `ENCRYPT` runs -/

/-- Between the acceptance of an `ENCRYPT` and what the host does next: the block `b` is being encrypted or its ciphertext is there. The
schedule and the error flags are those of `s0`. -/
structure EncryptUnderWay (b : Word) (s0 s : State) : Prop where
  errorFlag (e : ErrorFlag) : s.errorFlag e = s0.errorFlag e
  rk : s.rk = s0.rk
  kvalid : s.kvalid = true
  stage : Encrypting b s ∨ (s.phase = phaseIdle ∧ s.dvalid = true ∧ s.rnd = 16#5 ∧ s.dout = encrypt b s0.rkWords)

section
variable {b : Word} {s0 s t : State}

theorem rkWords_eq_of_rk (same : s.rk = t.rk) : s.rkWords = t.rkWords := by rw [State.rkWords, same]; rfl

theorem EncryptUnderWay.of_engineRegs_eq (h : EncryptUnderWay b s0 s) (same : t.engineRegs = s.engineRegs)
    (flags : ∀ e, t.errorFlag e = s.errorFlag e) : EncryptUnderWay b s0 t where
  errorFlag e := (flags e).trans (h.errorFlag e)
  rk := (eq_of_engineRegs same State.rk fun _ => rfl).trans h.rk
  kvalid := (eq_of_engineRegs same State.kvalid fun _ => rfl).trans h.kvalid
  stage := by
    have register {α : Type} (f : State → α) := eq_of_engineRegs same f
    rw [register State.phase fun _ => rfl, register State.dvalid fun _ => rfl, register State.rnd fun _ => rfl,
      register State.dout fun _ => rfl]
    exact h.stage.imp_left fun encrypting => encrypting.of_engineRegs_eq same

theorem EncryptUnderWay.engineEffect (h : EncryptUnderWay b s0 s) (busy : s.phase ≠ phaseIdle) (effect : EngineEffect s t)
    (flags : ∀ e, t.errorFlag e = s.errorFlag e) : EncryptUnderWay b s0 t := by
  have encrypting : Encrypting b s := h.stage.resolve_right fun ⟨idle, _⟩ => busy idle
  have hp := encrypting.phase
  have kept (e : ErrorFlag) : t.errorFlag e = s0.errorFlag e := (flags e).trans (h.errorFlag e)
  cases effect with
  | unchanged same => exact h.of_engineRegs_eq same flags
  | encRound r _ round => exact ⟨kept, h.rk, h.kvalid, .inl (encrypting.encRound round)⟩
  | encFinal _ round =>
    have delivered : (encFinalEffect s).dout = encrypt b s0.rkWords := by
      rw [encrypting.dout_encFinalEffect round, rkWords_eq_of_rk h.rk]
    exact ⟨kept, h.rk, h.kvalid, .inr ⟨rfl, rfl, round, delivered⟩⟩
  | keygenAccepted other | encryptAccepted other | ksRound _ other => simp [hp] at other

theorem EncryptUnderWay.engine (h : EncryptUnderWay b s0 s) (busy : s.phase ≠ phaseIdle) (took : perform .engine s = .next t) :
    EncryptUnderWay b s0 t := by
  obtain ⟨rest, effect⟩ := perform_engine_effect took
  have advanced : EncryptUnderWay b s0 (s.advance rest) := h.of_engineRegs_eq rfl (by simp)
  exact advanced.engineEffect busy effect (by simpa using perform_engine_errorFlag took)

/-- A read leaves the encryption alone, whatever Word it returns. -/
theorem EncryptUnderWay.answer (h : EncryptUnderWay b s0 s) (v : Word) : EncryptUnderWay b s0 ((s.advance []).answer v) :=
  h.of_engineRegs_eq rfl (by simp)

theorem EncryptUnderWay.finished (h : EncryptUnderWay b s0 s) (idle : s.phase = phaseIdle) :
    s.dvalid = true ∧ s.rnd = 16#5 ∧ s.dout = encrypt b s0.rkWords := by
  obtain encrypting | ⟨_, done⟩ := h.stage
  · simp [encrypting.phase] at idle
  · exact done

end

/-! ### The scripts (R111, R112) -/

section
variable {k b : Word} {s t : State} {out : List (Option Word)}

/-- `ENC b` ends idle with its ciphertext in `DOUT`, and the last statement returns it. -/
theorem Runs.encScript_ends (run : Runs (encScript b) s t out) (idle : s.phase = phaseIdle) (schedule : s.kvalid = true) :
    out.getLast? = some (some (encrypt b s.rkWords)) ∧ t.phase = phaseIdle ∧ EncryptUnderWay b s t := by
  obtain ⟨_, rfl, afterDin⟩ := run.statement_of_idle idle (by simp) (perform_wrDin b s)
  obtain ⟨_, rfl, afterCmd⟩ := afterDin.statement_of_idle idle (by simp) (perform_cmdEncrypt idle schedule)
  have accepted : EncryptUnderWay b s (encInit (((s.advance []).writeDin b).advance [])) :=
    ⟨by simp, rfl, schedule, .inl (encrypting_encInit (((s.advance []).writeDin b).advance []))⟩
  obtain ⟨u, _, _, underWay, finished, rfl, afterWait⟩ := afterCmd.of_wait .engine (fun h => h.answer _) accepted
  obtain ⟨_, rfl, afterDout⟩ := afterWait.statement_of_idle finished (by simp) (perform_rdDout u)
  obtain ⟨rfl, rfl⟩ := afterDout.nil_of_idle finished
  obtain ⟨_, _, delivered⟩ := underWay.finished finished
  exact ⟨by simp [delivered], finished, underWay.answer _⟩

/-- `DES k, b` is `KEYGEN` of `k`, and then `ENC b` with its schedule. -/
theorem Runs.desScript_ends (run : Runs (desScript k b) s t out) (idle : s.phase = phaseIdle) :
    ∃ u, KeygenUnderWay k s u ∧ out.getLast? = some (some (des k b)) ∧ t.phase = phaseIdle ∧ EncryptUnderWay b u t := by
  obtain ⟨_, rfl, afterKey⟩ := run.statement_of_idle idle (by simp) (perform_wrKey k s)
  obtain ⟨_, rfl, afterCmd⟩ := afterKey.statement_of_idle idle (by simp) (perform_cmdKeygen idle)
  have accepted : KeygenUnderWay k s (ksInit (((s.advance []).writeKey k).advance [])) :=
    ⟨by simp, .inl (makingSchedule_ksInit (((s.advance []).writeKey k).advance []))⟩
  obtain ⟨u, _, _, underWay, finished, rfl, afterWait⟩ := afterCmd.of_wait .engine (fun h => h.answer _) accepted
  obtain ⟨schedule, keys⟩ := underWay.finished finished
  obtain ⟨last, ended, encrypted⟩ := Runs.encScript_ends afterWait finished schedule
  exact ⟨u, underWay, by simp [List.getLast?_cons, last, keys, des], ended, encrypted⟩

end

/-- Settles O57: an encryption under way that is idle again is finished. -/
theorem encScriptReturnsTheCiphertext : Obligations.EncScriptReturnsTheCiphertext := by
  unfold Obligations.EncScriptReturnsTheCiphertext
  intro b s t out idle schedule run
  obtain ⟨last, ended, encrypted⟩ := run.encScript_ends idle schedule
  obtain ⟨valid, rounds, _⟩ := encrypted.finished ended
  exact ⟨last, encrypted.rk, encrypted.kvalid, valid, ended, rounds⟩

/-- Settles O56: neither operation touches an error flag. -/
theorem desScriptReturnsDes : Obligations.DesScriptReturnsDes := by
  unfold Obligations.DesScriptReturnsDes
  intro k b s t out idle run
  obtain ⟨u, keygen, last, ended, encrypted⟩ := run.desScript_ends idle
  obtain ⟨valid, rounds, _⟩ := encrypted.finished ended
  have flags (e : ErrorFlag) : t.errorFlag e = s.errorFlag e := (encrypted.errorFlag e).trans (keygen.errorFlag e)
  exact ⟨last, encrypted.kvalid, valid, ended, rounds, flags .nokey, flags .busy, flags .illcmd, flags .acc⟩

end Sys2Proof.Machine

/-! PROOFS. The permutation unit selects bits, `IP` and `FP` undo each other, and the parity bits of a key are not selected
(41_permutation_unit.md R130 to R138; settles O27, O31, O32, O38). -/

namespace Sys2Proof.Machine

/-! ### `permute` for every table (R130) -/

section
variable {v w : Word} {t u : PermTable} {k : Nat}

/-- `bit_permute`, with the entry looked up by `getD`. -/
theorem bit_permute_getD (v : Word) (fits : t.length ≤ 64) (h1 : 1 ≤ k) (h2 : k ≤ 64) :
    bit (permute v t) k = if k ≤ t.length then bit v (t.getD (k - 1) 0) else false := by
  rw [bit_permute v fits h1 h2]
  split
  · rw [List.getD_eq_getElem]
  · rfl

/-- A full table gives every output bit an entry. -/
theorem bit_permute_of_full (v : Word) (full : t.length = 64) (h1 : 1 ≤ k) (h2 : k ≤ 64) :
    bit (permute v t) k = bit v (t.getD (k - 1) 0) := by
  rw [bit_permute_getD v full.le h1 h2, if_pos (full ▸ h2)]

/-- Bits that the table does not name do not matter (corner case (b)). -/
theorem permute_congr (agree : ∀ p ∈ t, bit v p = bit w p) : permute v t = permute w t := by
  rw [permute, permute, List.map_congr_left agree]

@[simp] theorem permute_zero (fits : t.length ≤ 64) : permute 0#64 t = 0#64 := by
  apply word_ext
  intro i h1 h2
  rw [bit_permute_getD _ fits h1 h2]
  simp

theorem bit_allOnes (h1 : 1 ≤ k) : bit (BitVec.allOnes 64) k = true := by
  rw [bit, BitVec.getLsbD_allOnes, decide_eq_true_iff]
  omega

theorem permute_allOnes (fits : t.length ≤ 64) (entries : ∀ p ∈ t, 1 ≤ p ∧ p ≤ 64) :
    permute (BitVec.allOnes 64) t = la (BitVec.allOnes t.length) := by
  apply word_ext
  intro i h1 h2
  rw [bit_permute _ fits h1 h2, bit_la fits _ h1 h2]
  split
  next inside =>
    rw [bit_allOnes (entries _ (List.getElem_mem _)).1]
    simp only [BitVec.getLsbD_allOnes, Bool.true_eq, Bool.and_eq_true, decide_eq_true_iff]
    omega
  next outside => simp [outside]

end

/-- Settles O31: each clause is one lemma about `permute`. -/
theorem permuteIsBitSelection : Obligations.PermuteIsBitSelection := by
  unfold Obligations.PermuteIsBitSelection
  intro t fits entries
  exact ⟨fun v _ => bit_permute_getD v fits, fun v => isLA_permute v le_rfl fits, fun _ _ => permute_congr,
    permute_zero fits, permute_allOnes fits entries, fun v w => permute_xor v w fits⟩

/-! ### The six table selects (R131 to R137) -/

section
variable {i : Instr} {v : Word} {s : State} {t : PermTable}

/-- A row that answers with `permute v t` selects the bits that `t` names. -/
theorem exec_selects_bits (answers : exec i s = .next (s.answer (permute v t))) (fits : t.length ≤ 64) :
    ∃ w, exec i s = .next { s with returned := some w } ∧
      ∀ k, 1 ≤ k → k ≤ 64 → bit w k = if k ≤ t.length then bit v (t.getD (k - 1) 0) else false :=
  ⟨permute v t, answers, fun _ => bit_permute_getD v fits⟩

/-- The same for a full table. -/
theorem exec_selects_every_bit (answers : exec i s = .next (s.answer (permute v t))) (full : t.length = 64) :
    ∃ w, exec i s = .next { s with returned := some w } ∧
      ∀ k, 1 ≤ k → k ≤ 64 → bit w k = bit v (t.getD (k - 1) 0) :=
  ⟨permute v t, answers, fun _ => bit_permute_of_full v full⟩

end

theorem exec_permIp (v : Word) (s : State) : exec (.permIp v) s = .next (s.answer (permute v tableIp)) := rfl
theorem exec_permFp (v : Word) (s : State) : exec (.permFp v) s = .next (s.answer (permute v tableFp)) := rfl
theorem exec_permPc1 (v : Word) (s : State) : exec (.permPc1 v) s = .next (s.answer (permute v tablePc1)) := rfl
theorem exec_permPc2 (v : Word) (s : State) : exec (.permPc2 v) s = .next (s.answer (permute v tablePc2)) := rfl
theorem exec_permE (v : Word) (s : State) : exec (.permE v) s = .next (s.answer (permute v tableE)) := rfl
theorem exec_permP (v : Word) (s : State) : exec (.permP v) s = .next (s.answer (permute v tableP)) := rfl

/-- Settles O27: `IP` and `FP` are full tables, the other four end before bit 64. -/
theorem permutationUnitSelectsBits : Obligations.PermutationUnitSelectsBits := by
  unfold Obligations.PermutationUnitSelectsBits
  intro v s
  exact ⟨exec_selects_every_bit (exec_permIp v s) tableIp_length, exec_selects_every_bit (exec_permFp v s) tableFp_length,
    exec_selects_bits (exec_permPc1 v s) (by simp), exec_selects_bits (exec_permPc2 v s) (by simp),
    exec_selects_bits (exec_permE v s) (by simp), exec_selects_bits (exec_permP v s) (by simp)⟩

/-! ### `IP` and `FP` (R138) -/

/-- The table that selects at once what `u` selects from the output of `t`. -/
def composeTables (t u : PermTable) : PermTable := u.map fun p => t.getD (p - 1) 0

theorem permute_permute (w : Word) {t u : PermTable} (full : t.length = 64) (entries : ∀ p ∈ u, 1 ≤ p ∧ p ≤ 64) :
    permute (permute w t) u = permute w (composeTables t u) := by
  have selected : ∀ p ∈ u, bit (permute w t) p = bit w (t.getD (p - 1) 0) := fun p hp =>
    bit_permute_of_full w full (entries p hp).1 (entries p hp).2
  calc permute (permute w t) u
      = ofBits (u.map fun p => bit w (t.getD (p - 1) 0)) := congrArg ofBits (List.map_congr_left selected)
    _ = permute w (composeTables t u) := by rw [permute, composeTables, List.map_map]; rfl

/-- The table `1, 2, ..., 64` selects every bit at its own place. -/
theorem permute_positions (w : Word) : permute w (List.range' 1 64) = w := by
  apply word_ext
  intro k h1 h2
  rw [bit_permute_of_full w List.length_range' h1 h2, List.getD_eq_getElem _ _ (by rw [List.length_range']; omega),
    List.getElem_range', show 1 + 1 * (k - 1) = k by omega]

/-- A table undoes a full one when their composition is `1, 2, ..., 64`. -/
theorem permute_permute_cancel (w : Word) {t u : PermTable} (full : t.length = 64) (entries : ∀ p ∈ u, 1 ≤ p ∧ p ≤ 64)
    (undoes : composeTables t u = List.range' 1 64) : permute (permute w t) u = w := by
  rw [permute_permute w full entries, undoes, permute_positions]

theorem composeTables_ip_fp : composeTables tableIp tableFp = List.range' 1 64 := by decide

theorem composeTables_fp_ip : composeTables tableFp tableIp = List.range' 1 64 := by decide

/-- Settles O32: the tables compose to `1, 2, ..., 64` in both orders. -/
theorem initialPermutationRoundTrip : Obligations.InitialPermutationRoundTrip := by
  unfold Obligations.InitialPermutationRoundTrip
  exact fun w => ⟨permute_permute_cancel w tableIp_length (by decide) composeTables_ip_fp,
    permute_permute_cancel w tableFp_length (by decide) composeTables_fp_ip⟩

/-! ### The parity bits of a key (R134; 42_key_schedule.md R156) -/

/-- `PC1` names no position that is a multiple of 8. -/
theorem tablePc1_skips_parity : ∀ p ∈ tablePc1, 1 ≤ p ∧ p ≤ 64 ∧ p % 8 ≠ 0 := by decide

section
variable {k k' : Word}

/-- `(C0, D0)` does not depend on the parity bits. -/
theorem keyHalves_congr (agree : ∀ n, 1 ≤ n → n ≤ 64 → n % 8 ≠ 0 → bit k n = bit k' n) : keyHalves k = keyHalves k' := by
  have selected : ∀ p ∈ tablePc1, bit k p = bit k' p := fun p hp => by
    obtain ⟨h1, h2, notParity⟩ := tablePc1_skips_parity p hp
    exact agree p h1 h2 notParity
  rw [keyHalves, keyHalves, permute_congr selected]

/-- The schedule reads the key only through its first halves. -/
theorem generateKeys_congr (halves : keyHalves k = keyHalves k') : generateKeys k = generateKeys k' := by
  have after (n : Nat) : keyHalvesAfter k n = keyHalvesAfter k' n := by rw [keyHalvesAfter, keyHalvesAfter, halves]
  have key (n : Nat) : roundKey k n = roundKey k' n := by rw [roundKey, roundKey, after]
  simp only [generateKeys, key]

end

/-- Settles O38: the keys have the same schedule, and encryption reads nothing else of them. -/
theorem parityBitsAreIgnored : Obligations.ParityBitsAreIgnored := by
  unfold Obligations.ParityBitsAreIgnored
  intro k k' agree
  have schedule : generateKeys k = generateKeys k' := generateKeys_congr (keyHalves_congr agree)
  exact ⟨schedule, fun b => by rw [des, des, schedule]⟩

end Sys2Proof.Machine

/-! PROOFS. The wiring that cuts a Word into two halves and joins them, and the rotator (42_key_schedule.md R150 to R152;
44_pipeline_and_host.md R190; settles O28, O33, O34). -/

namespace Sys2Proof.Machine

/-! ### Two halves of `n` bits (R150, R151, R190)

`split56` and `join56` are the wiring for `n = 28`, `split64` and `join64` for `n = 32`. -/

/-- The two `n`-bit fields at the top of a Word, each left-aligned. -/
def splitHalves (n : Nat) (w : Word) : Word × Word := (la (top n w), la (top n (w <<< n)))

/-- The second half put behind the `n` bits of the first. -/
def joinHalves (n : Nat) (a b : Word) : Word := a ||| (b >>> n)

section
variable {n i : Nat} {a b w : Word}

theorem bit_la_top (fits : n ≤ 64) (w : Word) (h1 : 1 ≤ i) (h2 : i ≤ 64) :
    bit (la (top n w)) i = (decide (i ≤ n) && bit w i) := by
  rw [bit_la fits _ h1 h2]
  by_cases inside : i ≤ n
  · rw [bit_top w h1 inside fits]
  · simp [inside]

theorem bit_la_top_shl (fits : n + n ≤ 64) (w : Word) (h1 : 1 ≤ i) (h2 : i ≤ 64) :
    bit (la (top n (w <<< n))) i = (decide (i ≤ n) && bit w (i + n)) := by
  rw [bit_la_top (by omega) _ h1 h2, bit_shl w n h1 h2]
  by_cases inside : i ≤ n
  · simp [inside, show i + n ≤ 64 by omega]
  · simp [inside]

theorem bit_joinHalves (ha : IsLA n a) (fits : n ≤ 64) (h2 : i ≤ 64) :
    bit (joinHalves n a b) i = if i ≤ n then bit a i else bit b (i - n) := by
  rw [joinHalves, bit_or, bit_shr b n h2]
  split
  next inside => simp [show ¬ n < i by omega]
  next outside => simp [show n < i by omega, (isLA_iff_bit fits a).1 ha i (by omega) h2]

theorem split56_eq_splitHalves (w : Word) : split56 w = splitHalves 28 w := by
  refine Prod.ext (word_ext fun i h1 h2 => ?_) (word_ext fun i h1 h2 => ?_)
  · rw [bit_split56_fst w h1 h2, splitHalves, bit_la_top (by omega) w h1 h2, Bool.and_comm]
  · rw [bit_split56_snd w h1 h2, splitHalves, bit_la_top_shl (by omega) w h1 h2, Bool.and_comm]

theorem split64_eq_splitHalves (w : Word) : split64 w = splitHalves 32 w := by
  refine Prod.ext (word_ext fun i h1 h2 => ?_) (word_ext fun i h1 h2 => ?_)
  · rw [bit_split64_fst w h1 h2, splitHalves, bit_la_top (by omega) w h1 h2, Bool.and_comm]
  · rw [bit_split64_snd w h1 h2, splitHalves, bit_la_top_shl (by omega) w h1 h2, Bool.and_comm]

theorem join56_eq_joinHalves (c d : Word) : join56 c d = joinHalves 28 c d := rfl

theorem join64_eq_joinHalves (hi lo : Word) : join64 hi lo = joinHalves 32 hi lo := rfl

/-- The second half is the field of bits `n + 1` to `2n`. -/
theorem top_shl (fits : n + n ≤ 64) (w : Word) : top n (w <<< n) = w.extractLsb' (64 - (n + n)) n := by
  apply BitVec.eq_of_getLsbD_eq
  intro k hk
  rw [top, BitVec.getLsbD_extractLsb', BitVec.getLsbD_extractLsb', BitVec.getLsbD_shiftLeft,
    decide_eq_true (show 64 - n + k < 64 by omega), decide_eq_false (show ¬ 64 - n + k < n by omega),
    show 64 - n + k - n = 64 - (n + n) + k by omega]
  rfl

theorem isLA_joinHalves (ha : IsLA n a) (hb : IsLA n b) (fits : n + n ≤ 64) : IsLA (n + n) (joinHalves n a b) := by
  rw [isLA_iff_bit fits]
  intro i h1 h2
  rw [bit_joinHalves ha (by omega) h2, if_neg (by omega)]
  exact (isLA_iff_bit (by omega) b).1 hb (i - n) (by omega) (by omega)

theorem joinHalves_splitHalves (hw : IsLA (n + n) w) (fits : n + n ≤ 64) :
    joinHalves n (splitHalves n w).1 (splitHalves n w).2 = w := by
  have first : IsLA n (splitHalves n w).1 := isLA_la (by omega) _
  apply word_ext
  intro i h1 h2
  rw [bit_joinHalves first (by omega) h2]
  split
  next inside => rw [splitHalves, bit_la_top (by omega) w h1 h2, decide_eq_true inside, Bool.true_and]
  next outside =>
    rw [splitHalves, bit_la_top_shl fits w (by omega) (by omega), show i - n + n = i by omega]
    by_cases second : i - n ≤ n
    · rw [decide_eq_true second, Bool.true_and]
    · rw [(isLA_iff_bit fits w).1 hw i (by omega) h2, Bool.and_false]

theorem splitHalves_joinHalves (ha : IsLA n a) (hb : IsLA n b) (fits : n + n ≤ 64) :
    splitHalves n (joinHalves n a b) = (a, b) := by
  refine Prod.ext (word_ext fun i h1 h2 => ?_) (word_ext fun i h1 h2 => ?_) <;> rw [splitHalves]
  · rw [bit_la_top (by omega) _ h1 h2, bit_joinHalves ha (by omega) h2]
    by_cases inside : i ≤ n
    · simp [inside]
    · simp [inside, (isLA_iff_bit (by omega) a).1 ha i (by omega) h2]
  · rw [bit_la_top_shl fits _ h1 h2]
    by_cases inside : i ≤ n
    · rw [bit_joinHalves ha (by omega) (by omega), if_neg (by omega), Nat.add_sub_cancel, decide_eq_true inside, Bool.true_and]
    · simp [inside, (isLA_iff_bit (by omega) b).1 hb i (by omega) h2]

theorem joinHalves_eq_la_append (ha : IsLA n a) (hb : IsLA n b) (fits : n + n ≤ 64) :
    joinHalves n a b = la (top n a ++ top n b) := by
  apply word_ext
  intro i h1 h2
  rw [bit_joinHalves ha (by omega) h2, bit_la fits _ h1 h2, BitVec.getLsbD_append]
  by_cases inside : i ≤ n
  · rw [if_pos inside, if_neg (by omega), show n + n - i - n = n - i by omega, bit_top a h1 inside (by omega),
      decide_eq_true (by omega), Bool.true_and]
  · by_cases second : i ≤ n + n
    · rw [if_neg inside, if_pos (by omega), show n + n - i = n - (i - n) by omega,
        bit_top b (by omega) (by omega) (by omega), decide_eq_true second, Bool.true_and]
    · rw [if_neg inside, (isLA_iff_bit (by omega) b).1 hb (i - n) (by omega) (by omega), decide_eq_false second, Bool.false_and]

end

/-- Settles O33: both pairs of wirings are the one for halves of `n` bits, with `n = 28` and `n = 32`. -/
theorem splitAndJoinAreInverse : Obligations.SplitAndJoinAreInverse := by
  unfold Obligations.SplitAndJoinAreInverse
  simp only [split56_eq_splitHalves, split64_eq_splitHalves, join56_eq_joinHalves, join64_eq_joinHalves]
  refine ⟨fun w => ⟨?_, ?_⟩, fun w hw => joinHalves_splitHalves hw (by omega), fun c d hc hd => ⟨?_, ?_⟩,
    fun w => joinHalves_splitHalves (Nat.mod_one _) (by omega), fun hi lo hhi hlo => splitHalves_joinHalves hhi hlo (by omega),
    fun c d hc hd => joinHalves_eq_la_append hc hd (by omega), fun hi lo hhi hlo => joinHalves_eq_la_append hhi hlo (by omega)⟩
  · rw [splitHalves, top_shl (by omega)]
    rfl
  · rw [splitHalves, top_shl (by omega)]
    rfl
  · exact splitHalves_joinHalves hc hd (by omega)
  · exact isLA_joinHalves hc hd (by omega)

/-! ### The rotator (R152) -/

theorem exec_rotl28By1 (x : Word) (s : State) : exec (.rotl28By1 x) s = .next (s.answer (rotl28 x 1)) := rfl

theorem exec_rotl28By2 (x : Word) (s : State) : exec (.rotl28By2 x) s = .next (s.answer (rotl28 x 2)) := rfl

/-- Settles O28: both rows put the rotator's output out. -/
theorem rotatorRotatesTheField : Obligations.RotatorRotatesTheField := by
  unfold Obligations.RotatorRotatesTheField
  exact fun x s => ⟨⟨rotl28 x 1, exec_rotl28By1 x s, fun _ => bit_rotl28 x (.inl rfl)⟩,
    ⟨rotl28 x 2, exec_rotl28By2 x s, fun _ => bit_rotl28 x (.inr rfl)⟩⟩

theorem rotl28_rotl28 (x : Word) : rotl28 (rotl28 x 1) 1 = rotl28 x 2 := by
  apply word_ext
  intro i h1 h2
  rw [bit_rotl28 _ (.inl rfl) h1 h2, bit_rotl28 x (.inr rfl) h1 h2]
  split
  · rw [bit_rotl28 x (.inl rfl) (by omega) (by omega), if_pos (by omega)]
    congr 1
    omega
  · rfl

/-- Within the field the rotator only moves bits, so their number is kept. -/
theorem countP_bit_rotl28 (x : Word) {n : Nat} (amount : n = 1 ∨ n = 2) :
    (List.range 28).countP (fun k => bit (rotl28 x n) (k + 1)) = (List.range 28).countP (fun k => bit x (k + 1)) := by
  have moved : ∀ k ∈ List.range 28, bit (rotl28 x n) (k + 1) = bit x ((k + n) % 28 + 1) := fun k hk => by
    have := List.mem_range.1 hk
    rw [bit_rotl28 x amount (by omega) (by omega), if_pos (by omega), Nat.add_sub_cancel]
  have places : (List.range 28).map (fun k => (k + n) % 28) = (List.range 28).rotate n := by
    rcases amount with rfl | rfl <;> decide
  calc (List.range 28).countP (fun k => bit (rotl28 x n) (k + 1))
      = (List.range 28).countP (fun k => bit x ((k + n) % 28 + 1)) := List.countP_congr fun k hk => by rw [moved k hk]
    _ = ((List.range 28).map fun k => (k + n) % 28).countP (fun k => bit x (k + 1)) := by rw [List.countP_map]; rfl
    _ = (List.range 28).countP (fun k => bit x (k + 1)) := by rw [places, (List.rotate_perm _ n).countP_eq]

/-- Settles O34: `bit_rotl28` for the bits, evaluation for the examples. -/
theorem rotatorCornerCases : Obligations.RotatorCornerCases := by
  unfold Obligations.RotatorCornerCases
  have amount {n : Nat} (h : n ∈ [1, 2]) : n = 1 ∨ n = 2 := by simpa using h
  exact ⟨fun x n hn _ => bit_rotl28 x (amount hn), by decide, by decide, by decide, rotl28_rotl28,
    fun x n hn => ⟨isLA_rotl28 x n, countP_bit_rotl28 x (amount hn)⟩⟩

end Sys2Proof.Machine

/-! PROOFS. `KEYGEN` is accepted, makes one round key in each of 16 engine steps, and the host cannot reach it meanwhile
(42_key_schedule.md R153 to R159; settles O22, O24, O51, O54). -/

namespace Sys2Proof.Machine

/-! ### `KS_INIT` (R153, R156) -/

theorem commandDecoder_keygen {s : State} (idle : s.phase = phaseIdle) : commandDecoder 0x01#8 s = ksInit s := by
  simp [commandDecoder, idle]

/-- Settles O22: the row and the write of `CMD` both run the command decoder. -/
theorem keygenAcceptedPerformsKsInit : Obligations.KeygenAcceptedPerformsKsInit := by
  unfold Obligations.KeygenAcceptedPerformsKsInit
  intro s idle
  refine ⟨ksInit s, ?_, rfl, ksInit_cWord s, ksInit_dWord s, fun v opc => ?_⟩
  · rw [exec_keygen_eq_commandDecoder, commandDecoder_keygen idle]
  · rw [exec_hostWrite_cmd, opc, commandDecoder_keygen idle]

/-! ### `KS_ROUND` (R154, R155) -/

theorem exec_ksRound_of_selected {s : State} {r : BitVec 4} (selected : s.phase = phaseKs) (round : s.rnd.toNat = r.toNat) :
    exec (.ksRound r) s = .next (ksRoundEffect r s) :=
  if_pos ((s.seq_eq_ksRound r).2 ⟨selected, (rnd_eq_setWidth _ _).2 round⟩)

/-- `SHIFT[i+1]` is entry `i` of the schedule, counted from 0. -/
theorem shiftAmount_succ (i : Nat) : shiftAmount (i + 1) = tableShift.getD i 0 := by
  simp [shiftAmount, romReadShrom]

theorem round_eq_ofNat (r : BitVec 4) : r.setWidth 5 + 1#5 = BitVec.ofNat 5 (r.toNat + 1) := by
  revert r; decide

theorem toNat_succ_eq_sixteen (r : BitVec 4) : r.toNat + 1 = 16 ↔ r = 15#4 := by
  revert r; decide

/-- `KS_ROUND` writes the halves, the store, the sequencer and in round 16 `KVALID`, and nothing else. -/
theorem ksRoundEffect_frame (r : BitVec 4) (s : State) :
    ksRoundEffect r s =
      { s with
        c := (ksRoundEffect r s).c, d := (ksRoundEffect r s).d, rk := (ksRoundEffect r s).rk,
        rnd := (ksRoundEffect r s).rnd, phase := (ksRoundEffect r s).phase, kvalid := (ksRoundEffect r s).kvalid } := by
  simp only [ksRoundEffect]
  split <;> rfl

/-- Settles O24: the two halves, the key made of them, and the frame. -/
theorem ksRoundMakesOneRoundKey : Obligations.KsRoundMakesOneRoundKey := by
  unfold Obligations.KsRoundMakesOneRoundKey
  intro s r selected round
  have halves := ksRoundEffect_halves s r
  rw [shiftAmount_succ, rotateHalves, Prod.mk.injEq] at halves
  refine ⟨ksRoundEffect r s, exec_ksRound_of_selected selected round, ?_, halves.1, halves.2, ?_, fun m other => ?_⟩
  · have frame := ksRoundEffect_frame r s
    rw [ksRoundEffect_rnd, round_eq_ofNat, ksRoundEffect_phase, ksRoundEffect_kvalid, selected] at frame
    simpa only [toNat_succ_eq_sixteen] using frame
  · rw [ksRoundEffect_rkWord, if_pos rfl]
  · rw [ksRoundEffect_rkWord, if_neg other.symm]

/-! ### The round-key store (R159; 20_memory.md R80) -/

/-- Settles O51: of the six moves only `KS_ROUND` writes the store, and only its own entry. -/
theorem roundKeysChangeOnlyInTheirRound : Obligations.RoundKeysChangeOnlyInTheirRound := by
  unfold Obligations.RoundKeysChangeOnlyInTheirRound
  intro s t m took noReset changed
  cases step_move took noReset with
  | quiet same => exact absurd (eq_of_engineRegs same (fun u => u.rkWord m) fun _ => rfl) changed
  | keygenAccepted | encryptAccepted | encRound | encFinal => exact absurd rfl changed
  | ksRound r rest moves selected round =>
    rw [ksRoundEffect_rkWord] at changed
    split at changed
    next own => exact ⟨moves, selected, own ▸ round⟩
    next => exact absurd rfl changed

/-! ### Counting engine turns (44_pipeline_and_host.md R198, R200) -/

theorem engineTurns_host_cons (header : BitVec 6) (data : Word) (acts : List Action) :
    engineTurns (.host header data :: acts) = engineTurns acts :=
  List.countP_cons_of_neg (by simp [Action.isEngine])

theorem engineTurns_engine_cons (acts : List Action) : engineTurns (.engine :: acts) = engineTurns acts + 1 :=
  List.countP_cons_of_pos rfl

/-- If host transactions keep `P n`, and an engine turn takes `P n` to `P (n + 1)` where `n` is below the bound, then a mix of them
that stays in the bound completes, and counts its engine turns. -/
theorem exists_runActions_of_counted {P : Nat → State → Prop} {bound : Nat}
    (hostKeeps : ∀ {n s t header data}, P n s → perform (.host header data) s = .next t → P n t)
    (engineCounts : ∀ {n s}, n < bound → P n s → ∃ t, perform .engine s = .next t ∧ P (n + 1) t)
    {acts : List Action} (kinds : ∀ a ∈ acts, a.isHost = true ∨ a.isEngine = true) {n : Nat} {s : State}
    (fits : n + engineTurns acts ≤ bound) (start : P n s) :
    ∃ t, runActions acts s = .next t ∧ P (n + engineTurns acts) t := by
  induction acts generalizing n s with
  | nil => exact ⟨s, rfl, start⟩
  | cons a rest ih =>
    have later := fun b hb => kinds b (List.mem_cons_of_mem a hb)
    cases a with
    | host header data =>
      rw [engineTurns_host_cons] at fits ⊢
      obtain ⟨u, took, _⟩ := perform_host header data s
      rw [runActions, took]
      exact ih later fits (hostKeeps start took)
    | engine =>
      rw [engineTurns_engine_cons, Nat.add_comm (engineTurns rest), ← Nat.add_assoc] at fits ⊢
      obtain ⟨u, took, counted⟩ := engineCounts (by omega) start
      rw [runActions, took]
      exact ih later fits counted
    | reset | usePermutationUnit | useRotator | useSboxRom =>
      exact absurd (kinds _ List.mem_cons_self) (by simp [Action.isHost, Action.isEngine])

/-- While the engine is busy a host transaction leaves the engine's own registers alone. -/
theorem engineRegs_of_host_of_busy {s t : State} {header : BitVec 6} {data : Word} (busy : s.phase ≠ phaseIdle)
    (took : perform (.host header data) s = .next t) : t.engineRegs = s.engineRegs := by
  obtain ⟨u, does, effect⟩ := perform_host header data s
  rw [next_eq (does.symm.trans took), effect.of_busy busy]
  rfl

/-! ### Sixteen engine steps (R156) -/

/-- `n` engine steps after the state `s0` accepted a `KEYGEN`, the schedule not yet complete. -/
structure KeygenAfter (s0 : State) (n : Nat) (s : State) : Prop where
  making : MakingSchedule s0.key s
  rounds : s.rnd.toNat = n
  noSchedule : s.kvalid = false
  dout : s.dout = s0.dout
  dvalid : s.dvalid = s0.dvalid

section
variable {s0 s t : State} {n : Nat}

theorem keygenAfter_ksInit (s : State) : KeygenAfter s 0 (ksInit (s.advance [])) :=
  ⟨makingSchedule_ksInit (s.advance []), rfl, rfl, rfl, rfl⟩

theorem KeygenAfter.of_engineRegs_eq (h : KeygenAfter s0 n s) (same : t.engineRegs = s.engineRegs) : KeygenAfter s0 n t where
  making := h.making.of_engineRegs_eq same
  rounds := by rw [eq_of_engineRegs same State.rnd fun _ => rfl, h.rounds]
  noSchedule := (eq_of_engineRegs same State.kvalid fun _ => rfl).trans h.noSchedule
  dout := (eq_of_engineRegs same State.dout fun _ => rfl).trans h.dout
  dvalid := (eq_of_engineRegs same State.dvalid fun _ => rfl).trans h.dvalid

theorem KeygenAfter.busy (h : KeygenAfter s0 n s) : s.phase ≠ phaseIdle := by simp [h.making.phase]

theorem KeygenAfter.advance (h : KeygenAfter s0 n s) : KeygenAfter s0 n (s.advance []) := h.of_engineRegs_eq rfl

theorem KeygenAfter.host {header : BitVec 6} {data : Word} (h : KeygenAfter s0 n s)
    (took : perform (.host header data) s = .next t) : KeygenAfter s0 n t :=
  h.of_engineRegs_eq (engineRegs_of_host_of_busy h.busy took)

/-- A round before the last counts one up. -/
theorem KeygenAfter.engine (notLast : n < 15) (h : KeygenAfter s0 n s) :
    ∃ t, perform .engine s = .next t ∧ KeygenAfter s0 (n + 1) t := by
  obtain ⟨r, round⟩ := exists_round (n := s.rnd) (by rw [h.rounds]; omega)
  have ne : r ≠ 15#4 := by
    rintro rfl
    rw [h.rounds] at round
    exact absurd round notLast.ne
  refine ⟨_, perform_engine_ksRound h.making.phase round, h.advance.making.ksRound round ne, ?_, ?_, ?_, ?_⟩
  · rw [ksRoundEffect_rnd, round_toNat, ← round, h.rounds]
  · rw [ksRoundEffect_kvalid, if_neg ne]
    exact h.noSchedule
  · rw [ksRoundEffect_dout]
    exact h.dout
  · rw [ksRoundEffect_dvalid]
    exact h.dvalid

/-- The last round completes the schedule of the key at acceptance. -/
theorem KeygenAfter.finish (h : KeygenAfter s0 15 s) :
    ∃ t, perform .engine s = .next t ∧ t.phase = phaseIdle ∧ t.rnd = 16#5 ∧ t.kvalid = true ∧
      t.rkWords = generateKeys s0.key ∧ t.dout = s0.dout ∧ t.dvalid = s0.dvalid := by
  have round : s.rnd.toNat = (15#4).toNat := h.rounds
  refine ⟨_, perform_engine_ksRound h.making.phase round, ?_, ?_, ?_, h.advance.making.rkWords_ksRoundEffect round rfl, ?_, ?_⟩
  · rw [ksRoundEffect_phase, if_pos rfl]
  · rw [ksRoundEffect_rnd]
    rfl
  · rw [ksRoundEffect_kvalid, if_pos rfl]
  · rw [ksRoundEffect_dout]
    exact h.dout
  · rw [ksRoundEffect_dvalid]
    exact h.dvalid

/-- An accepted `KEYGEN` and any mix of host transactions and at most 15 engine turns. -/
theorem exists_keygenAfter {v : Word} {acts : List Action} (idle : s.phase = phaseIdle) (opc : v.extractLsb' 0 8 = 0x01#8)
    (kinds : ∀ a ∈ acts, a.isHost = true ∨ a.isEngine = true) (notLast : engineTurns acts ≤ 15) :
    ∃ t, runActions (hostWriteAction idxCmd v :: acts) s = .next t ∧ KeygenAfter s (engineTurns acts) t := by
  have accepted : perform (hostWriteAction idxCmd v) s = .next (ksInit (s.advance [])) := by
    show exec (.hostWrite 0x03#5 v) (s.advance []) = _
    rw [exec_hostWrite_cmd, opc, commandDecoder_keygen (s := s.advance []) idle]
  have fits : 0 + engineTurns acts ≤ 15 := by rwa [Nat.zero_add]
  have ran := exists_runActions_of_counted (P := KeygenAfter s) KeygenAfter.host KeygenAfter.engine kinds fits
    (keygenAfter_ksInit s)
  rw [Nat.zero_add] at ran
  rwa [runActions, accepted]

end

/-- Settles O54: 15 rounds count, and the sixteenth completes the schedule. -/
theorem keygenFinishesInSixteenSteps : Obligations.KeygenFinishesInSixteenSteps := by
  unfold Obligations.KeygenFinishesInSixteenSteps
  refine fun s v acts idle opc kinds => ⟨fun notLast => ?_, fun last => ?_⟩
  · obtain ⟨t, ran, after⟩ := exists_keygenAfter idle opc kinds notLast
    exact ⟨t, ran, after.making.phase, after.rounds, after.noSchedule⟩
  · obtain ⟨u, ran, after⟩ := exists_keygenAfter idle opc kinds last.le
    rw [last] at after
    obtain ⟨t, took, finished⟩ := after.finish
    refine ⟨t, ?_, finished⟩
    rw [← List.cons_append, runActions_append ran, runActions, took]
    rfl

end Sys2Proof.Machine

/-! PROOFS. The key halves turn once round, and complementing key and block complements the ciphertext (42_key_schedule.md R157;
95_test_vectors.md section 2.2; settles O39, O41). -/

namespace Sys2Proof.Machine

/-! ### The halves rotate by the cumulative amount (R157; 20_memory.md R69) -/

/-- `m` rotations by one place. -/
def rotlTimes (m : Nat) (x : Word) : Word := Nat.repeat (fun y => rotl28 y 1) m x

theorem rotlTimes_zero (x : Word) : rotlTimes 0 x = x := rfl

theorem rotlTimes_succ (m : Nat) (x : Word) : rotlTimes (m + 1) x = rotl28 (rotlTimes m x) 1 := rfl

/-- One rotation of the schedule is as many rotations by one place as its amount says. -/
theorem rotl28_rotlTimes (x : Word) (m : Nat) {n : Nat} (amount : n = 1 ∨ n = 2) :
    rotl28 (rotlTimes m x) n = rotlTimes (m + n) x := by
  rcases amount with rfl | rfl
  · rw [rotlTimes_succ]
  · rw [rotlTimes_succ, rotlTimes_succ, rotl28_rotl28]

theorem bit_rotlTimes {x : Word} (hx : IsLA 28 x) (m : Nat) {i : Nat} (h1 : 1 ≤ i) (h2 : i ≤ 64) :
    bit (rotlTimes m x) i = if i ≤ 28 then bit x ((i - 1 + m) % 28 + 1) else false := by
  induction m generalizing i with
  | zero =>
    rw [rotlTimes_zero]
    split
    · rw [show (i - 1 + 0) % 28 + 1 = i by omega]
    · exact (isLA_iff_bit (by omega) x).1 hx i (by omega) h2
  | succ m ih =>
    rw [rotlTimes_succ, bit_rotl28 _ (.inl rfl) h1 h2]
    split
    · rw [ih (by omega) (by omega), if_pos (by omega)]
      congr 1
      omega
    · rfl

/-- 28 places are once round the field. -/
theorem rotlTimes_full_circle {x : Word} (hx : IsLA 28 x) : rotlTimes 28 x = x := by
  apply word_ext
  intro i h1 h2
  rw [bit_rotlTimes hx 28 h1 h2, ← rotlTimes_zero x, bit_rotlTimes hx 0 h1 h2, Nat.add_mod_right]
  rfl

theorem sum_take_tableShift_succ {n : Nat} (h : n < 16) :
    (tableShift.take (n + 1)).sum = (tableShift.take n).sum + shiftAmount (n + 1) := by
  rw [List.sum_take_succ _ _ h, shiftAmount_succ, List.getD_eq_getElem _ _ h]

theorem keyHalvesAfter_eq_rotlTimes (k : Word) {n : Nat} (h : n ≤ 16) :
    keyHalvesAfter k n =
      (rotlTimes (tableShift.take n).sum (keyHalves k).1, rotlTimes (tableShift.take n).sum (keyHalves k).2) := by
  induction n with
  | zero => rfl
  | succ n ih =>
    have amount := shiftAmount_cases (i := n + 1) (by omega) h
    rw [keyHalvesAfter_succ k h, ih (by omega), rotateHalves, rotl28_rotlTimes _ _ amount, rotl28_rotlTimes _ _ amount,
      sum_take_tableShift_succ h]

/-- The amounts of the schedule sum to the width of the field. -/
theorem keyHalvesAfter_sixteen (k : Word) : keyHalvesAfter k 16 = keyHalves k := by
  have total : (tableShift.take 16).sum = 28 := rfl
  rw [keyHalvesAfter_eq_rotlTimes k le_rfl, total, rotlTimes_full_circle (isLA_keyHalves k).1,
    rotlTimes_full_circle (isLA_keyHalves k).2]

/-- Settles O39: each round is `SHIFT[i]` rotations by one place, and all of them together are 28. -/
theorem keyHalvesRotateFullCircle : Obligations.KeyHalvesRotateFullCircle := by
  unfold Obligations.KeyHalvesRotateFullCircle
  refine ⟨fun k n => ?_, fun k n h => keyHalvesAfter_eq_rotlTimes k h, keyHalvesAfter_sixteen⟩
  rw [Fin.getElem_fin, generateKeys_getElem k n.isLt]
  exact isLA_roundKey k (n.val + 1)

/-! ### Complements of fields

The complement of an `n`-bit field is its xor with `n` ones at the top of the Word. A unit that is linear in xor takes it to its
output xor what it makes of the ones, which are ones again. -/

/-- `n` ones at the top of the Word. -/
def ones (n : Nat) : Word := la (BitVec.allOnes n)

/-- Both halves xor `n` ones. -/
def complementHalves (n : Nat) (p : Word × Word) : Word × Word := (p.1 ^^^ ones n, p.2 ^^^ ones n)

theorem bit_ones {n i : Nat} (fits : n ≤ 64) (h1 : 1 ≤ i) (h2 : i ≤ 64) : bit (ones n) i = decide (i ≤ n) := by
  rw [ones, bit_la fits _ h1 h2, BitVec.getLsbD_allOnes]
  by_cases inside : i ≤ n
  · simp [inside, show n - i < n by omega]
  · simp [inside]

theorem not_eq_xor_ones (w : Word) : ~~~w = w ^^^ ones 64 := by
  apply word_ext
  intro i h1 h2
  rw [bit_not w h1, bit_xor, bit_ones le_rfl h1 h2, decide_eq_true h2, Bool.xor_true]

theorem isLA_ones {n : Nat} (fits : n ≤ 64) : IsLA n (ones n) := isLA_la fits _

theorem permute_ones {t : PermTable} {n : Nat} (fits : t.length ≤ 64) (h64 : n ≤ 64)
    (entries : ∀ p ∈ t, 1 ≤ p ∧ p ≤ n) : permute (ones n) t = ones t.length := by
  apply word_ext
  intro i h1 h2
  rw [bit_permute _ fits h1 h2, bit_ones fits h1 h2]
  split
  next inside =>
    obtain ⟨low, high⟩ := entries _ (List.getElem_mem (show i - 1 < t.length by omega))
    rw [bit_ones h64 low (by omega), decide_eq_true high, decide_eq_true inside]
  next outside => rw [decide_eq_false outside]

/-- A table that selects from an `n`-bit input takes the complement to the complement. -/
theorem permute_xor_ones (w : Word) {t : PermTable} {n : Nat} (fits : t.length ≤ 64) (h64 : n ≤ 64)
    (entries : ∀ p ∈ t, 1 ≤ p ∧ p ≤ n) : permute (w ^^^ ones n) t = permute w t ^^^ ones t.length := by
  rw [permute_xor w _ fits, permute_ones fits h64 entries]

theorem splitHalves_xor_ones {n : Nat} (fits : n + n ≤ 64) (w : Word) :
    splitHalves n (w ^^^ ones (n + n)) = complementHalves n (splitHalves n w) := by
  refine Prod.ext (word_ext fun i h1 h2 => ?_) (word_ext fun i h1 h2 => ?_) <;> rw [splitHalves, complementHalves, splitHalves]
  · rw [bit_xor, bit_la_top (by omega) _ h1 h2, bit_la_top (by omega) _ h1 h2, bit_xor, bit_ones fits h1 h2,
      bit_ones (by omega) h1 h2]
    by_cases inside : i ≤ n
    · simp [inside, show i ≤ n + n by omega]
    · simp [inside]
  · rw [bit_xor, bit_la_top_shl fits _ h1 h2, bit_la_top_shl fits _ h1 h2, bit_ones (by omega) h1 h2]
    by_cases inside : i ≤ n
    · rw [bit_xor, bit_ones fits (by omega) (by omega)]
      simp [inside]
    · simp [inside]

theorem joinHalves_xor_ones {n : Nat} {a : Word} (fits : n + n ≤ 64) (first : IsLA n a) (b : Word) :
    joinHalves n (a ^^^ ones n) (b ^^^ ones n) = joinHalves n a b ^^^ ones (n + n) := by
  have first' : IsLA n (a ^^^ ones n) := isLA_xor (by omega) first (isLA_ones (by omega))
  apply word_ext
  intro i h1 h2
  rw [bit_joinHalves first' (by omega) h2, bit_xor (joinHalves n a b), bit_joinHalves first (by omega) h2, bit_ones fits h1 h2]
  split
  next inside => rw [bit_xor, bit_ones (by omega) h1 h2, decide_eq_true inside, decide_eq_true (by omega)]
  next outside =>
    have second : i - n ≤ n ↔ i ≤ n + n := by omega
    rw [bit_xor, bit_ones (by omega) (by omega) (by omega), decide_eq_decide.2 second]

theorem rotl28_xor_ones (x : Word) {n : Nat} (amount : n = 1 ∨ n = 2) : rotl28 (x ^^^ ones 28) n = rotl28 x n ^^^ ones 28 := by
  apply word_ext
  intro i h1 h2
  rw [bit_rotl28 _ amount h1 h2, bit_xor (rotl28 x n), bit_rotl28 x amount h1 h2, bit_ones (by omega) h1 h2]
  split
  next inside => rw [bit_xor, bit_ones (by omega) (by omega) (by omega), decide_eq_true (by omega), decide_eq_true inside]
  next outside => rw [decide_eq_false outside]; rfl

/-! ### The schedule of the complemented key (R157) -/

section
variable (k b : Word)

theorem keyHalves_not : keyHalves (~~~k) = complementHalves 28 (keyHalves k) := by
  rw [keyHalves, keyHalves, not_eq_xor_ones, permute_xor_ones k (by simp) le_rfl (by decide), split56_eq_splitHalves,
    split56_eq_splitHalves]
  exact splitHalves_xor_ones (by omega) _

theorem keyHalvesAfter_not {n : Nat} (h : n ≤ 16) : keyHalvesAfter (~~~k) n = complementHalves 28 (keyHalvesAfter k n) := by
  induction n with
  | zero => exact keyHalves_not k
  | succ n ih =>
    have amount := shiftAmount_cases (i := n + 1) (by omega) h
    rw [keyHalvesAfter_succ _ h, keyHalvesAfter_succ k h, ih (by omega), rotateHalves, rotateHalves, complementHalves,
      complementHalves, rotl28_xor_ones _ amount, rotl28_xor_ones _ amount]

theorem roundKey_not {n : Nat} (h : n ≤ 16) : roundKey (~~~k) n = roundKey k n ^^^ ones 48 := by
  rw [roundKey, roundKey, keyHalvesAfter_not k h, complementHalves, join56_eq_joinHalves, join56_eq_joinHalves,
    joinHalves_xor_ones (by omega) (isLA_keyHalvesAfter k n).1]
  exact permute_xor_ones _ (by simp) (by omega) (by decide)

/-! ### The encryption of the complemented block (43_round_function.md R172; 44_pipeline_and_host.md R194) -/

/-- In `f` the complement of the key undoes that of the half: `KEYMIX` is an xor. -/
theorem roundFunction_xor_ones (half subkey : Word) :
    roundFunction (half ^^^ ones 32) (subkey ^^^ ones 48) = roundFunction half subkey := by
  have expanded : expand (half ^^^ ones 32) = expand half ^^^ ones 48 :=
    permute_xor_ones half (by simp) (by omega) (by decide)
  have mixed : keymix (expand half ^^^ ones 48) (subkey ^^^ ones 48) = keymix (expand half) subkey := by
    rw [keymix, keymix, BitVec.xor_assoc, BitVec.xor_comm subkey, ← BitVec.xor_assoc (ones 48), BitVec.xor_self,
      BitVec.zero_xor]
  rw [roundFunction, roundFunction, expanded, mixed]

theorem feistel_complementHalves (p : Word × Word) (subkey : Word) :
    feistel (complementHalves 32 p) (subkey ^^^ ones 48) = complementHalves 32 (feistel p subkey) := by
  have second : p.1 ^^^ ones 32 ^^^ roundFunction p.2 subkey = p.1 ^^^ roundFunction p.2 subkey ^^^ ones 32 := by
    rw [BitVec.xor_assoc, BitVec.xor_comm (ones 32), ← BitVec.xor_assoc]
  rw [feistel, feistel, complementHalves, complementHalves, roundFunction_xor_ones, second]

theorem blockHalves_not : blockHalves (~~~b) = complementHalves 32 (blockHalves b) := by
  rw [blockHalves, blockHalves, not_eq_xor_ones, permute_xor_ones b (by simp) le_rfl (by decide), split64_eq_splitHalves,
    split64_eq_splitHalves]
  exact splitHalves_xor_ones (by omega) _

theorem blockHalvesAfter_not {n : Nat} (h : n ≤ 16) :
    blockHalvesAfter (~~~b) (generateKeys (~~~k)) n = complementHalves 32 (blockHalvesAfter b (generateKeys k) n) := by
  induction n with
  | zero => exact blockHalves_not b
  | succ n ih =>
    rw [blockHalvesAfter_succ _ _ h, blockHalvesAfter_succ _ _ h, ih (by omega), generateKeys_getElem _ h,
      generateKeys_getElem _ h, roundKey_not k h, feistel_complementHalves]

/-- `FP` takes the complement of the joined halves out. -/
theorem des_not : des (~~~k) (~~~b) = ~~~(des k b) := by
  rw [des, des, encrypt, encrypt, blockHalvesAfter_not k b le_rfl, complementHalves, join64_eq_joinHalves,
    join64_eq_joinHalves, joinHalves_xor_ones (by omega) (isLA_blockHalvesAfter b (generateKeys k) 16).2, not_eq_xor_ones]
  exact permute_xor_ones _ (by simp) le_rfl (by decide)

end

/-- Settles O41: the schedule and the halves are complemented in every round. -/
theorem complementationProperty : Obligations.ComplementationProperty := by
  unfold Obligations.ComplementationProperty
  exact des_not

end Sys2Proof.Machine

/-! PROOFS. The round function: the S-box address, the eight lanes of the S-box array, and the corner cases of `f`
(43_round_function.md R173 to R179; settles O29, O35, O36, O37). -/

namespace Sys2Proof.Machine

/-- Two fields side by side, as a number. -/
theorem toNat_append_eq_add {m n : Nat} (a : BitVec m) (b : BitVec n) : (a ++ b).toNat = a.toNat * 2 ^ n + b.toNat := by
  rw [BitVec.toNat_append, ← Nat.shiftLeft_add_eq_or_of_lt b.isLt, Nat.shiftLeft_eq]

/-! ### One lane (R175) -/

section
variable (box : BitVec 3) (row : BitVec 2) (col : BitVec 4)

/-- The static check of the constants (60_exceptions.md R212) covers every box. -/
theorem sboxWf_sboxTable : sboxWf (sboxTable box) = true := by
  have tables := tablesWf_holds
  simp only [tablesWf, Bool.and_eq_true] at tables
  obtain ⟨_, ⟨⟨⟨⟨⟨⟨wf0, wf1⟩, wf2⟩, wf3⟩, wf4⟩, wf5⟩, wf6⟩, wf7⟩ := tables
  rcases bitVec3_cases box with rfl | rfl | rfl | rfl | rfl | rfl | rfl | rfl
  exacts [wf0, wf1, wf2, wf3, wf4, wf5, wf6, wf7]

/-- Every entry fits in the lane's four bits. -/
theorem sboxTable_getD_lt (n : Nat) : (sboxTable box).getD n 0 < 16 := by
  have wf := sboxWf_sboxTable box
  rw [sboxWf, Bool.and_eq_true, List.all_eq_true] at wf
  obtain ⟨_, entries⟩ := wf
  by_cases inside : n < (sboxTable box).length
  · rw [List.getD_eq_getElem _ _ inside]
    exact Nat.lt_succ_of_le (of_decide_eq_true (entries _ (List.getElem_mem inside)))
  · rw [List.getD_eq_default _ _ (Nat.le_of_not_lt inside)]
    decide

/-- The four bits and the zeros above them are the entry as a Word. -/
theorem sboxOutput_eq_entry :
    sboxOutput box row col = BitVec.ofNat 64 ((sboxTable box).getD (row.toNat * 16 + col.toNat) 0) := by
  have address : (row ++ col).toNat = row.toNat * 16 + col.toNat := toNat_append_eq_add row col
  rw [sboxOutput, romReadSrom, address]
  exact BitVec.setWidth_ofNat_of_le_of_lt (by decide) (sboxTable_getD_lt box _)

/-- Each `SBOXj` row puts out its own box's entry and changes nothing else. -/
theorem exec_sboxInstr (s : State) : exec (sboxInstr box row col) s = .next (s.answer (sboxOutput box row col)) := by
  rcases bitVec3_cases box with rfl | rfl | rfl | rfl | rfl | rfl | rfl | rfl <;> rfl

theorem exec_sboxInstr_entry (s : State) :
    exec (sboxInstr box row col) s =
      .next (s.answer (BitVec.ofNat 64 ((sboxTable box).getD (row.toNat * 16 + col.toNat) 0))) := by
  rw [exec_sboxInstr, sboxOutput_eq_entry]

end

/-- Settles O29: the eight rows are `sboxInstr` at the eight boxes. -/
theorem sboxLanesReadTheirBox : Obligations.SboxLanesReadTheirBox := by
  unfold Obligations.SboxLanesReadTheirBox
  intro row col s out
  have lane (box : BitVec 3) := exec_sboxInstr_entry box row col s
  exact ⟨lane 0, lane 1, lane 2, lane 3, lane 4, lane 5, lane 6, lane 7⟩

/-! ### The address of a lane (R174) -/

theorem sboxRow_toNat : ∀ g : BitVec 6, (sboxRow g).toNat = 2 * (g.getLsbD 5).toNat + (g.getLsbD 0).toNat := by decide

theorem sboxColumn_toNat : ∀ g : BitVec 6, (sboxColumn g).toNat =
    8 * (g.getLsbD 4).toNat + 4 * (g.getLsbD 3).toNat + 2 * (g.getLsbD 2).toNat + (g.getLsbD 1).toNat := by decide

theorem sboxAddr_toNat (g : BitVec 6) : (sboxAddr g).toNat = (sboxRow g).toNat * 16 + (sboxColumn g).toNat :=
  toNat_append_eq_add _ _

/-- The group that has the address `a`: the two bits of the row around the four of the column. -/
def sboxGroup (a : BitVec 6) : BitVec 6 := a.extractLsb' 5 1 ++ a.extractLsb' 0 4 ++ a.extractLsb' 4 1

theorem sboxGroup_sboxAddr : Function.LeftInverse sboxGroup sboxAddr := by unfold Function.LeftInverse; decide

theorem sboxAddr_sboxGroup : Function.RightInverse sboxGroup sboxAddr := by
  unfold Function.RightInverse Function.LeftInverse; decide

/-- Settles O35: `sboxGroup` is the two-sided inverse of the address. -/
theorem sboxAddressIsABijection : Obligations.SboxAddressIsABijection := by
  unfold Obligations.SboxAddressIsABijection
  exact ⟨fun g => ⟨sboxRow_toNat g, sboxColumn_toNat g, sboxAddr_toNat g⟩, sboxGroup_sboxAddr.injective,
    sboxAddr_sboxGroup.surjective⟩

/-! ### The array of lanes (R176) -/

/-- A field of a left-aligned value is that field of the value. -/
theorem extract_la {n k m : Nat} (fits : n ≤ 64) (x : BitVec n) (inside : k + m ≤ n) :
    (la x).extractLsb' (64 - n + k) m = x.extractLsb' k m := by
  apply BitVec.eq_of_getLsbD_eq
  intro i hi
  have shifted := bit_la fits x (i := n - (k + i)) (by omega) (by omega)
  rw [bit, show 64 - (n - (k + i)) = 64 - n + k + i by omega, show n - (n - (k + i)) = k + i by omega,
    decide_eq_true (by omega), Bool.true_and] at shifted
  rw [BitVec.getLsbD_extractLsb', BitVec.getLsbD_extractLsb', shifted]

/-- Eight lanes in a row, lane 0 most significant. -/
def joinLanes (lane : Fin 8 → BitVec 4) : BitVec 32 :=
  lane 0 ++ lane 1 ++ lane 2 ++ lane 3 ++ lane 4 ++ lane 5 ++ lane 6 ++ lane 7

/-- The lanes behind lane `j` are cut off; it is then the last one. -/
theorem extract_joinLanes (lane : Fin 8 → BitVec 4) (j : Fin 8) :
    (joinLanes lane).extractLsb' (32 - (4 * j.val + 4)) 4 = lane j := by
  fin_cases j <;> simp (disch := omega) only [joinLanes, BitVec.extractLsb'_append_eq_of_le]
  · exact BitVec.extractLsb'_eq_self
  all_goals exact extract_append_low _ _

theorem sboxArray_eq_joinLanes (x : Word) :
    sboxArray x = la (joinLanes fun j => sboxLane (BitVec.ofNat 3 j.val) (group x j.val)) := rfl

theorem extract_sboxArray (x : Word) (j : Fin 8) :
    (sboxArray x).extractLsb' (64 - (4 * j.val + 4)) 4 = sboxLane (BitVec.ofNat 3 j.val) (group x j.val) := by
  rw [sboxArray_eq_joinLanes, show 64 - (4 * j.val + 4) = 64 - 32 + (32 - (4 * j.val + 4)) by omega,
    extract_la (by omega) _ (by omega), extract_joinLanes]

/-- Settles O36: lane `j` is `SBOXj` of group `j`. -/
theorem sboxArrayLaneByLane : Obligations.SboxArrayLaneByLane := by
  unfold Obligations.SboxArrayLaneByLane
  exact fun x => ⟨isLA_la (by omega) _, extract_sboxArray x⟩

/-! ### The round function (R179) -/

section
variable {h h' k k' : Word}

/-- The operands of `f` meet in `KEYMIX`; the later stages see what it puts out. -/
theorem roundFunction_of_mixed {mix : Word} (mixed : expand h ^^^ k = mix) : roundFunction h k = pout (sboxArray mix) := by
  rw [roundFunction, keymix, mixed]

theorem roundFunction_congr (same : expand h ^^^ k = expand h' ^^^ k') : roundFunction h k = roundFunction h' k' :=
  roundFunction_of_mixed same

end

theorem expand_zero : expand 0#64 = 0#64 := permute_zero (by simp)

/-- `EXPAND` of 32 ones is 48 ones. -/
theorem expand_ones : expand 0xFFFFFFFF00000000#64 = 0xFFFFFFFFFFFF0000#64 := by decide

theorem pout_sboxArray_zero : pout (sboxArray 0#64) = 0xD8D8DBBC00000000#64 := by decide +kernel

theorem pout_sboxArray_ones : pout (sboxArray 0xFFFFFFFFFFFF0000#64) = 0x38DBF9CB00000000#64 := by decide +kernel

theorem roundFunction_zero : roundFunction 0#64 0#64 = 0xD8D8DBBC00000000#64 := by
  rw [roundFunction_of_mixed (mix := 0#64) (by rw [expand_zero, BitVec.xor_zero]), pout_sboxArray_zero]

theorem roundFunction_ones_zero : roundFunction 0xFFFFFFFF00000000#64 0#64 = 0x38DBF9CB00000000#64 := by
  rw [roundFunction_of_mixed (by rw [expand_ones, BitVec.xor_zero]), pout_sboxArray_ones]

theorem roundFunction_zero_ones : roundFunction 0#64 0xFFFFFFFFFFFF0000#64 = 0x38DBF9CB00000000#64 := by
  rw [roundFunction_of_mixed (by rw [expand_zero, BitVec.zero_xor]), pout_sboxArray_ones]

/-- Settles O37: the equal values are equal because 48 ones reach `KEYMIX` from either operand. -/
theorem roundFunctionCornerCases : Obligations.RoundFunctionCornerCases := by
  unfold Obligations.RoundFunctionCornerCases
  exact ⟨fun _ _ => rfl, fun _ _ _ _ => roundFunction_congr, isLA_roundFunction, roundFunction_zero,
    roundFunction_ones_zero, roundFunction_zero_ones⟩

end Sys2Proof.Machine

/-! PROOFS. The engine's turn and the host port, one step at a time: what a step runs, what a transaction reads and writes
(44_pipeline_and_host.md R196 to R198; settles O8, O9, O13, O16). -/

namespace Sys2Proof.Machine

/-! ### What a step runs (R198; 10_state.md R36) -/

section
variable {s : State} {rest : List Action}

theorem runCode_of_ok {c : Code} {i : Instr} (known : decode c = .ok i) (s : State) : runCode c s = exec i s := by
  rw [runCode, known]

theorem step_of_host_front {header : BitVec 6} {data : Word} (front : s.pending = .host header data :: rest) :
    step s = runCode (.ht header data) (s.advance rest) := by
  rw [step, nextTurn, front]

theorem step_of_rotator_front {rotsel : BitVec 1} {x : Word} (front : s.pending = .useRotator rotsel x :: rest) :
    step s = runCode (.rs rotsel x) (s.advance rest) := by
  rw [step, nextTurn, front]

theorem step_of_sboxRom_front {addr : BitVec 9} (front : s.pending = .useSboxRom addr :: rest) :
    step s = runCode (.sa addr) (s.advance rest) := by
  rw [step, nextTurn, front]

theorem step_of_nothing_pending (front : s.pending = []) : step s = runCode (.sq s.seq) (s.advance []) := by
  rw [step, nextTurn, front]
  rfl

/-- The engine moves when its turn is in front, and when nothing is to come. -/
theorem EngineInFront.step_eq (front : EngineInFront s rest) : step s = runCode (.sq s.seq) (s.advance rest) := by
  obtain front | ⟨front, rfl⟩ := front
  · exact step_of_engine_front front
  · exact step_of_nothing_pending front

end

/-- Settles O8: the action in front says where the code stands, and a code that decodes is run as its instruction. -/
theorem stepRunsTheDecodedInstruction : Obligations.StepRunsTheDecodedInstruction := by
  unfold Obligations.StepRunsTheDecodedInstruction
  intro s rest i
  have runs {c : Code} (turn : step s = runCode c (s.advance rest)) (known : decode c = .ok i) :
      step s = exec i (s.advance rest) := turn.trans (runCode_of_ok known _)
  exact ⟨fun _ _ front => runs (step_of_host_front front), fun front => runs (EngineInFront.step_eq front),
    fun _ _ front => runs (step_of_permutationUnit_front front), fun _ _ front => runs (step_of_rotator_front front),
    fun _ front => runs (step_of_sboxRom_front front)⟩

theorem decode_seq_of_idle {s : State} (idle : s.phase = phaseIdle) : decode (.sq s.seq) = .error .idleSequencer := by
  rw [decode, State.seq, idle]
  exact decodeSq_idle s.rnd

/-- Settles O9: the idle sequencer word selects nothing, and its rejection leaves the state as it is. -/
theorem idleEngineTakesNoStep : Obligations.IdleEngineTakesNoStep := by
  unfold Obligations.IdleEngineTakesNoStep
  intro s rest idle front
  rw [EngineInFront.step_eq front, runCode_of_error (decode_seq_of_idle idle)]
  rfl

/-! ### Host reads (R197; 10_state.md R35) -/

/-- An index with its top bit set names a round key. -/
theorem hostReadable_of_rk {idx : BitVec 5} (rk : idx.getLsbD 4 = true) (s : State) :
    s.hostReadable idx = some (s.rkWord (idx.extractLsb' 0 4)) := by
  have others : ∀ x : BitVec 5, x.getLsbD 4 = true → x ≠ 0x00#5 ∧ x ≠ 0x01#5 ∧ x ≠ 0x02#5 ∧ x ≠ 0x04#5 ∧ x ≠ 0x08#5 ∧
      x ≠ 0x09#5 ∧ x ≠ 0x0A#5 ∧ x ≠ 0x0B#5 := by decide
  obtain ⟨h0, h1, h2, h4, h8, h9, hA, hB⟩ := others idx rk
  simp only [State.hostReadable, h0, h1, h2, h4, h8, h9, hA, hB, rk, if_false, if_true]

/-- `RK[n+1]` is at index `0x10 + n`. -/
theorem hostReadable_rk_entry (s : State) (n : Fin 16) :
    s.hostReadable (BitVec.ofNat 5 (0x10 + n.val)) = some (la s.rk[n]) := by
  have field : ∀ m : Fin 16, (BitVec.ofNat 5 (0x10 + m.val)).getLsbD 4 = true ∧
      ((BitVec.ofNat 5 (0x10 + m.val)).extractLsb' 0 4).toNat = m.val := by decide
  obtain ⟨rk, entry⟩ := field n
  simp only [hostReadable_of_rk rk, State.rkWord, entry]
  rfl

/-- Settles O13: the map allows the read and names the register, or allows none. -/
theorem hostReadReturnsTheRegister : Obligations.HostReadReturnsTheRegister := by
  unfold Obligations.HostReadReturnsTheRegister
  intro s
  have reads {idx : BitVec 5} {v : Word} (readable : s.hostReadable idx = some v) :
      exec (.hostRead idx) s = .next { s with returned := some v } := exec_hostRead_of_some readable
  exact ⟨reads rfl, reads rfl, reads rfl, reads rfl, reads rfl, reads rfl, reads rfl, reads rfl,
    fun n => reads (hostReadable_rk_entry s n),
    fun idx unreadable => exec_hostRead_of_none ((hostReadable_eq_none s idx).2 unreadable)⟩

/-! ### Host writes of `KEY` and `DIN` (R196) -/

theorem exec_hostWrite_key (v : Word) (s : State) : exec (.hostWrite 0x00#5 v) s = .next (s.writeKey v) := rfl

theorem exec_hostWrite_din (v : Word) (s : State) : exec (.hostWrite 0x01#5 v) s = .next (s.writeDin v) := rfl

/-- Settles O16: neither write looks at the `PHASE`. -/
theorem hostWriteStoresKeyAndDin : Obligations.HostWriteStoresKeyAndDin := by
  unfold Obligations.HostWriteStoresKeyAndDin
  exact fun s v => ⟨exec_hostWrite_key v s, exec_hostWrite_din v s⟩

end Sys2Proof.Machine

/-! PROOFS. For fixed round keys encryption loses nothing of the block (44_pipeline_and_host.md R194; settles O40). -/

namespace Sys2Proof.Machine

theorem split64_injective : Function.Injective split64 :=
  Function.LeftInverse.injective (g := fun p => join64 p.1 p.2) fun w => by
    rw [split64_eq_splitHalves]
    exact joinHalves_splitHalves (Nat.mod_one _) (by omega)

/-- A permutation that another one undoes loses no bit. -/
theorem blockHalves_injective : Function.Injective blockHalves := fun a b same => by
  rw [← (initialPermutationRoundTrip a).1, split64_injective same, (initialPermutationRoundTrip b).1]

/-- A round keeps `R`, and so `f(R, K)`, which gives `L` back. -/
theorem feistel_injective (k : Word) : Function.Injective fun p => feistel p k := by
  intro p q same
  obtain ⟨right, mixed⟩ := Prod.mk.inj same
  rw [right] at mixed
  exact Prod.ext ((BitVec.xor_left_inj _).1 mixed) right

/-- Rounds under any list of keys lose nothing. -/
theorem foldl_feistel_injective (keys : List Word) : Function.Injective fun p => keys.foldl feistel p := by
  induction keys with
  | nil => exact Function.injective_id
  | cons k keys ih => exact ih.comp (feistel_injective k)

theorem blockHalvesAfter_injective (keys : Vector Word 16) (i : Nat) :
    Function.Injective fun block => blockHalvesAfter block keys i :=
  (foldl_feistel_injective _).comp blockHalves_injective

theorem join64_inj {a b a' b' : Word} (ha : IsLA 32 a) (hb : IsLA 32 b) (ha' : IsLA 32 a') (hb' : IsLA 32 b')
    (same : join64 a b = join64 a' b') : a = a' ∧ b = b' := by
  rw [join64_eq_joinHalves, join64_eq_joinHalves] at same
  rw [← Prod.mk.injEq, ← splitHalves_joinHalves ha hb (by omega), same, splitHalves_joinHalves ha' hb' (by omega)]

theorem permute_fp_injective : Function.Injective fun w => permute w tableFp :=
  Function.LeftInverse.injective (g := fun w => permute w tableIp) fun w => (initialPermutationRoundTrip w).2

/-- `FP`, the joining of the halves, the rounds and `IP` each lose nothing. -/
theorem encrypt_injective (keys : Vector Word 16) : Function.Injective fun block => encrypt block keys := by
  intro a b same
  obtain ⟨leftA, rightA⟩ := isLA_blockHalvesAfter a keys 16
  obtain ⟨leftB, rightB⟩ := isLA_blockHalvesAfter b keys 16
  obtain ⟨second, first⟩ := join64_inj rightA leftA rightB leftB (permute_fp_injective same)
  exact blockHalvesAfter_injective keys 16 (Prod.ext first second)

theorem finite_word : Finite Word := .of_injective BitVec.toFin fun _ _ => BitVec.eq_of_toFin_eq

/-- Settles O40: an injective map of the finitely many Words to themselves is a bijection. -/
theorem encryptIsABijection : Obligations.EncryptIsABijection := by
  unfold Obligations.EncryptIsABijection
  have := finite_word
  exact fun keys => Finite.injective_iff_bijective.1 (encrypt_injective keys)

end Sys2Proof.Machine

/-! PROOFS. `ENCRYPT` is accepted, does one Feistel round in each of 16 engine steps and delivers in the seventeenth, and the host
cannot reach it meanwhile (44_pipeline_and_host.md R191 to R200; settles O23, O25, O26, O55). -/

namespace Sys2Proof.Machine

/-! ### `ENC_INIT` (R191, R195) -/

theorem commandDecoder_encrypt {s : State} (idle : s.phase = phaseIdle) (schedule : s.kvalid = true) :
    commandDecoder 0x02#8 s = encInit s := by
  simp [commandDecoder, idle, schedule]

theorem exec_hostWrite_encrypt {s : State} {v : Word} (idle : s.phase = phaseIdle) (schedule : s.kvalid = true)
    (opc : v.extractLsb' 0 8 = 0x02#8) : exec (.hostWrite 0x03#5 v) s = .next (encInit s) := by
  rw [exec_hostWrite_cmd, opc, commandDecoder_encrypt idle schedule]

/-- Settles O23: the row and the write of `CMD` both run the command decoder. -/
theorem encryptAcceptedPerformsEncInit : Obligations.EncryptAcceptedPerformsEncInit := by
  unfold Obligations.EncryptAcceptedPerformsEncInit
  intro s idle schedule
  refine ⟨encInit s, ?_, rfl, encInit_lWord s, encInit_rWord s, fun v opc => exec_hostWrite_encrypt idle schedule opc⟩
  rw [exec_encrypt_eq_commandDecoder, commandDecoder_encrypt idle schedule]

/-! ### `ENC_ROUND` and `ENC_FINAL` (R192, R193) -/

theorem exec_encRound_of_selected {s : State} {r : BitVec 4} (selected : s.phase = phaseEnc) (round : s.rnd.toNat = r.toNat) :
    exec (.encRound r) s = .next (encRoundEffect r s) :=
  if_pos ((s.seq_eq_encRound r).2 ⟨selected, (rnd_eq_setWidth _ _).2 round⟩)

theorem exec_encFinal_of_selected {s : State} (selected : s.phase = phaseEnc) (round : s.rnd = 16#5) :
    exec .encFinal s = .next (encFinalEffect s) :=
  if_pos (s.seq_eq_encFinal.2 ⟨selected, round⟩)

/-- `ENC_ROUND` writes the halves and counts, and nothing else. -/
theorem encRoundEffect_frame (r : BitVec 4) (s : State) :
    encRoundEffect r s =
      { s with l := (encRoundEffect r s).l, r := (encRoundEffect r s).r, rnd := BitVec.ofNat 5 (r.toNat + 1) } := by
  rw [← round_eq_ofNat]
  rfl

/-- Settles O25: the two halves are those of a Feistel round, under the frame. -/
theorem encRoundIsAFeistelRound : Obligations.EncRoundIsAFeistelRound := by
  unfold Obligations.EncRoundIsAFeistelRound
  intro s r selected round
  obtain ⟨left, right⟩ := Prod.mk.inj (encRoundEffect_halves s r)
  exact ⟨encRoundEffect r s, exec_encRound_of_selected selected round, encRoundEffect_frame r s, left, right⟩

/-- Settles O26: where `SEQ` selects `ENC_FINAL`, its one effect is the whole answer. -/
theorem encFinalDeliversTheCiphertext : Obligations.EncFinalDeliversTheCiphertext := by
  unfold Obligations.EncFinalDeliversTheCiphertext
  exact fun s selected round => exec_encFinal_of_selected selected round

/-! ### Seventeen engine steps (R195, R200) -/

/-- `n` engine steps after the state `s0` accepted an `ENCRYPT`, the ciphertext not yet delivered. -/
structure EncryptAfter (s0 : State) (n : Nat) (s : State) : Prop where
  encrypting : Encrypting s0.din s
  rounds : s.rnd.toNat = n
  notValid : s.dvalid = false
  dout : s.dout = s0.dout
  rk : s.rk = s0.rk
  schedule : s.kvalid = true

section
variable {s0 s t : State} {n : Nat}

theorem encryptAfter_encInit {s : State} (schedule : s.kvalid = true) : EncryptAfter s 0 (encInit (s.advance [])) :=
  ⟨encrypting_encInit (s.advance []), rfl, rfl, rfl, rfl, schedule⟩

theorem EncryptAfter.of_engineRegs_eq (h : EncryptAfter s0 n s) (same : t.engineRegs = s.engineRegs) : EncryptAfter s0 n t where
  encrypting := h.encrypting.of_engineRegs_eq same
  rounds := by rw [eq_of_engineRegs same State.rnd fun _ => rfl, h.rounds]
  notValid := (eq_of_engineRegs same State.dvalid fun _ => rfl).trans h.notValid
  dout := (eq_of_engineRegs same State.dout fun _ => rfl).trans h.dout
  rk := (eq_of_engineRegs same State.rk fun _ => rfl).trans h.rk
  schedule := (eq_of_engineRegs same State.kvalid fun _ => rfl).trans h.schedule

theorem EncryptAfter.busy (h : EncryptAfter s0 n s) : s.phase ≠ phaseIdle := by simp [h.encrypting.phase]

theorem EncryptAfter.advance (h : EncryptAfter s0 n s) : EncryptAfter s0 n (s.advance []) := h.of_engineRegs_eq rfl

theorem EncryptAfter.host {header : BitVec 6} {data : Word} (h : EncryptAfter s0 n s)
    (took : perform (.host header data) s = .next t) : EncryptAfter s0 n t :=
  h.of_engineRegs_eq (engineRegs_of_host_of_busy h.busy took)

/-- A round counts one up. -/
theorem EncryptAfter.engine (notLast : n < 16) (h : EncryptAfter s0 n s) :
    ∃ t, perform .engine s = .next t ∧ EncryptAfter s0 (n + 1) t := by
  obtain ⟨r, round⟩ := exists_round (n := s.rnd) (by rw [h.rounds]; omega)
  refine ⟨_, perform_engine_encRound h.encrypting.phase round, h.advance.encrypting.encRound round, ?_, h.notValid, h.dout, h.rk,
    h.schedule⟩
  rw [encRoundEffect_rnd, round_toNat, ← round, h.rounds]

/-- After 16 rounds the engine delivers the ciphertext of the block at acceptance. -/
theorem EncryptAfter.finish (h : EncryptAfter s0 16 s) :
    ∃ t, perform .engine s = .next t ∧ t.phase = phaseIdle ∧ t.rnd = 16#5 ∧ t.dvalid = true ∧
      t.dout = encrypt s0.din s0.rkWords ∧ t.rk = s0.rk ∧ t.kvalid = true := by
  have round : s.rnd = 16#5 := BitVec.eq_of_toNat_eq h.rounds
  refine ⟨_, perform_engine_encFinal h.encrypting.phase round, rfl, round, rfl, ?_, h.rk, h.schedule⟩
  rw [h.advance.encrypting.dout_encFinalEffect round, rkWords_eq_of_rk h.advance.rk]

/-- An accepted `ENCRYPT` and any mix of host transactions and at most 16 engine turns. -/
theorem exists_encryptAfter {v : Word} {acts : List Action} (idle : s.phase = phaseIdle) (schedule : s.kvalid = true)
    (opc : v.extractLsb' 0 8 = 0x02#8) (kinds : ∀ a ∈ acts, a.isHost = true ∨ a.isEngine = true)
    (notLast : engineTurns acts ≤ 16) :
    ∃ t, runActions (hostWriteAction idxCmd v :: acts) s = .next t ∧ EncryptAfter s (engineTurns acts) t := by
  have accepted : perform (hostWriteAction idxCmd v) s = .next (encInit (s.advance [])) :=
    exec_hostWrite_encrypt (s := s.advance []) idle schedule opc
  have fits : 0 + engineTurns acts ≤ 16 := by rwa [Nat.zero_add]
  have ran := exists_runActions_of_counted (P := EncryptAfter s) EncryptAfter.host EncryptAfter.engine kinds fits
    (encryptAfter_encInit schedule)
  rw [Nat.zero_add] at ran
  rwa [runActions, accepted]

end

/-- Settles O55: 16 rounds count, and the seventeenth step delivers. -/
theorem encryptFinishesInSeventeenSteps : Obligations.EncryptFinishesInSeventeenSteps := by
  unfold Obligations.EncryptFinishesInSeventeenSteps
  refine fun s v acts idle schedule opc kinds => ⟨fun notLast => ?_, fun last => ?_⟩
  · obtain ⟨t, ran, after⟩ := exists_encryptAfter idle schedule opc kinds notLast
    exact ⟨t, ran, after.encrypting.phase, after.rounds, after.notValid, after.dout⟩
  · obtain ⟨u, ran, after⟩ := exists_encryptAfter idle schedule opc kinds last.le
    rw [last] at after
    obtain ⟨t, took, finished⟩ := after.finish
    refine ⟨t, ?_, finished⟩
    rw [← List.cons_append, runActions_append ran, runActions, took]
    rfl

end Sys2Proof.Machine

/-! PROOFS. Refusals: an access or a command that is refused raises its flag and changes nothing else, no step takes a flag down, the
static check of the constants, and in a legal code every step completes (60_exceptions.md R210 to R217; settles O17, O19, O20, O21,
O30, O43, O46). -/

namespace Sys2Proof.Machine

/-! ### In a legal code every action completes (R210; 30_encoding.md R108) -/

section
variable {s : State}

theorem perform_engine_idle (idle : s.phase = phaseIdle) : perform .engine s = .next (s.advance []) := by
  have turn : perform .engine s = runCode (.sq s.seq) (s.advance []) := rfl
  rw [turn, runCode_of_error (decode_seq_of_idle idle)]
  rfl

/-- A legal code selects a micro-operation, or the engine is idle. -/
theorem SequencerInv.exists_perform_engine (inv : SequencerInv s) : ∃ t, perform .engine s = .next t := by
  have phases : ∀ p : BitVec 2, p ≠ 3#2 → p = phaseIdle ∨ p = phaseKs ∨ p = phaseEnc := by decide
  rcases phases s.phase inv.phase_legal with idle | ks | enc
  · exact ⟨_, perform_engine_idle idle⟩
  · obtain ⟨r, round⟩ := exists_round (inv.ks_rnd_le ks)
    exact ⟨_, perform_engine_ksRound ks round⟩
  · by_cases last : s.rnd = 16#5
    · exact ⟨_, perform_engine_encFinal enc last⟩
    · have notLast : s.rnd.toNat ≠ 16 := fun e => last (BitVec.eq_of_toNat_eq e)
      have bound := inv.rnd_le
      obtain ⟨r, round⟩ := exists_round (n := s.rnd) (by omega)
      exact ⟨_, perform_engine_encRound enc round⟩

/-- The permutation unit has an output for every select that is not reserved. -/
theorem perform_usePermutationUnit (tsel : BitVec 3) (value : Word) (s : State) :
    (∃ t, perform (.usePermutationUnit tsel value) s = .next t) ∨ 6 ≤ tsel.toNat := by
  rcases bitVec3_cases tsel with rfl | rfl | rfl | rfl | rfl | rfl | rfl | rfl
  iterate 6 exact .inl ⟨_, rfl⟩
  iterate 2 exact .inr (by decide)

theorem perform_useRotator (rotsel : BitVec 1) (x : Word) (s : State) : ∃ t, perform (.useRotator rotsel x) s = .next t := by
  have selects : ∀ q : BitVec 1, q = 0#1 ∨ q = 1#1 := by decide
  rcases selects rotsel with rfl | rfl
  · exact ⟨_, exec_rotl28By1 x (s.advance [])⟩
  · exact ⟨_, exec_rotl28By2 x (s.advance [])⟩

theorem perform_useSboxRom (addr : BitVec 9) (s : State) : ∃ t, perform (.useSboxRom addr) s = .next t :=
  ⟨_, exec_sboxInstr _ _ _ (s.advance [])⟩

/-- Every kind of action completes by itself, but for a reserved table select (log 12). -/
theorem SequencerInv.exists_perform (inv : SequencerInv s) (a : Action) :
    (∃ t, perform a s = .next t) ∨ ∃ tsel value, a = .usePermutationUnit tsel value ∧ 6 ≤ tsel.toNat := by
  cases a with
  | host header data =>
    obtain ⟨t, took, _⟩ := perform_host header data s
    exact .inl ⟨t, took⟩
  | engine => exact .inl inv.exists_perform_engine
  | reset d => exact .inl ⟨_, rfl⟩
  | usePermutationUnit tsel value =>
    exact (perform_usePermutationUnit tsel value s).imp_right fun reserved => ⟨tsel, value, rfl, reserved⟩
  | useRotator rotsel x => exact .inl (perform_useRotator rotsel x s)
  | useSboxRom addr => exact .inl (perform_useSboxRom addr s)

/-- A step completes where the action in front does by itself. -/
theorem exists_step_of_perform {a : Action} {rest : List Action} {u : State} (front : s.pending = a :: rest)
    (took : perform a s = .next u) : ∃ t, step s = .next t := by
  have same : step s = withPending rest (perform a s) := by rw [← step_eq_perform, ← front]
  exact ⟨{ u with pending := rest }, by rw [same, took]; rfl⟩

end

/-- Settles O43: each kind of action by itself, and with nothing to come the engine's own turn. -/
theorem legalSequencerNeverStops : Obligations.LegalSequencerNeverStops := by
  unfold Obligations.LegalSequencerNeverStops
  intro s inv
  cases front : s.pending with
  | nil =>
    have turn : step s = perform .engine s := step_of_nothing_pending front
    rw [turn]
    exact .inl inv.exists_perform_engine
  | cons a rest =>
    obtain ⟨t, took⟩ | ⟨tsel, value, rfl, reserved⟩ := inv.exists_perform a
    · exact .inl (exists_step_of_perform front took)
    · exact .inr ⟨tsel, value, rest, rfl, reserved⟩

/-! ### A flag that is up stays up (R214; 10_state.md R34) -/

section
variable {s t : State} {e : ErrorFlag}

theorem errorFlag_raise_of_set (up : s.errorFlag e = true) (e' : ErrorFlag) : (s.raise e').errorFlag e = true := by
  rw [errorFlag_raise, up, Bool.true_or]

theorem errorFlag_commandDecoder_of_set (up : s.errorFlag e = true) (opc : BitVec 8) :
    (commandDecoder opc s).errorFlag e = true := by
  rcases commandDecoder_cases opc s with ⟨_, h⟩ | ⟨_, _, h⟩ | ⟨_, _, _, h⟩ | ⟨_, _, _, h⟩ | ⟨_, _, _, h⟩ <;>
    simp [h, up, errorFlag_raise_of_set]

/-- A host transaction leaves a flag as it is or raises one. -/
theorem HostEffect.errorFlag_of_set {header : BitVec 6} {data : Word} (h : HostEffect header data s t)
    (up : s.errorFlag e = true) : t.errorFlag e = true := by
  cases h with
  | answered | keyWritten | dinWritten => simpa using up
  | readRefused => rw [errorFlag_answer, errorFlag_raise_of_set up]
  | command => exact errorFlag_commandDecoder_of_set up _
  | writeRefused => exact errorFlag_raise_of_set up _

end

/-- Settles O46: a step is a host transaction, which takes no flag down, or it leaves the flags as they are. -/
theorem errorFlagsAreSticky : Obligations.ErrorFlagsAreSticky := by
  unfold Obligations.ErrorFlagsAreSticky
  intro s t e took noReset
  obtain ⟨header, data, rest, front, effect⟩ | kept := step_host_or_kept took noReset
  · exact ⟨fun up => effect.errorFlag_of_set (by rwa [errorFlag_advance]), fun noHost => absurd front (noHost header data rest)⟩
  · exact ⟨fun up => by rw [kept.errorFlag, up], fun _ => kept.errorFlag e⟩

/-! ### Accesses that the map does not allow (R217) -/

theorem exec_hostWrite_of_unwritable {idx : BitVec 5} (unwritable : idx ≠ 0x00#5 ∧ idx ≠ 0x01#5 ∧ idx ≠ 0x03#5) (v : Word)
    (s : State) : exec (.hostWrite idx v) s = .next (s.raise .acc) := by
  obtain ⟨notKey, notDin, notCmd⟩ := unwritable
  simp only [exec, execHostWrite, notKey, notDin, notCmd, if_false]

/-- Settles O17: the map allows neither the read nor the write. -/
theorem accessFaultSetsEAccOnly : Obligations.AccessFaultSetsEAccOnly := by
  unfold Obligations.AccessFaultSetsEAccOnly
  refine fun s => ⟨fun idx unreadable => exec_hostRead_of_none ((hostReadable_eq_none s idx).2 unreadable), fun idx v denied => ?_⟩
  have ranges : ∀ x : BitVec 5, x = 0x02#5 ∨ x = 0x04#5 ∨ 0x05 ≤ x.toNat → x ≠ 0x00#5 ∧ x ≠ 0x01#5 ∧ x ≠ 0x03#5 := by decide
  exact exec_hostWrite_of_unwritable (ranges idx denied) v s

/-! ### Commands refused (R213, R215, R216, R218) -/

section
variable {s : State}

theorem commandDecoder_of_busy (busy : s.phase ≠ phaseIdle) (opc : BitVec 8) : commandDecoder opc s = s.raise .busy :=
  if_pos busy

theorem commandDecoder_reserved {opc : BitVec 8} (idle : s.phase = phaseIdle) (notKeygen : opc ≠ 0x01#8)
    (notEncrypt : opc ≠ 0x02#8) : commandDecoder opc s = s.raise .illcmd := by
  simp [commandDecoder, idle, notKeygen, notEncrypt]

theorem commandDecoder_encrypt_of_no_schedule (idle : s.phase = phaseIdle) (noSchedule : s.kvalid = false) :
    commandDecoder 0x02#8 s = s.raise .nokey := by
  simp [commandDecoder, idle, noSchedule]

end

/-- Settles O19: the command decoder looks at the `PHASE` first. -/
theorem busyCommandSetsEBusyOnly : Obligations.BusyCommandSetsEBusyOnly := by
  unfold Obligations.BusyCommandSetsEBusyOnly
  intro s busy
  have refused (opc : BitVec 8) : commandDecoder opc s = { s with eBusy := true } := commandDecoder_of_busy busy opc
  refine ⟨fun v => ?_, ?_, ?_⟩
  · rw [exec_hostWrite_cmd, refused]
  · rw [exec_keygen_eq_commandDecoder, refused]
  · rw [exec_encrypt_eq_commandDecoder, refused]

/-- Settles O20: with the engine idle, the two command words are the only ones that do not reach the last refusal. -/
theorem reservedCommandSetsEIllcmdOnly : Obligations.ReservedCommandSetsEIllcmdOnly := by
  unfold Obligations.ReservedCommandSetsEIllcmdOnly
  intro s v idle notKeygen notEncrypt
  rw [exec_hostWrite_cmd, commandDecoder_reserved idle notKeygen notEncrypt]
  rfl

/-- Settles O21: `KVALID` is looked at before `ENC_INIT`. -/
theorem encryptWithoutScheduleSetsENokeyOnly : Obligations.EncryptWithoutScheduleSetsENokeyOnly := by
  unfold Obligations.EncryptWithoutScheduleSetsENokeyOnly
  intro s idle noSchedule
  have refused : commandDecoder 0x02#8 s = { s with eNokey := true } := commandDecoder_encrypt_of_no_schedule idle noSchedule
  refine ⟨fun v opc => ?_, ?_⟩
  · rw [exec_hostWrite_cmd, opc, refused]
  · rw [exec_encrypt_eq_commandDecoder, refused]

/-! ### The static check of the constants (R212; 92_eei_decisions.md D23) -/

theorem permTableWf_iff {len : Nat} {t : PermTable} :
    permTableWf len t = true ↔ t.length = len ∧ ∀ p ∈ t, 1 ≤ p ∧ p ≤ 64 := by
  simp [permTableWf]

theorem sboxWf_iff {t : List Nat} : sboxWf t = true ↔ t.length = 64 ∧ ∀ v ∈ t, v ≤ 15 := by
  simp [sboxWf]

/-- What the check says of the six permutation tables. -/
theorem permTables_entries : ∀ t ∈ [tableIp, tableFp, tablePc1, tablePc2, tableE, tableP], ∀ p ∈ t, 1 ≤ p ∧ p ≤ 64 := by
  have tables := tablesWf_holds
  simp only [tablesWf, Bool.and_eq_true, permTableWf_iff] at tables
  obtain ⟨⟨⟨⟨⟨⟨⟨⟨_, ip⟩, _, fp⟩, _, pc1⟩, _, pc2⟩, _, e⟩, _, p⟩, _⟩, _⟩ := tables
  simp only [List.forall_mem_cons]
  exact ⟨ip, fp, pc1, pc2, e, p, List.forall_mem_nil _⟩

/-- What the check says of the eight S-boxes. -/
theorem sboxes_wf : ∀ t ∈ [tableS0, tableS1, tableS2, tableS3, tableS4, tableS5, tableS6, tableS7],
    t.length = 64 ∧ ∀ v ∈ t, v ≤ 15 := by
  have wf (box : BitVec 3) := sboxWf_iff.1 (sboxWf_sboxTable box)
  simp only [List.forall_mem_cons]
  exact ⟨wf 0, wf 1, wf 2, wf 3, wf 4, wf 5, wf 6, wf 7, List.forall_mem_nil _⟩

/-- The halves turn by 28 positions in 16 rounds (20_memory.md R69). -/
theorem tableShift_sum : tableShift.sum = 28 := by decide

/-- Settles O30: the clauses of the check, and the sum of the shift amounts. -/
theorem tablesAreWellFormed : Obligations.TablesAreWellFormed := by
  unfold Obligations.TablesAreWellFormed
  exact ⟨⟨tableIp_length, tableFp_length, tablePc1_length, tablePc2_length, tableE_length, tableP_length, tableShift_length⟩,
    permTables_entries, sboxes_wf, fun _ => tableShift_mem, tableShift_sum⟩

end Sys2Proof.Machine

/-! PROOFS. The engine's step and what the host alone writes; in a fair execution an accepted command finishes and `WAIT` ends
(70_reset_and_hazards.md R250, R252; settles O53, O59, O60). -/

namespace Sys2Proof.Machine

/-! ### The engine does not see `KEY`, `DIN` or an error flag (R250; 10_state.md R34) -/

/-- The state with `KEY`, `DIN` and the error flags of the state `h`. -/
def State.withHostRegs (s h : State) : State :=
  { s with key := h.key, din := h.din, eNokey := h.eNokey, eBusy := h.eBusy, eIllcmd := h.eIllcmd, eAcc := h.eAcc }

/-- The outcome with its next state, where there is one, changed by `f`. -/
def mapNext (f : State → State) : Host.Outcome State Fault Refusal → Host.Outcome State Fault Refusal
  | .next t => .next (f t)
  | .fault r => .fault r
  | .refused r => .refused r

section
variable (s h : State) (r : BitVec 4)

theorem seq_withHostRegs : (s.withHostRegs h).seq = s.seq := rfl

theorem ksRoundEffect_withHostRegs : ksRoundEffect r (s.withHostRegs h) = (ksRoundEffect r s).withHostRegs h := by
  simp only [ksRoundEffect]
  split <;> rfl

theorem exec_ksRound_withHostRegs :
    exec (.ksRound r) (s.withHostRegs h) = mapNext (·.withHostRegs h) (exec (.ksRound r) s) := by
  simp only [exec, execKsRound, seq_withHostRegs, ksRoundEffect_withHostRegs, apply_ite (mapNext _)]
  rfl

theorem exec_encRound_withHostRegs :
    exec (.encRound r) (s.withHostRegs h) = mapNext (·.withHostRegs h) (exec (.encRound r) s) := by
  simp only [exec, execEncRound, seq_withHostRegs, apply_ite (mapNext _)]
  rfl

theorem exec_encFinal_withHostRegs : exec .encFinal (s.withHostRegs h) = mapNext (·.withHostRegs h) (exec .encFinal s) := by
  simp only [exec, execEncFinal, seq_withHostRegs, apply_ite (mapNext _)]
  rfl

/-- Whatever a sequencer word selects: a micro-operation, nothing, or no step at all. -/
theorem runCode_sq_withHostRegs (q : BitVec 7) :
    runCode (.sq q) (s.withHostRegs h) = mapNext (·.withHostRegs h) (runCode (.sq q) s) := by
  rcases decodeSq_cases q with ⟨_, known⟩ | ⟨r, _, known⟩ | ⟨r, _, known⟩ | ⟨_, known⟩ | ⟨_, _, _, _, known⟩ <;>
    simp only [runCode, decode, known]
  · rfl
  · exact exec_ksRound_withHostRegs s h r
  · exact exec_encRound_withHostRegs s h r
  · exact exec_encFinal_withHostRegs s h
  · rfl

theorem perform_engine_withHostRegs :
    perform .engine (s.withHostRegs h) = mapNext (·.withHostRegs h) (perform .engine s) :=
  runCode_sq_withHostRegs (s.advance []) h s.seq

end

/-- Settles O53: the engine's turn runs the sequencer word, and no micro-operation reads or writes what the host alone writes. -/
theorem engineIgnoresKeyDinAndErrorFlags : Obligations.EngineIgnoresKeyDinAndErrorFlags := by
  unfold Obligations.EngineIgnoresKeyDinAndErrorFlags
  intro s k b e1 e2 e3 e4
  have blind := perform_engine_withHostRegs s { s with key := k, din := b, eNokey := e1, eBusy := e2, eIllcmd := e3, eAcc := e4 }
  refine Eq.trans blind ?_
  cases perform .engine s <;> rfl

/-! ### Accepted commands finish (R252; 44_pipeline_and_host.md R198, R200) -/

section
variable {states : Nat → State} {acts : Nat → Option Action} {n : Nat}

theorem IsExecution.eq_of_perform (h : IsExecution states acts) {a : Action} {t : State} (act : acts n = .some a)
    (took : perform a (states n) = .next t) : states (n + 1) = t :=
  next_eq (took.symm.trans (h.some act).2.2)

/-- A longer stretch has at least the engine turns of a shorter one. -/
theorem engineTurns_actionsFrom_mono {len len' : Nat} (le : len ≤ len') :
    engineTurns (actionsFrom acts n len) ≤ engineTurns (actionsFrom acts n len') := by
  obtain ⟨more, rfl⟩ := Nat.exists_eq_add_of_le le
  rw [actionsFrom_add, engineTurns_append]
  exact Nat.le_add_right _ _

/-- A stretch that ends in the engine's turn, and the stretch after it. -/
theorem engineTurns_actionsFrom_engine {a b : Nat} (act : acts (n + a) = some .engine) :
    engineTurns (actionsFrom acts n (a + 1 + b)) =
      engineTurns (actionsFrom acts n a) + 1 + engineTurns (actionsFrom acts (n + a + 1) b) := by
  rw [actionsFrom_add, actionsFrom_succ, act, engineTurns_append, engineTurns_append]
  rfl

section
variable {P : Nat → State → Prop} {bound : Nat}
  (hostKeeps : ∀ {k s t header data}, P k s → perform (.host header data) s = .next t → P k t)
  (engineCounts : ∀ {k s}, k < bound → P k s → ∃ t, perform .engine s = .next t ∧ P (k + 1) t)
  (busy : ∀ {k s}, P k s → s.phase ≠ phaseIdle)
  (execution : IsExecution states acts) (fair : WeaklyFair states acts) (noReset : ∀ m d, n ≤ m → acts m ≠ some (.reset d))
  (start : P 0 (states n))
include hostKeeps engineCounts execution noReset start

/-- In an execution too the engine turns are counted, up to the bound. -/
theorem counted_along_execution {len : Nat} (fits : engineTurns (actionsFrom acts n len) ≤ bound) :
    P (engineTurns (actionsFrom acts n len)) (states (n + len)) := by
  obtain ⟨t, ran, counted⟩ := exists_runActions_of_counted (P := P) hostKeeps engineCounts
    (execution.host_or_engine noReset len) (by rwa [Nat.zero_add]) start
  rwa [Nat.zero_add, next_eq ((execution.runActions n len).symm.trans ran)] at counted

include busy fair

/-- In a fair execution the engine takes its turn after any number of turns up to the bound. -/
theorem exists_engine_step_after {k : Nat} (le : k ≤ bound) :
    ∃ len, engineTurns (actionsFrom acts n len) = k ∧ acts (n + len) = some .engine := by
  have counted {len : Nat} := counted_along_execution (P := P) hostKeeps engineCounts execution noReset start (len := len)
  induction k with
  | zero => exact fair.next_engine_step fun len none => busy (counted (by omega))
  | succ k ih =>
    obtain ⟨a, turns, act⟩ := ih (by omega)
    have total (b : Nat) := engineTurns_actionsFrom_engine (b := b) act
    obtain ⟨b, none, next⟩ := fair.next_engine_step (n := n + a + 1) fun b none => by
      have stillBusy := busy (counted (len := a + 1 + b) (by rw [total]; omega))
      rwa [← Nat.add_assoc, ← Nat.add_assoc] at stillBusy
    refine ⟨a + 1 + b, by rw [total, turns, none], ?_⟩
    rwa [← Nat.add_assoc, ← Nat.add_assoc]

/-- An operation that counts its turns up to the bound and finishes in the next does so in a fair execution, in progress until
then. -/
theorem finishes_in_fair_execution {Q : State → Prop}
    (finish : ∀ {s}, P bound s → ∃ t, perform .engine s = .next t ∧ Q t) :
    ∃ len, engineTurns (actionsFrom acts n len) = bound + 1 ∧ (∀ i < len, ∃ k, P k (states (n + i))) ∧
      Q (states (n + len)) := by
  have counted {len : Nat} := counted_along_execution (P := P) hostKeeps engineCounts execution noReset start (len := len)
  obtain ⟨last, turns, act⟩ :=
    exists_engine_step_after (P := P) hostKeeps engineCounts busy execution fair noReset start le_rfl
  have now : P bound (states (n + last)) := turns ▸ counted turns.le
  obtain ⟨t, took, done⟩ := finish now
  refine ⟨last + 1, ?_, fun i before => ⟨_, counted ?_⟩, ?_⟩
  · rw [engineTurns_actionsFrom_engine (b := 0) act, turns]
    rfl
  · exact (engineTurns_actionsFrom_mono (Nat.le_of_lt_succ before)).trans turns.le
  · rwa [← Nat.add_assoc, execution.eq_of_perform act took]

end
end

theorem exec_hostWrite_keygen {s : State} {v : Word} (idle : s.phase = phaseIdle) (opc : v.extractLsb' 0 8 = 0x01#8) :
    exec (.hostWrite 0x03#5 v) s = .next (ksInit s) := by
  rw [exec_hostWrite_cmd, opc, commandDecoder_keygen idle]

/-- Settles O59: the states from the acceptance on count the engine's turns as in O54 and O55, and fairness brings the last. -/
theorem acceptedCommandsFinishUnderFairness : Obligations.AcceptedCommandsFinishUnderFairness := by
  unfold Obligations.AcceptedCommandsFinishUnderFairness
  intro states acts n v execution fair noReset idle command
  refine ⟨fun opc => ?_, fun opc schedule => ?_⟩
  · have accepted := execution.eq_of_perform command (exec_hostWrite_keygen (s := (states n).advance []) idle opc)
    obtain ⟨len, turns, running, idle, kvalid, keys⟩ := finishes_in_fair_execution (P := KeygenAfter (states n))
      (Q := fun t => t.phase = phaseIdle ∧ t.kvalid = true ∧ t.rkWords = generateKeys (states n).key)
      KeygenAfter.host KeygenAfter.engine KeygenAfter.busy execution fair noReset
      (accepted ▸ keygenAfter_ksInit _) fun h => by
        obtain ⟨t, took, idle, _, kvalid, keys, _⟩ := h.finish
        exact ⟨t, took, idle, kvalid, keys⟩
    refine ⟨len, turns, fun i before => ?_, idle, kvalid, keys⟩
    obtain ⟨_, h⟩ := running i before
    exact h.making.phase
  · have accepted := execution.eq_of_perform command (exec_hostWrite_encrypt (s := (states n).advance []) idle schedule opc)
    obtain ⟨len, turns, running, idle, dvalid, dout⟩ := finishes_in_fair_execution (P := EncryptAfter (states n))
      (Q := fun t => t.phase = phaseIdle ∧ t.dvalid = true ∧ t.dout = encrypt (states n).din (states n).rkWords)
      EncryptAfter.host EncryptAfter.engine EncryptAfter.busy execution fair noReset
      (accepted ▸ encryptAfter_encInit schedule) fun h => by
        obtain ⟨t, took, idle, _, dvalid, dout, _⟩ := h.finish
        exact ⟨t, took, idle, dvalid, dout⟩
    refine ⟨len, turns, fun i before => ?_, idle, dvalid, dout⟩
    obtain ⟨_, h⟩ := running i before
    exact h.encrypting.phase

/-! ### `WAIT` ends (R252; 30_encoding.md R111) -/

/-- How many engine steps the operation in progress still needs. -/
def State.engineStepsLeft (s : State) : Nat :=
  if s.phase = phaseKs then 16 - s.rnd.toNat else if s.phase = phaseEnc then 17 - s.rnd.toNat else 0

theorem engineStepsLeft_le (s : State) :
    s.engineStepsLeft ≤ if s.phase = phaseKs then 16 else if s.phase = phaseEnc then 17 else 0 := by
  unfold State.engineStepsLeft
  split
  · exact Nat.sub_le _ _
  · split
    · exact Nat.sub_le _ _
    · exact le_rfl

theorem engineStepsLeft_of_ks {s : State} (ks : s.phase = phaseKs) : s.engineStepsLeft = 16 - s.rnd.toNat := if_pos ks

theorem engineStepsLeft_of_enc {s : State} (enc : s.phase = phaseEnc) : s.engineStepsLeft = 17 - s.rnd.toNat := by
  simp [State.engineStepsLeft, enc]

theorem engineStepsLeft_of_idle {s : State} (idle : s.phase = phaseIdle) : s.engineStepsLeft = 0 := by
  simp [State.engineStepsLeft, idle]

/-- A step that a busy engine takes leaves fewer to take; in a code that no rule produces it takes none. -/
theorem engineStepsLeft_lt {s t : State} (busy : s.phase ≠ phaseIdle) (took : perform .engine s = .next t) :
    t.engineStepsLeft < s.engineStepsLeft := by
  cases step_move took (by simp) with
  | quiet _ noRound => exact absurd (noRound (.inr ⟨[], rfl⟩)) busy
  | keygenAccepted _ _ front | encryptAccepted _ _ front => simp at front
  | ksRound r rest _ selected round =>
    have ks : s.phase = phaseKs := selected
    have count : s.rnd.toNat = r.toNat := round
    rw [engineStepsLeft_of_ks ks]
    by_cases last : r = 15#4
    · rw [engineStepsLeft_of_idle (by rw [ksRoundEffect_phase, if_pos last])]
      omega
    · rw [engineStepsLeft_of_ks (by rw [ksRoundEffect_phase, if_neg last]; exact ks), ksRoundEffect_rnd, round_toNat]
      omega
  | encRound r rest _ selected round =>
    have enc : s.phase = phaseEnc := selected
    have count : s.rnd.toNat = r.toNat := round
    rw [engineStepsLeft_of_enc enc, engineStepsLeft_of_enc (by exact enc), encRoundEffect_rnd, round_toNat]
    omega
  | encFinal rest _ selected round =>
    have enc : s.phase = phaseEnc := selected
    have count : s.rnd = 16#5 := round
    rw [engineStepsLeft_of_enc enc, engineStepsLeft_of_idle (encFinalEffect_phase _), count]
    decide

section
variable {states : Nat → State} {acts : Nat → Option Action} {n : Nat}

theorem Waiting.later (waiting : Waiting acts n) {m : Nat} (le : n ≤ m) : Waiting acts m :=
  ⟨fun k hk => waiting.1 k (le.trans hk), fun k hk => waiting.2 k (le.trans hk)⟩

/-- Reads of `STATUS` leave the engine's own registers alone. -/
theorem engineRegs_of_no_turns (execution : IsExecution states acts) (waiting : Waiting acts n) {len : Nat}
    (none : engineTurns (actionsFrom acts n len) = 0) : (states (n + len)).engineRegs = (states n).engineRegs := by
  induction len with
  | zero => rfl
  | succ len ih =>
    rw [actionsFrom_succ, engineTurns_append, Nat.add_eq_zero_iff] at none
    obtain ⟨before, now⟩ := none
    rw [← ih before, ← Nat.add_assoc]
    rcases waiting.1 (n + len) (Nat.le_add_right _ _) with act | act | act
    · rw [execution.none act]
    · simp [act] at now
    · rw [execution.eq_of_perform act (perform_wait _)]
      rfl

/-- While the host waits an idle engine stays idle. -/
theorem no_turns_of_idle (execution : IsExecution states acts) (waiting : Waiting acts n) (idle : (states n).phase = phaseIdle)
    (len : Nat) : engineTurns (actionsFrom acts n len) = 0 := by
  induction len with
  | zero => rfl
  | succ len ih =>
    have still : (states (n + len)).phase = phaseIdle :=
      (phase_eq_of_engineRegs (engineRegs_of_no_turns execution waiting ih)).trans idle
    rw [actionsFrom_succ, engineTurns_append, ih, engineTurns_toList, if_neg fun act => (execution.some act).2.1 rfl still]

/-- Where the engine is idle the next read of `STATUS` shows it. -/
theorem wait_ends_of_idle (execution : IsExecution states acts) (waiting : Waiting acts n) (idle : (states n).phase = phaseIdle) :
    ∃ len, acts (n + len) = some Statement.wait.action ∧ showsIdle (states (n + len + 1)).returned = true ∧
      engineTurns (actionsFrom acts n len) = 0 := by
  obtain ⟨m, le, act⟩ := waiting.2 n le_rfl
  obtain ⟨len, rfl⟩ := Nat.exists_eq_add_of_le le
  have none := no_turns_of_idle execution waiting idle len
  refine ⟨len, act, ?_, none⟩
  rw [execution.eq_of_perform act (perform_wait _), State.answer_returned, showsIdle_status,
    phase_eq_of_engineRegs (engineRegs_of_no_turns execution waiting none), idle]
  rfl

/-- Each step of the busy engine leaves fewer to take, and fairness brings the next, until the engine is idle. -/
theorem wait_ends {n : Nat} (execution : IsExecution states acts) (fair : WeaklyFair states acts) (waiting : Waiting acts n) :
    ∃ len, acts (n + len) = some Statement.wait.action ∧ showsIdle (states (n + len + 1)).returned = true ∧
      engineTurns (actionsFrom acts n len) ≤ (states n).engineStepsLeft := by
  by_cases idle : (states n).phase = phaseIdle
  · obtain ⟨len, act, shows, none⟩ := wait_ends_of_idle execution waiting idle
    exact ⟨len, act, shows, by omega⟩
  · obtain ⟨a, none, act⟩ := fair.next_engine_step (n := n) fun len none => by
      rwa [phase_eq_of_engineRegs (engineRegs_of_no_turns execution waiting none)]
    have same := engineRegs_of_no_turns execution waiting none
    have left : (states (n + a)).engineStepsLeft = (states n).engineStepsLeft :=
      eq_of_engineRegs same State.engineStepsLeft fun _ => rfl
    obtain ⟨_, busy, took⟩ := execution.some act
    have fewer := engineStepsLeft_lt (busy rfl) took
    obtain ⟨b, read, shows, turns⟩ := wait_ends execution fair (waiting.later (m := n + a + 1) (by omega))
    refine ⟨a + 1 + b, ?_, ?_, ?_⟩
    · rwa [← Nat.add_assoc, ← Nat.add_assoc]
    · rwa [← Nat.add_assoc, ← Nat.add_assoc]
    · rw [engineTurns_actionsFrom_engine act]
      omega
termination_by (states n).engineStepsLeft

end

/-- Settles O60: a waiting host leaves the engine its steps, and those it still needs are at most 16 or 17. -/
theorem waitEndsUnderFairness : Obligations.WaitEndsUnderFairness := by
  unfold Obligations.WaitEndsUnderFairness
  intro states acts n execution fair waiting
  obtain ⟨len, read, shows, turns⟩ := wait_ends execution fair waiting
  exact ⟨len, read, shows, turns.trans (engineStepsLeft_le _)⟩

end Sys2Proof.Machine

/-! PROOFS. Words written out bit by bit decode to the instructions they stand for (30_encoding.md R100 to R106; settles O5). -/

namespace Sys2Proof.Machine

/-- Settles O5: each word, bit by bit, is the code of its instruction, and the decoder undoes the encoder. -/
theorem wordsWrittenOutDecode : Obligations.WordsWrittenOutDecode := by
  unfold Obligations.WordsWrittenOutDecode
  exact ⟨decode_encode (.hostRead 0x10),
    decode_encode (.hostWrite 0x03 0x101),
    decode_encode .keygen,
    decode_encode .encrypt,
    decode_encode (.ksRound 15),
    decode_encode (.encRound 1),
    decode_encode (.permPc2 0xE19955FAACCF1E00#64),
    decode_encode (.rotl28By2 0x8000000000000000#64),
    decode_encode (.sbox5 1 13)⟩

end Sys2Proof.Machine
